-- ==== Sys2Proof/Word.lean ====
section
/-!
DEFINITION. The int32 word of the machine (00_scope.md R6, 10_state.md R29) and its bounds.
-/
namespace Sys2Proof

/-- An `int32` payload: a register, a memory cell's value field, a stack slot, an output entry
(00_scope.md R6). The signed value is `BitVec.toInt`. -/
abbrev Word := BitVec 32

/-- A 40-bit instruction word, format `W40` (30_encoding.md R82). -/
abbrev Word40 := BitVec 40

/-- `MIN = -2^31` (00_scope.md R6). -/
abbrev intMin : Int := -2147483648

/-- `MAX = 2^31 - 1` (00_scope.md R6). -/
abbrev intMax : Int := 2147483647

/-- The integer lies in `int32` (00_scope.md R6). -/
abbrev InInt32 (x : Int) : Prop := intMin ≤ x ∧ x ≤ intMax

/-- The `int32` word of an integer of `int32`. -/
abbrev Word.ofInt (x : Int) : Word := BitVec.ofInt 32 x

/-- The `int32` word of a small natural (an address). -/
abbrev Word.ofNat (n : Nat) : Word := BitVec.ofNat 32 n

end Sys2Proof
end

