-- ==== Sys2Proof/Syntax.lean ====
section
/-!
DEFINITION. The instructions: one constructor for each of the 35 rows of opcode_table.json
(30_encoding.md R80, R83, R84, R86). `Abs` payloads are cell addresses, `Imm` payloads the value itself,
`Var`, label and function payloads symbol numbers (R85, R94). The CHAR form has no row: it is lowered to
`Imm` (R97, Machine/Argument.lean).
-/
namespace Sys2Proof

/-- An instruction `(mnemonic, mode, payload)` (R80). -/
inductive Instr where
  /-- HLT (R143). -/
  | hlt
  /-- ADD, absolute cell address (R161). -/
  | addAbs (n : Nat)
  /-- ADD, immediate (R161). -/
  | addImm (k : Int)
  /-- ADD, variable number (R161). -/
  | addVar (v : Nat)
  /-- SUB, absolute cell address (R162). -/
  | subAbs (n : Nat)
  /-- SUB, immediate (R162). -/
  | subImm (k : Int)
  /-- SUB, variable number (R162). -/
  | subVar (v : Nat)
  /-- MUL, absolute cell address (R163). -/
  | mulAbs (n : Nat)
  /-- MUL, immediate (R163). -/
  | mulImm (k : Int)
  /-- MUL, variable number (R163). -/
  | mulVar (v : Nat)
  /-- DIV, absolute cell address (R164). -/
  | divAbs (n : Nat)
  /-- DIV, immediate (R164). -/
  | divImm (k : Int)
  /-- DIV, variable number (R164). -/
  | divVar (v : Nat)
  /-- INV (R165). -/
  | inv
  /-- CMP, absolute cell address (R166). -/
  | cmpAbs (n : Nat)
  /-- CMP, immediate (R166). -/
  | cmpImm (k : Int)
  /-- CMP, variable number (R166). -/
  | cmpVar (v : Nat)
  /-- LD, absolute cell address (R180). -/
  | ldAbs (n : Nat)
  /-- LD, immediate (R180). -/
  | ldImm (k : Int)
  /-- LD, variable number (R180). -/
  | ldVar (v : Nat)
  /-- LD INPUT (R181). -/
  | ldInput
  /-- LD OUTPUT (R182). -/
  | ldOutput
  /-- ST, absolute cell address (R183). -/
  | stAbs (n : Nat)
  /-- ST, immediate (R186). -/
  | stImm (k : Int)
  /-- ST, variable number (R183). -/
  | stVar (v : Nat)
  /-- ST INPUT (R185). -/
  | stInput
  /-- ST OUTPUT (R184). -/
  | stOutput
  /-- PUSH (R201). -/
  | push
  /-- POP (R203). -/
  | pop
  /-- JMP, label number (R211). -/
  | jmp (l : Nat)
  /-- CALL, function number (R212). -/
  | call (f : Nat)
  /-- RET (R213). -/
  | ret
  /-- JZ, label number (R214). -/
  | jz (l : Nat)
  /-- JS, label number (R215). -/
  | js (l : Nat)
  /-- JNZ, label number (R216). -/
  | jnz (l : Nat)
  deriving DecidableEq, Repr

end Sys2Proof
end

