-- ==== Sys2Proof/WellFormed.lean ====
section
/-!
DEFINITION. Which instructions can be encoded: every payload lies in the range of its 32-bit operand field
(30_encoding.md R85). An instruction that is not well-formed is refused before a run (R273 (e), D31).
-/
namespace Sys2Proof

/-- A natural fits the 32-bit operand field: an absolute address or a symbol number (R85). -/
abbrev fits32 (n : Nat) : Bool := decide (n < 4294967296)

/-- An immediate lies in `int32` (R62, R85). -/
abbrev fitsInt32 (k : Int) : Bool := decide (InInt32 k)

/-- The payload of the instruction is in the range of its mode (R85). -/
def Instr.wf : Instr → Bool
  | .hlt => true
  | .addAbs n => fits32 n
  | .addImm k => fitsInt32 k
  | .addVar v => fits32 v
  | .subAbs n => fits32 n
  | .subImm k => fitsInt32 k
  | .subVar v => fits32 v
  | .mulAbs n => fits32 n
  | .mulImm k => fitsInt32 k
  | .mulVar v => fits32 v
  | .divAbs n => fits32 n
  | .divImm k => fitsInt32 k
  | .divVar v => fits32 v
  | .inv => true
  | .cmpAbs n => fits32 n
  | .cmpImm k => fitsInt32 k
  | .cmpVar v => fits32 v
  | .ldAbs n => fits32 n
  | .ldImm k => fitsInt32 k
  | .ldVar v => fits32 v
  | .ldInput => true
  | .ldOutput => true
  | .stAbs n => fits32 n
  | .stImm k => fitsInt32 k
  | .stVar v => fits32 v
  | .stInput => true
  | .stOutput => true
  | .push => true
  | .pop => true
  | .jmp l => fits32 l
  | .call f => fits32 f
  | .ret => true
  | .jz l => fits32 l
  | .js l => fits32 l
  | .jnz l => fits32 l

end Sys2Proof
end

