-- ==== Sys2Proof/Decode.lean ====
section
/-!
DEFINITION. The binary instruction word `W40` (30_encoding.md R82 to R89), its serial form (R95), and the
decoder and the encoder between words and instructions.
-/
namespace Sys2Proof

/-- The 17 mnemonics, in the order of rule R83. -/
inductive Mnemonic where
  | hlt | add | sub | mul | div | inv | cmp | ld | st | push | pop | jmp | call | ret | jz | js | jnz
  deriving DecidableEq, Repr

/-- The modes of the binary word, in the order of rule R84 (CHAR has none, R97). -/
inductive Mode where
  | noArg | abs | imm | var | label | func | input | output
  deriving DecidableEq, Repr

/-- Why a word is illegal, which is the load fault `IllegalEncoding` (R87, R241), or a byte image or a number is no
word. -/
inductive DecodeError where
  /-- The opcode is 17 to 31. -/
  | reservedOpcode
  /-- The `(opcode, mode)` pair is not one of the 35 of rule R86. -/
  | illegalMode
  /-- The mode is NONE, INPUT or OUTPUT and the operand field is not zero. -/
  | nonzeroOperand
  /-- A byte image whose length is no multiple of five, or a number that is no 40-bit word. DESIGN CHOICE: the spec
  speaks of neither (log 30). -/
  | badLength
  deriving DecidableEq, Repr

/-- The mnemonic of an opcode number, none for 17 to 31 (R83). -/
def mnemonicOf (opcode : BitVec 5) : Option Mnemonic :=
  match opcode.toNat with
  | 0 => some .hlt
  | 1 => some .add
  | 2 => some .sub
  | 3 => some .mul
  | 4 => some .div
  | 5 => some .inv
  | 6 => some .cmp
  | 7 => some .ld
  | 8 => some .st
  | 9 => some .push
  | 10 => some .pop
  | 11 => some .jmp
  | 12 => some .call
  | 13 => some .ret
  | 14 => some .jz
  | 15 => some .js
  | 16 => some .jnz
  | _ => none

/-- The opcode number of a mnemonic (R83). -/
def opcodeOf : Mnemonic → BitVec 5
  | .hlt => 0
  | .add => 1
  | .sub => 2
  | .mul => 3
  | .div => 4
  | .inv => 5
  | .cmp => 6
  | .ld => 7
  | .st => 8
  | .push => 9
  | .pop => 10
  | .jmp => 11
  | .call => 12
  | .ret => 13
  | .jz => 14
  | .js => 15
  | .jnz => 16

/-- The mode of a mode number (R84); all eight numbers are modes. -/
def modeOf (mode : BitVec 3) : Mode :=
  match mode.toNat with
  | 0 => .noArg
  | 1 => .abs
  | 2 => .imm
  | 3 => .var
  | 4 => .label
  | 5 => .func
  | 6 => .input
  | _ => .output

/-- The mode number of a mode (R84). -/
def modeNumber : Mode → BitVec 3
  | .noArg => 0
  | .abs => 1
  | .imm => 2
  | .var => 3
  | .label => 4
  | .func => 5
  | .input => 6
  | .output => 7

/-- An instruction without payload: its operand field must be zero (R85, R87). -/
def bare (i : Instr) (operand : BitVec 32) : Except DecodeError Instr :=
  if operand = 0 then .ok i else .error .nonzeroOperand

/-- The instruction of a mnemonic, a mode and an operand field: the 35 legal pairs of rule R86, with the
payload of rule R85. -/
def assemble (m : Mnemonic) (mode : Mode) (operand : BitVec 32) : Except DecodeError Instr :=
  match m, mode with
  | .hlt, .noArg => bare .hlt operand
  | .add, .abs => .ok (.addAbs operand.toNat)
  | .add, .imm => .ok (.addImm operand.toInt)
  | .add, .var => .ok (.addVar operand.toNat)
  | .sub, .abs => .ok (.subAbs operand.toNat)
  | .sub, .imm => .ok (.subImm operand.toInt)
  | .sub, .var => .ok (.subVar operand.toNat)
  | .mul, .abs => .ok (.mulAbs operand.toNat)
  | .mul, .imm => .ok (.mulImm operand.toInt)
  | .mul, .var => .ok (.mulVar operand.toNat)
  | .div, .abs => .ok (.divAbs operand.toNat)
  | .div, .imm => .ok (.divImm operand.toInt)
  | .div, .var => .ok (.divVar operand.toNat)
  | .inv, .noArg => bare .inv operand
  | .cmp, .abs => .ok (.cmpAbs operand.toNat)
  | .cmp, .imm => .ok (.cmpImm operand.toInt)
  | .cmp, .var => .ok (.cmpVar operand.toNat)
  | .ld, .abs => .ok (.ldAbs operand.toNat)
  | .ld, .imm => .ok (.ldImm operand.toInt)
  | .ld, .var => .ok (.ldVar operand.toNat)
  | .ld, .input => bare .ldInput operand
  | .ld, .output => bare .ldOutput operand
  | .st, .abs => .ok (.stAbs operand.toNat)
  | .st, .imm => .ok (.stImm operand.toInt)
  | .st, .var => .ok (.stVar operand.toNat)
  | .st, .input => bare .stInput operand
  | .st, .output => bare .stOutput operand
  | .push, .noArg => bare .push operand
  | .pop, .noArg => bare .pop operand
  | .jmp, .label => .ok (.jmp operand.toNat)
  | .call, .func => .ok (.call operand.toNat)
  | .ret, .noArg => bare .ret operand
  | .jz, .label => .ok (.jz operand.toNat)
  | .js, .label => .ok (.js operand.toNat)
  | .jnz, .label => .ok (.jnz operand.toNat)
  | _, _ => .error .illegalMode

/-- The legal modes of a mnemonic: the table of rule R86. -/
def legalModes : Mnemonic → List Mode
  | .hlt | .inv | .push | .pop | .ret => [.noArg]
  | .add | .sub | .mul | .div | .cmp => [.abs, .imm, .var]
  | .ld | .st => [.abs, .imm, .var, .input, .output]
  | .jmp | .jz | .js | .jnz => [.label]
  | .call => [.func]

/-- The modes without payload, whose operand field must be zero (R85). -/
def Mode.isBare : Mode → Bool
  | .noArg | .input | .output => true
  | .abs | .imm | .var | .label | .func => false

/-- The `opcode` field, bits 39:35 (R82). -/
def opcodeField (w : Word40) : BitVec 5 := w.extractLsb' 35 5

/-- The `mode` field, bits 34:32 (R82). -/
def modeField (w : Word40) : BitVec 3 := w.extractLsb' 32 3

/-- The `operand` field, bits 31:0 (R82). -/
def operandField (w : Word40) : BitVec 32 := w.extractLsb' 0 32

/-- `decode(word)` (R89): total on 40-bit words, an illegal word is rejected by name (R87). -/
def decode (w : Word40) : Except DecodeError Instr :=
  match mnemonicOf (opcodeField w) with
  | none => .error .reservedOpcode
  | some m => assemble m (modeOf (modeField w)) (operandField w)

/-- `opcode ++ mode ++ operand` (R82). -/
def pack (m : Mnemonic) (mode : Mode) (operand : BitVec 32) : Word40 :=
  opcodeOf m ++ modeNumber mode ++ operand

/-- The word of an instruction (R82 to R86). -/
def encode : Instr → Word40
  | .hlt => pack .hlt .noArg 0
  | .addAbs n => pack .add .abs (Word.ofNat n)
  | .addImm k => pack .add .imm (Word.ofInt k)
  | .addVar v => pack .add .var (Word.ofNat v)
  | .subAbs n => pack .sub .abs (Word.ofNat n)
  | .subImm k => pack .sub .imm (Word.ofInt k)
  | .subVar v => pack .sub .var (Word.ofNat v)
  | .mulAbs n => pack .mul .abs (Word.ofNat n)
  | .mulImm k => pack .mul .imm (Word.ofInt k)
  | .mulVar v => pack .mul .var (Word.ofNat v)
  | .divAbs n => pack .div .abs (Word.ofNat n)
  | .divImm k => pack .div .imm (Word.ofInt k)
  | .divVar v => pack .div .var (Word.ofNat v)
  | .inv => pack .inv .noArg 0
  | .cmpAbs n => pack .cmp .abs (Word.ofNat n)
  | .cmpImm k => pack .cmp .imm (Word.ofInt k)
  | .cmpVar v => pack .cmp .var (Word.ofNat v)
  | .ldAbs n => pack .ld .abs (Word.ofNat n)
  | .ldImm k => pack .ld .imm (Word.ofInt k)
  | .ldVar v => pack .ld .var (Word.ofNat v)
  | .ldInput => pack .ld .input 0
  | .ldOutput => pack .ld .output 0
  | .stAbs n => pack .st .abs (Word.ofNat n)
  | .stImm k => pack .st .imm (Word.ofInt k)
  | .stVar v => pack .st .var (Word.ofNat v)
  | .stInput => pack .st .input 0
  | .stOutput => pack .st .output 0
  | .push => pack .push .noArg 0
  | .pop => pack .pop .noArg 0
  | .jmp l => pack .jmp .label (Word.ofNat l)
  | .call f => pack .call .func (Word.ofNat f)
  | .ret => pack .ret .noArg 0
  | .jz l => pack .jz .label (Word.ofNat l)
  | .js l => pack .js .label (Word.ofNat l)
  | .jnz l => pack .jnz .label (Word.ofNat l)

/-- The word of five bytes, most significant first (R95). -/
def wordOfBytes (b0 b1 b2 b3 b4 : BitVec 8) : Word40 := b0 ++ b1 ++ b2 ++ b3 ++ b4

/-- The serial form of a word: five bytes, most significant first (R95). -/
def bytesOfWord (w : Word40) : List (BitVec 8) :=
  [w.extractLsb' 32 8, w.extractLsb' 24 8, w.extractLsb' 16 8, w.extractLsb' 8 8, w.extractLsb' 0 8]

/-- The serial form of an instruction (R95). -/
def encodeBytes (i : Instr) : List (BitVec 8) := bytesOfWord (encode i)

/-- Decodes a serial code image; word `i` of the image is `Code[i]` (R95). DESIGN CHOICE (log 30): the spec says nothing
of a byte image whose length is no multiple of five, and the model rejects it as `badLength`. -/
def decodeImage : List (BitVec 8) → Except DecodeError (List Instr)
  | [] => .ok []
  | b0 :: b1 :: b2 :: b3 :: b4 :: rest =>
    match decode (wordOfBytes b0 b1 b2 b3 b4) with
    | .error e => .error e
    | .ok i =>
      match decodeImage rest with
      | .error e => .error e
      | .ok is => .ok (i :: is)
  | _ :: _ => .error .badLength

/-- Decodes an image given as words: `Code[a] = decode(word_a)` (R272). -/
def decodeWords : List Word40 → Except DecodeError (List Instr)
  | [] => .ok []
  | w :: rest =>
    match decode w with
    | .error e => .error e
    | .ok i =>
      match decodeWords rest with
      | .error e => .error e
      | .ok is => .ok (i :: is)

/-- Decodes the instruction whose bits are `w` as opcode_table.json numbers them: the table's one word is the
whole 40-bit word, bit 0 its least significant bit (R82; log 21). Bits of `w` from `nbits` up are zero. -/
def decodeNumbered (nbits w : Nat) : Except DecodeError Instr :=
  let v := w % 2 ^ nbits
  if v < 2 ^ 40 then decode (BitVec.ofNat 40 v) else .error .badLength

/-- The instruction the decoder reads from a table word, for the host. -/
def decodeTableWord (nbits w : Nat) : Option Instr :=
  match decodeNumbered nbits w with
  | .ok i => some i
  | .error _ => none

end Sys2Proof
end

