-- ==== Sys2Proof/Config.lean ====
section
/-!
DEFINITION. The values this hardware gives the parameters of rule R5 (00_scope.md): the stated ones, the OPEN ones as
opaque constants; the policies; and the free values of hidden state. A machine reads its parameters from
`Machine.Params`, whose instance for this hardware has these values.
-/
namespace Sys2Proof.Config

/-- `MEM_SIZE`, the number of cells of main memory (R5). -/
def memSize : Nat := 1024

/-- `STACK_DEPTH`, the number of slots of the value stack (R5). -/
def stackDepth : Nat := 1024

/-- `SP_INIT`, the reset value of SP: one past the last slot (R5, R23; log 5). -/
def spInit : Word := Word.ofNat stackDepth

/-- `INPUT_BASE = floor(MEM_SIZE*3/4) - 1`, the first staged-input cell and the reset value of INCUR (R5, R34). -/
def inputBase : Nat := memSize * 3 / 4 - 1

/-- `CELL_DEFAULT`, the value field of a cell nothing has written (R5, R30; log 2). -/
def cellDefault : Word := 0

/-- `STACK_DEFAULT`, the content of a stack slot nothing has written (R5, R32; log 3). -/
def stackDefault : Word := 0

/-- `ENTRY_IP`, the reset value of IP (R5, R25; log 5). -/
def entryIp : Word := 0

/-- `MAX_STEPS`, the optional ceiling on executed instructions: none (R5, R146; log 27). -/
def maxSteps : Option Nat := none

/-- `CTX_DEPTH`, the capacity of the call-context stack: unbounded (R5, R35, D27; log 19). -/
def ctxDepth : Option Nat := none

/-- `OUT_CAPACITY`, OPEN (R5, R33, D20): nothing is known of it (log 9). -/
opaque outCapacity : Nat

/-- `ENC`, the external character encoding, OPEN (R5, R63, D21; log 10). -/
opaque enc : Char → Word

/-- `DEC`, its partial inverse, used only to render a result, OPEN (R5, R145, D21; log 10). -/
opaque dec : Word → Option Char

/-- `ENC_EMPTY`, the code of the empty quote pair, OPEN (R5, R63; log 10). -/
opaque encEmpty : Word

/-- `NARROW` where its instance is left open (R120, U6): any function at all (log 8). -/
opaque narrowOpen : Int → Word

/-- How POP and RET move SP (R5 `POP_POLICY`, R202, D19). -/
inductive PopPolicy where
  /-- `SP <- SP - 1`, the default: the source's literal behaviour. -/
  | literal
  /-- `SP <- SP + 1`. -/
  | corrected
  deriving DecidableEq, Repr

/-- The value of add and subtract on negative overflow: the pair `(fold_add_neg, fold_sub_neg)` of D14 (U5). -/
inductive FoldPolicy where
  /-- The literal reading of rules R112 and R114, the default. -/
  | literal
  /-- The alternative instance of D14, two's-complement wrap-around. -/
  | wrap
  deriving DecidableEq, Repr

/-- What MUL, DIV and INV deliver for a result outside `int32` (R120, U6). -/
inductive NarrowPolicy where
  /-- `NARROW = wrap32`, the default (R5, D15). -/
  | wrap32
  /-- An unknown instance, `Config.narrowOpen`. -/
  | opened
  deriving DecidableEq, Repr

/-- The uses of the ALU that are not instructions' own operations and that the spec leaves to the
implementation (R123, N24). -/
inductive InternalUse where
  | ipIncrement
  | spMove
  deriving DecidableEq, Repr

/-- FREE VALUE: the hidden flag byte after an internal use of the ALU, which no rule states and nothing
reads (R38, R123, N24; log 16). -/
opaque internalAluFlags : InternalUse → Nat → BitVec 4

/-- FREE VALUE: how many micro-steps a step takes beyond the two of its fetch (R39, R277, N20; log 15). -/
opaque extraTicks : Nat → Nat

end Sys2Proof.Config
end

