-- ==== Sys2Proof/Machine/State.lean ====
section
/-!
DEFINITION. The state of the machine as plain data (10_state.md R20), its value after reset (R41, R270), the
faults (60_exceptions.md R241) and the refusals.
-/
namespace Sys2Proof.Machine

/-- The fault kinds (R241). Every fault is fatal (R240): the step ends with `Host.Outcome.fault`, which stands
for RUN = Faulted(K). Stopping is what the spec says, so each is safe. -/
inductive Fault where
  /-- Code 1: a memory address, stack index, input cursor or output cursor outside its array; raised by operands
  and stores with mode ABS, LD INPUT, ST OUTPUT, PUSH, POP, CALL, RET, fetch and the load (R242). -/
  | addressOutOfRange
  /-- Code 2: a VAR argument names no declared variable (R243). -/
  | undefinedVariable
  /-- Code 3: the label is not in the current function's table; JMP and taken JZ, JS, JNZ (R244). -/
  | undefinedLabel
  /-- Code 4: the callee is not declared or has no `self`; CALL (R245). -/
  | undefinedFunction
  /-- Code 5: LD OUTPUT, ST INPUT, ST with an immediate (R246). -/
  | invalidInstructionUsage
  /-- Code 6: an integer variable's literal is outside int32; only the load raises it (R241, R273). -/
  | variableRangeError
  /-- Code 7: DIV by zero (R247). -/
  | divisionByZero
  /-- Code 8: fetch from a cell that holds no instruction (R248). -/
  | noInstruction
  /-- Code 9: RET or a taken jump with an empty call-context stack (R249). -/
  | contextUnderflow
  /-- Code 10: a code word of a binary image is illegal; only the load raises it (R241, R273). -/
  | illegalEncoding
  deriving DecidableEq, Repr

/-- Why a step has no meaning. -/
inductive Refusal where
  /-- The instruction has no meaning yet: raised by an arm of `exec` only. Safe. -/
  | notModelled (mnemonic : String)
  /-- A step from `Halted` or `Faulted(K)`: the spec defines none (R36, R140). Raised by `step` only. Safe: the
  run has ended (log 14). -/
  | runEnded
  deriving DecidableEq, Repr

/-- RUN, the run status (R36). -/
inductive RunStatus where
  | running
  | halted
  /-- `Faulted(K)`: set by the run loop (Machine/Run.lean) from a step that ends in a fault (R9; log 13). -/
  | faulted (kind : Fault)
  deriving DecidableEq, Repr

/-- Main memory: the cells `0 .. MEM_SIZE-1`, each an int32 value field and an optional instruction field
(R30). Both lists are sparse, by strictly rising address; a cell not listed in `vals` holds `CELL_DEFAULT`, and
one not listed in `instrs` holds no instruction (log 1, log 2). -/
structure Memory where
  vals : List (Nat × Word)
  instrs : List (Nat × Instr)
  deriving DecidableEq, Repr

/-- The tables of the program object that a step reads: `Funcs`, from function number to label table, and
`VarAddr`, the address of variable number `k` at position `k` (R40, R75, R94). -/
structure Tables where
  funcs : List (Nat × List (Nat × Word))
  varAddr : List Nat
  deriving DecidableEq, Repr

/-- The parameters of the machine (R5), each a field, so that a claim can name the instance it assumes. `ENC`, `DEC`,
`ENC_EMPTY` and an open `NARROW`, of which nothing is known, are the opaque constants of Config.lean (log 8, log 10). -/
structure Params where
  /-- `MEM_SIZE`. -/
  memSize : Nat
  /-- `STACK_DEPTH`. -/
  stackDepth : Nat
  /-- `SP_INIT`, the reset value of SP (D9). -/
  spInit : Word
  /-- `INPUT_BASE`, the reset value of INCUR. -/
  inputBase : Nat
  /-- `POP_POLICY` (D19; log 6). -/
  popPolicy : Config.PopPolicy
  /-- `CELL_DEFAULT` (D10; log 2). -/
  cellDefault : Word
  /-- `STACK_DEFAULT` (D10; log 3). -/
  stackDefault : Word
  /-- `ENTRY_IP`, the reset value of IP (D38). -/
  entryIp : Word
  /-- `OUT_CAPACITY` (log 9). -/
  outCapacity : Nat
  /-- The fold of add and subtract on negative overflow (D14; log 7). -/
  foldPolicy : Config.FoldPolicy
  /-- `NARROW` (D15; log 8). -/
  narrowPolicy : Config.NarrowPolicy
  /-- `MAX_STEPS`, none for no ceiling; read by the run loop only (R146; log 27). -/
  maxSteps : Option Nat
  /-- `CTX_DEPTH`, none for unbounded (D27; log 19). -/
  ctxDepth : Option Nat
  deriving DecidableEq, Repr

/-- The parameters of this hardware: the values of rule R5. -/
def Params.hardware : Params where
  memSize := Config.memSize
  stackDepth := Config.stackDepth
  spInit := Config.spInit
  inputBase := Config.inputBase
  popPolicy := .literal
  cellDefault := Config.cellDefault
  stackDefault := Config.stackDefault
  entryIp := Config.entryIp
  outCapacity := Config.outCapacity
  foldPolicy := .literal
  narrowPolicy := .wrap32
  maxSteps := Config.maxSteps
  ctxDepth := Config.ctxDepth

/-- Which parameters make a machine whose indices are `int32` and whose reset state is in range: the sizes fit, SP starts
within the stack, the input region starts within memory, and CTX can hold `_START` (log 31). -/
def Params.wf (p : Params) : Bool :=
  decide (0 < p.memSize ∧ p.memSize ≤ 2147483648 ∧ p.stackDepth ≤ 2147483647 ∧ -1 ≤ p.spInit.toInt ∧
    p.spInit.toInt ≤ p.stackDepth ∧ p.inputBase ≤ p.memSize ∧ p.ctxDepth ≠ some 0)

/-- The state of the machine (R20). -/
structure State where
  /-- AC, the accumulator (R21). -/
  ac : Word
  /-- BR, the holding register of CALL and RET (R22). -/
  br : Word
  /-- SP, the stack pointer, an index into the value stack (R23). -/
  sp : Word
  /-- PS, the processor status, N=1, Z=2, V=4, C=8 (R24). -/
  ps : Word
  /-- IP, the instruction pointer (R25). -/
  ip : Word
  /-- AR, the address register, diagnostic (R26). -/
  ar : Word
  /-- IR, the fetched instruction, or none before the first fetch (R27). -/
  ir : Option Instr
  /-- Main memory (R30). -/
  mem : Memory
  /-- The value stack, sparse like `Memory.vals` (R32): a slot not listed holds `STACK_DEFAULT`. -/
  stack : List (Nat × Word)
  /-- The written slots `Out[0 .. OUTCUR-1]` of the output buffer; OUTCUR is the length (R33). -/
  out : List Word
  /-- INCUR, the staged-input cursor (R34). -/
  inCur : Nat
  /-- CTX, the call-context stack of function numbers, the top at the head (R35; log 19). -/
  ctx : List Nat
  /-- RUN (R36). -/
  run : RunStatus
  /-- ALU.left, hidden (R37). -/
  aluLeft : Word
  /-- ALU.right, hidden (R37). -/
  aluRight : Word
  /-- ALU.flags, hidden (R38). -/
  aluFlags : BitVec 4
  /-- TICK, hidden and diagnostic (R39): a value no claim depends on. -/
  tick : Nat
  /-- The program tables a step reads, constant during a run (R40; log 11). -/
  tables : Tables
  /-- The parameters of the machine, constant during a run (R5; log 6). -/
  cfg : Params
  deriving DecidableEq, Repr

namespace State

/-- Replaces `ac`. -/
def setAc (s : State) (v : Word) : State := { s with ac := v }

/-- Replaces `br`. -/
def setBr (s : State) (v : Word) : State := { s with br := v }

/-- Replaces `sp`. -/
def setSp (s : State) (v : Word) : State := { s with sp := v }

/-- Replaces `ps`. -/
def setPs (s : State) (v : Word) : State := { s with ps := v }

/-- Replaces `ip`. -/
def setIp (s : State) (v : Word) : State := { s with ip := v }

/-- Replaces `ar`. -/
def setAr (s : State) (v : Word) : State := { s with ar := v }

/-- Replaces `ir`. -/
def setIr (s : State) (v : Option Instr) : State := { s with ir := v }

/-- Replaces `mem`. -/
def setMem (s : State) (v : Memory) : State := { s with mem := v }

/-- Replaces `stack`. -/
def setStack (s : State) (v : List (Nat × Word)) : State := { s with stack := v }

/-- Replaces `out`. -/
def setOut (s : State) (v : List Word) : State := { s with out := v }

/-- Replaces `inCur`. -/
def setInCur (s : State) (v : Nat) : State := { s with inCur := v }

/-- Replaces `ctx`. -/
def setCtx (s : State) (v : List Nat) : State := { s with ctx := v }

/-- Replaces `run`. -/
def setRun (s : State) (v : RunStatus) : State := { s with run := v }

/-- Replaces both operand slots of the ALU. -/
def setAluSlots (s : State) (l r : Word) : State := { s with aluLeft := l, aluRight := r }

/-- Replaces `aluFlags`. -/
def setAluFlags (s : State) (v : BitVec 4) : State := { s with aluFlags := v }

/-- Replaces `tick`. -/
def setTick (s : State) (v : Nat) : State := { s with tick := v }

/-- OUTCUR, the output buffer's write cursor (R33). -/
def outCur (s : State) : Nat := s.out.length

/-- The reset state of a machine with the given parameters (R270, R41): the machine before a program is loaded. -/
def resetWith (p : Params) : State where
  ac := 0
  br := 0
  sp := p.spInit
  ps := 0
  ip := p.entryIp
  ar := 0
  ir := none
  mem := { vals := [], instrs := [] }
  stack := []
  out := []
  inCur := p.inputBase
  ctx := [0]
  run := .running
  aluLeft := 0
  aluRight := 0
  aluFlags := 0
  tick := 0
  tables := { funcs := [], varAddr := [] }
  cfg := p

/-- The reset state of this hardware (R270, R41). -/
def reset : State := resetWith Params.hardware

end State

end Sys2Proof.Machine
end

