-- ==== Sys2Proof/Machine/Flags.lean ====
section
/-!
DEFINITION. The six operations of the ALU as pure functions (40_alu.md R110 to R120) and the N, Z, V, C flag
rule (R113, R115). All arithmetic is exact on `Int` and narrowed at the end.
-/
namespace Sys2Proof.Machine

/-- `wrap32(x) = ((x + 2^31) mod 2^32) - 2^31` (00_scope.md R6). -/
def wrap32 (x : Int) : Int := (x + 2147483648) % 4294967296 - 2147483648

/-- `x & M31` for `x >= 0`, that is `x mod 2^31` (00_scope.md R6). -/
def low31 (x : Int) : Int := x % 2147483648

/-- N = 1, bit 0 of PS (R24). -/
def flagN : BitVec 4 := 1
/-- Z = 2, bit 1 of PS (R24). -/
def flagZ : BitVec 4 := 2
/-- V = 4, bit 2 of PS (R24). -/
def flagV : BitVec 4 := 4
/-- C = 8, bit 3 of PS (R24). -/
def flagC : BitVec 4 := 8

/-- The flag byte as PS holds it: bits 31 to 4 are zero (R24). -/
def psOf (f : BitVec 4) : Word := f.setWidth 32

/-- The result of add on negative overflow (R112; the second instance is D14's alternative). -/
def foldAddNeg (p : Config.FoldPolicy) (l r : Int) : Int :=
  match p with
  | .literal => low31 (-l + -r) - 1
  | .wrap => l + r + 4294967296

/-- The result of subtract on negative overflow (R114; the second instance is D14's alternative). -/
def foldSubNeg (p : Config.FoldPolicy) (l r : Int) : Int :=
  match p with
  | .literal => low31 (-l + r)
  | .wrap => l - r + 4294967296

/-- `alu_add`, result part (R112). -/
def addResult (p : Config.FoldPolicy) (l r : Word) : Word :=
  let s := l.toInt + r.toInt
  if s > intMax then Word.ofInt (intMin + low31 s)
  else if s < intMin then Word.ofInt (foldAddNeg p l.toInt r.toInt)
  else Word.ofInt s

/-- The flags of a result when no overflow was detected: Z, N or none (R113, R115). -/
def signFlags (res : Word) : BitVec 4 :=
  if res.toInt = 0 then flagZ else if res.toInt < 0 then flagN else 0

/-- `alu_add`, flag part (R113). -/
def addFlags (l r res : Word) : BitVec 4 :=
  if l.toInt > 0 ∧ r.toInt > 0 ∧ res.toInt < 0 then flagN ||| flagV ||| flagC
  else if l.toInt < 0 ∧ r.toInt < 0 ∧ res.toInt ≥ 0 then
    flagV ||| flagC ||| (if res.toInt = 0 then flagZ else 0)
  else signFlags res

/-- `alu_sub`, result part (R114). -/
def subResult (p : Config.FoldPolicy) (l r : Word) : Word :=
  let d := l.toInt - r.toInt
  if d > intMax then Word.ofInt (intMin + low31 d)
  else if d < intMin then Word.ofInt (foldSubNeg p l.toInt r.toInt)
  else Word.ofInt d

/-- `alu_sub`, flag part (R115). -/
def subFlags (l r res : Word) : BitVec 4 :=
  if l.toInt > 0 ∧ r.toInt < 0 ∧ res.toInt < 0 then flagN ||| flagV ||| flagC
  else if l.toInt < 0 ∧ r.toInt > 0 ∧ res.toInt ≥ 0 then
    flagV ||| flagC ||| (if res.toInt = 0 then flagZ else 0)
  else signFlags res

/-- `NARROW` (R120): applied only to a result outside `int32`. -/
def narrow (p : Config.NarrowPolicy) (x : Int) : Word :=
  match p with
  | .wrap32 => Word.ofInt (wrap32 x)
  | .opened => Config.narrowOpen x

/-- A result in `int32` as it is, any other through `NARROW` (R116, R117, R119). -/
def deliver (p : Config.NarrowPolicy) (x : Int) : Word :=
  if InInt32 x then Word.ofInt x else narrow p x

/-- `alu_mul` (R116). -/
def mulResult (p : Config.NarrowPolicy) (l r : Word) : Word := deliver p (l.toInt * r.toInt)

/-- The quotient of `alu_div` for a right operand that is not zero, rounded toward zero (R117). -/
def divResult (p : Config.NarrowPolicy) (l r : Word) : Word := deliver p (l.toInt.tdiv r.toInt)

/-- `alu_or`, used as a move (R118). -/
def orResult (l r : Word) : Word := l ||| r

/-- `alu_neg`, negate-sum (R119). -/
def negResult (p : Config.NarrowPolicy) (l r : Word) : Word := deliver p (-(l.toInt + r.toInt))

end Sys2Proof.Machine
end

