-- ==== Sys2Proof/Machine/Ops.lean ====
section
/-!
DEFINITION. The named operations over memory, stack, buffers and registers: the access primitives
(20_memory.md R51 to R55, R74), raising a fault (00_scope.md R9), fetch (41_fetch_dispatch_hlt.md R141) and the
call-context lookups (45_control.md R210, R212).
-/
namespace Sys2Proof.Machine

/-! ### Sparse lists by key -/

/-- The entry of a key, if one is listed. -/
def lookupKey {α : Type} (k : Nat) : List (Nat × α) → Option α
  | [] => none
  | (a, x) :: rest => if a = k then some x else lookupKey k rest

/-- Sets the entry of a key, keeping keys strictly rising. -/
def insertKey {α : Type} (k : Nat) (v : α) : List (Nat × α) → List (Nat × α)
  | [] => [(k, v)]
  | (a, x) :: rest =>
    if k < a then (k, v) :: (a, x) :: rest
    else if k = a then (k, v) :: rest
    else (a, x) :: insertKey k v rest

/-- Removes every entry of a key. -/
def removeKey {α : Type} (k : Nat) : List (Nat × α) → List (Nat × α)
  | [] => []
  | (a, x) :: rest => if a = k then removeKey k rest else (a, x) :: removeKey k rest

/-- Every key is at least `lo` and the keys strictly rise. -/
def risingFrom {α : Type} (lo : Nat) : List (Nat × α) → Bool
  | [] => true
  | (a, _) :: rest => decide (lo ≤ a) && risingFrom (a + 1) rest

/-- A sparse array reads `d` where nothing is listed. -/
def sparseRead (d : Word) (k : Nat) (l : List (Nat × Word)) : Word := (lookupKey k l).getD d

/-- A write of a sparse array keeps the canonical form: the value that an unlisted key reads as is not listed. -/
def sparseWrite (d : Word) (k : Nat) (v : Word) (l : List (Nat × Word)) : List (Nat × Word) :=
  if v = d then removeKey k l else insertKey k v l

/-- The canonical form of a sparse array: keys strictly rising and below `size`, no default listed. -/
def sparseWf (d : Word) (size : Nat) (l : List (Nat × Word)) : Bool :=
  risingFrom 0 l && l.all fun e => decide (e.1 < size) && decide (e.2 ≠ d)

/-! ### Main memory and the value stack -/

/-- The value field of cell `a` in a memory whose unwritten cells hold `d`. -/
def Memory.value (m : Memory) (d : Word) (a : Nat) : Word := sparseRead d a m.vals

/-- Replaces the value field of cell `a` only (R52). -/
def Memory.setValue (m : Memory) (d : Word) (a : Nat) (v : Word) : Memory :=
  { m with vals := sparseWrite d a v m.vals }

/-- `Mem[a].instr` (R30). -/
def Memory.instr (m : Memory) (a : Nat) : Option Instr := lookupKey a m.instrs

/-- Replaces the instruction field of cell `a` only: the load's and the host's alone (R31, R272). -/
def Memory.setInstr (m : Memory) (a : Nat) (i : Option Instr) : Memory :=
  match i with
  | some i => { m with instrs := insertKey a i m.instrs }
  | none => { m with instrs := removeKey a m.instrs }

/-- The canonical form of a memory of `size` cells whose unwritten cells hold `d`: both lists canonical, within the
size, every instruction well-formed. -/
def Memory.wf (m : Memory) (d : Word) (size : Nat) : Bool :=
  sparseWf d size m.vals && (risingFrom 0 m.instrs && m.instrs.all fun e => decide (e.1 < size) && e.2.wf)

/-- `Mem[a].value` (R30). -/
def cellValue (a : Nat) (s : State) : Word := s.mem.value s.cfg.cellDefault a

/-- The canonical form of main memory. -/
def memoryWf (s : State) : Bool := s.mem.wf s.cfg.cellDefault s.cfg.memSize

/-- `Stack[i]` (R32). -/
def stackSlot (i : Nat) (s : State) : Word := sparseRead s.cfg.stackDefault i s.stack

/-- The canonical form of the value stack. -/
def stackWf (s : State) : Bool := sparseWf s.cfg.stackDefault s.cfg.stackDepth s.stack

/-! ### Faults -/

/-- `raise K` (R9): no later statement of the instruction runs. There is no trap entry: nothing is saved, no
mode changes, control goes nowhere, and there is no return (R240, R253, R254). The outcome is
`Host.Outcome.fault K`, the terminal status Faulted(K) (log 13). -/
def raise {α : Type} (k : Fault) : Except Fault α := .error k

/-- The outcome of an instruction from its pseudocode's end. -/
def finish (r : Except Fault State) : Host.Outcome State Fault Refusal :=
  match r with
  | .ok s => .next s
  | .error k => .fault k

/-- The code of a fault kind (R241). -/
def Fault.code : Fault → Nat
  | .addressOutOfRange => 1
  | .undefinedVariable => 2
  | .undefinedLabel => 3
  | .undefinedFunction => 4
  | .invalidInstructionUsage => 5
  | .variableRangeError => 6
  | .divisionByZero => 7
  | .noInstruction => 8
  | .contextUnderflow => 9
  | .illegalEncoding => 10

/-! ### Access primitives -/

/-- The integer is a cell address (R50). -/
def inMem (p : Params) (a : Int) : Bool := decide (0 ≤ a ∧ a < (p.memSize : Int))

/-- The integer is a stack index (R50). -/
def inStack (p : Params) (i : Int) : Bool := decide (0 ≤ i ∧ i < (p.stackDepth : Int))

/-- `MemRead(a, 1)` (R51). -/
def memRead (a : Int) (s : State) : Except Fault Word :=
  if inMem s.cfg a then .ok (cellValue a.toNat s) else raise .addressOutOfRange

/-- `MemWrite(a, 1, v)` (R52). -/
def memWrite (a : Int) (v : Word) (s : State) : Except Fault State :=
  if inMem s.cfg a then .ok (s.setMem (s.mem.setValue s.cfg.cellDefault a.toNat v)) else raise .addressOutOfRange

/-- `InstrAt(a)` (R53). -/
def instrAt (a : Int) (s : State) : Except Fault Instr :=
  if inMem s.cfg a then
    match s.mem.instr a.toNat with
    | none => raise .noInstruction
    | some i => .ok i
  else raise .addressOutOfRange

/-- `StackRead(i)` (R54). -/
def stackRead (i : Int) (s : State) : Except Fault Word :=
  if inStack s.cfg i then .ok (stackSlot i.toNat s) else raise .addressOutOfRange

/-- `StackWrite(i, v)` (R54). -/
def stackWrite (i : Int) (v : Word) (s : State) : Except Fault State :=
  if inStack s.cfg i then .ok (s.setStack (sparseWrite s.cfg.stackDefault i.toNat v s.stack))
  else raise .addressOutOfRange

/-- `OutAppend(v)` (R55). -/
def outAppend (v : Word) (s : State) : Except Fault State :=
  if s.outCur < s.cfg.outCapacity then .ok (s.setOut (s.out ++ [v])) else raise .addressOutOfRange

/-- `InputRead()` (R74): the value at the cursor, and the state with AR at the cursor and the cursor advanced. -/
def inputRead (s : State) : Except Fault (Word × State) :=
  if inMem s.cfg s.inCur then
    .ok (cellValue s.inCur s, (s.setAr (Word.ofNat s.inCur)).setInCur (s.inCur + 1))
  else raise .addressOutOfRange

/-! ### Hidden state -/

/-- An internal use of the ALU leaves the hidden flag byte at a free value (R123, N24; log 16). -/
def internalUse (u : Config.InternalUse) (s : State) : State :=
  s.setAluFlags (Config.internalAluFlags u s.tick)

/-- The micro-steps of one step: two of the fetch and a free number more (R39, R141, R277; log 15). -/
def advanceTick (s : State) : State := s.setTick (s.tick + 2 + Config.extraTicks s.tick)

/-! ### Fetch -/

/-- `AR <- IP ; IP <- IP + 1 ; IR <- i`, with the hidden effects of a fetch (R141). -/
def fetched (i : Instr) (s : State) : State :=
  advanceTick ((internalUse .ipIncrement ((s.setAr s.ip).setIp (s.ip + 1))).setIr (some i))

/-- `Fetch` (R141): the instruction at the old IP, and the state in which it executes. -/
def fetch (s : State) : Except Fault (Instr × State) :=
  match instrAt s.ip.toInt s with
  | .error k => .error k
  | .ok i => .ok (i, fetched i s)

/-! ### Program tables and the call-context stack -/

/-- `VarAddr(v)` (R75). -/
def varAddrOf (v : Nat) (s : State) : Option Nat := s.tables.varAddr[v]?

/-- `Funcs(f)(l)` (R40 (b)). -/
def labelAddrOf (f l : Nat) (s : State) : Option Word :=
  match lookupKey f s.tables.funcs with
  | none => none
  | some labels => lookupKey l labels

/-- The label number of `self` (R94). -/
def selfLabel : Nat := 0

/-- CTX has room for one more name: always, when `CTX_DEPTH` is unbounded (R35, D27; log 19). -/
def ctxHasRoom (s : State) : Bool :=
  match s.cfg.ctxDepth with
  | none => true
  | some d => decide (s.ctx.length < d)

/-- `push(CTX, f)` (R8): a full call-context stack raises (log 19). -/
def ctxPush (f : Nat) (s : State) : Except Fault State :=
  if ctxHasRoom s then .ok (s.setCtx (f :: s.ctx)) else raise .addressOutOfRange

/-- `Funcs(f)(self)`, the entry of a function (R40 (b), R94). -/
def entryOf (f : Nat) (s : State) : Option Word := labelAddrOf f selfLabel s

/-! ### Placing an instruction -/

/-- Puts an instruction, or none, in the cell that the next fetch reads, where IP is a cell address (log 18). -/
def placeAtIp (i : Option Instr) (s : State) : State :=
  if inMem s.cfg s.ip.toInt then s.setMem (s.mem.setInstr s.ip.toInt.toNat i) else s

end Sys2Proof.Machine
end

