-- ==== Sys2Proof/Machine/Alu.lean ====
section
/-!
DEFINITION. The ALU as the instructions use it (40_alu.md R110): an operation is supplied both operand slots,
reads them, and leaves them zero; add and subtract replace the flag byte, the other four leave it.
-/
namespace Sys2Proof.Machine

/-- Supplies the two operand slots (R37, R110). -/
def aluSupply (l r : Word) (s : State) : State := s.setAluSlots l r

/-- An operation consumes the slots: both are zero afterwards (R37, R110). -/
def aluConsume (s : State) : State := s.setAluSlots 0 0

/-- `alu_add` (R112, R113). -/
def aluAdd (l r : Word) (s : State) : Word × State :=
  let a := aluSupply l r s
  let res := addResult a.cfg.foldPolicy a.aluLeft a.aluRight
  (res, (aluConsume a).setAluFlags (addFlags a.aluLeft a.aluRight res))

/-- `alu_sub` (R114, R115). -/
def aluSub (l r : Word) (s : State) : Word × State :=
  let a := aluSupply l r s
  let res := subResult a.cfg.foldPolicy a.aluLeft a.aluRight
  (res, (aluConsume a).setAluFlags (subFlags a.aluLeft a.aluRight res))

/-- `alu_mul` (R116). -/
def aluMul (l r : Word) (s : State) : Word × State :=
  let a := aluSupply l r s
  (mulResult a.cfg.narrowPolicy a.aluLeft a.aluRight, aluConsume a)

/-- `alu_div` (R117). -/
def aluDiv (l r : Word) (s : State) : Except Fault (Word × State) :=
  let a := aluSupply l r s
  if a.aluRight = 0 then raise .divisionByZero
  else .ok (divResult a.cfg.narrowPolicy a.aluLeft a.aluRight, aluConsume a)

/-- `alu_neg` (R119). -/
def aluNeg (l r : Word) (s : State) : Word × State :=
  let a := aluSupply l r s
  (negResult a.cfg.narrowPolicy a.aluLeft a.aluRight, aluConsume a)

/-- `alu_or` with a zero operand: a move (R118). -/
def aluMove (v : Word) (s : State) : Word × State :=
  let a := aluSupply v 0 s
  (orResult a.aluLeft a.aluRight, aluConsume a)

/-- `PS <- flags`: PS takes the flag byte that add or subtract has just left (R38, R123). -/
def copyFlags (s : State) : State := s.setPs (psOf s.aluFlags)

/-- `BR <- AC` (R118, R212, R213). -/
def moveAcToBr (s : State) : State := let m := aluMove s.ac s; m.2.setBr m.1

/-- `AC <- IP` (R118, R212). -/
def moveIpToAc (s : State) : State := let m := aluMove s.ip s; m.2.setAc m.1

/-- `IP <- AC` (R118, R213). -/
def moveAcToIp (s : State) : State := let m := aluMove s.ac s; m.2.setIp m.1

/-- `AC <- BR` (R118, R212, R213). -/
def moveBrToAc (s : State) : State := let m := aluMove s.br s; m.2.setAc m.1

end Sys2Proof.Machine
end

