-- ==== Sys2Proof/Machine/Stack.lean ====
section
/-!
DEFINITION. The stack instructions PUSH and POP and the two primitives CALL and RET share (44_stack.md R200 to
R203).
-/
namespace Sys2Proof.Machine

/-- `DoPush` (R200): the decrement comes first. -/
def doPush (s : State) : Except Fault State :=
  let t := internalUse .spMove (s.setSp (s.sp - 1))
  stackWrite t.sp.toInt t.ac t

/-- How POP moves SP (R202 `POP_POLICY`; log 6). -/
def poppedSp (p : Config.PopPolicy) (sp : Word) : Word :=
  match p with
  | .literal => sp - 1
  | .corrected => sp + 1

/-- `DoPop` (R202): the read comes first, at the current SP; the slot is not cleared (R203). -/
def doPop (s : State) : Except Fault State :=
  match stackRead s.sp.toInt s with
  | .error k => .error k
  | .ok v => .ok (internalUse .spMove ((s.setAc v).setSp (poppedSp s.cfg.popPolicy s.sp)))

/-- PUSH (R201). -/
def execPush (s : State) : Host.Outcome State Fault Refusal := finish (doPush s)

/-- POP (R203). -/
def execPop (s : State) : Host.Outcome State Fault Refusal := finish (doPop s)

end Sys2Proof.Machine
end

