-- ==== Sys2Proof/Machine/Control.lean ====
section
/-!
DEFINITION. The control instructions JMP, CALL, RET, JZ, JS, JNZ (45_control.md R210 to R216).
-/
namespace Sys2Proof.Machine

/-- `JumpTo(l)` (R210): the label is looked up in the table of the current function, at execution. -/
def jumpTo (l : Nat) (s : State) : Except Fault State :=
  match s.ctx with
  | [] => raise .contextUnderflow
  | f :: _ =>
    match labelAddrOf f l s with
    | none => raise .undefinedLabel
    | some a => .ok (s.setIp a)

/-- The test of JZ: `(PS & 2) != 0 and PS != 0` (R214). -/
def takenJz (ps : Word) : Bool := decide (ps &&& psOf flagZ ≠ 0) && decide (ps ≠ 0)

/-- The test of JS: `(PS & 1) != 0 and PS != 0` (R215). -/
def takenJs (ps : Word) : Bool := decide (ps &&& psOf flagN ≠ 0) && decide (ps ≠ 0)

/-- The test of JNZ: `PS != 2`, the literal comparison (R216). -/
def takenJnz (ps : Word) : Bool := decide (ps ≠ psOf flagZ)

/-- A conditional jump: when not taken, the label is not looked up and IP keeps its value (R214, D25). -/
def jumpIf (taken : Bool) (l : Nat) (s : State) : Except Fault State :=
  if taken then jumpTo l s else .ok s

/-- CALL (R212). -/
def callFunc (f : Nat) (s : State) : Except Fault State :=
  match entryOf f s with
  | none => raise .undefinedFunction
  | some e =>
    match doPush (moveIpToAc (moveAcToBr s)) with
    | .error k => .error k
    | .ok t =>
      match ctxPush f (t.setIp e) with
      | .error k => .error k
      | .ok u => .ok (moveBrToAc u)

/-- RET (R213). -/
def returnFunc (s : State) : Except Fault State :=
  match s.ctx with
  | [] => raise .contextUnderflow
  | _ :: rest =>
    match doPop (moveAcToBr s) with
    | .error k => .error k
    | .ok t => .ok (moveBrToAc (moveAcToIp (t.setCtx rest)))

/-- JMP (R211). -/
def execJmp (l : Nat) (s : State) : Host.Outcome State Fault Refusal := finish (jumpTo l s)
/-- CALL (R212). -/
def execCall (f : Nat) (s : State) : Host.Outcome State Fault Refusal := finish (callFunc f s)
/-- RET (R213). -/
def execRet (s : State) : Host.Outcome State Fault Refusal := finish (returnFunc s)
/-- JZ (R214). -/
def execJz (l : Nat) (s : State) : Host.Outcome State Fault Refusal := finish (jumpIf (takenJz s.ps) l s)
/-- JS (R215). -/
def execJs (l : Nat) (s : State) : Host.Outcome State Fault Refusal := finish (jumpIf (takenJs s.ps) l s)
/-- JNZ (R216). -/
def execJnz (l : Nat) (s : State) : Host.Outcome State Fault Refusal := finish (jumpIf (takenJnz s.ps) l s)

end Sys2Proof.Machine
end

