-- ==== Sys2Proof/Machine/Operands.lean ====
section
/-!
DEFINITION. Operand resolution, the addressing modes (20_memory.md R60 to R66), and the store target (R65).
-/
namespace Sys2Proof.Machine

/-- The four operand forms (R60); CHAR carries a character, or none for the empty quote pair. -/
inductive Operand where
  | abs (n : Nat)
  | imm (k : Int)
  | char (c : Option Char)
  | var (v : Nat)
  deriving DecidableEq, Repr

/-- The code of a character argument (R63): `ENC(c)`, or `ENC_EMPTY` for the empty quote pair. -/
def charCode : Option Char → Word
  | some c => Config.enc c
  | none => Config.encEmpty

/-- Routes an address: `AR <- a`, then the read (R61, R64). -/
def readAt (a : Nat) (s : State) : Except Fault (Word × State) :=
  match memRead a s with
  | .error k => .error k
  | .ok v => .ok (v, s.setAr (Word.ofNat a))

/-- `Operand(mode, x)` (R60 to R64): the operand value and the state after resolution. -/
def resolve (o : Operand) (s : State) : Except Fault (Word × State) :=
  match o with
  | .abs n => readAt n s
  | .imm k => .ok (Word.ofInt k, s)
  | .char c => .ok (charCode c, s)
  | .var v =>
    match varAddrOf v s with
    | none => raise .undefinedVariable
    | some a => readAt a s

/-- The two store targets of ST (R65). -/
inductive StoreTarget where
  | abs (n : Nat)
  | var (v : Nat)
  deriving DecidableEq, Repr

/-- `Target(mode, x)` (R65): the address, not dereferenced. -/
def targetAddr (t : StoreTarget) (s : State) : Except Fault Nat :=
  match t with
  | .abs n => .ok n
  | .var v =>
    match varAddrOf v s with
    | none => raise .undefinedVariable
    | some a => .ok a

end Sys2Proof.Machine
end

