-- ==== Sys2Proof/Machine/Data.lean ====
section
/-!
DEFINITION. The data instructions LD and ST, input and output (43_data.md R180 to R186).
-/
namespace Sys2Proof.Machine

/-- LD over any operand form (R180). -/
def loadWith (o : Operand) (s : State) : Except Fault State :=
  match resolve o s with
  | .error k => .error k
  | .ok (v, s) => .ok (s.setAc v)

/-- ST to memory (R183): `AR <- a`, then the write of AC. -/
def storeTo (t : StoreTarget) (s : State) : Except Fault State :=
  match targetAddr t s with
  | .error k => .error k
  | .ok a => memWrite a s.ac (s.setAr (Word.ofNat a))

/-- LD n (R180). -/
def execLdAbs (n : Nat) (s : State) : Host.Outcome State Fault Refusal := finish (loadWith (.abs n) s)
/-- LD #k (R180). -/
def execLdImm (k : Int) (s : State) : Host.Outcome State Fault Refusal := finish (loadWith (.imm k) s)
/-- LD name (R180). -/
def execLdVar (v : Nat) (s : State) : Host.Outcome State Fault Refusal := finish (loadWith (.var v) s)

/-- LD INPUT (R181). -/
def execLdInput (s : State) : Host.Outcome State Fault Refusal :=
  match inputRead s with
  | .error k => finish (.error k)
  | .ok (v, s) => finish (.ok (s.setAc v))

/-- LD OUTPUT (R182): the output buffer cannot be read, on every path InvalidInstructionUsage. -/
def execLdOutput (_ : State) : Host.Outcome State Fault Refusal := finish (raise .invalidInstructionUsage)

/-- ST n (R183). -/
def execStAbs (n : Nat) (s : State) : Host.Outcome State Fault Refusal := finish (storeTo (.abs n) s)
/-- ST name (R183). -/
def execStVar (v : Nat) (s : State) : Host.Outcome State Fault Refusal := finish (storeTo (.var v) s)

/-- ST #k (R186): on every path InvalidInstructionUsage. -/
def execStImm (_ : Int) (_ : State) : Host.Outcome State Fault Refusal := finish (raise .invalidInstructionUsage)

/-- ST INPUT (R185): on every path InvalidInstructionUsage. -/
def execStInput (_ : State) : Host.Outcome State Fault Refusal := finish (raise .invalidInstructionUsage)

/-- ST OUTPUT (R184). -/
def execStOutput (s : State) : Host.Outcome State Fault Refusal := finish (outAppend s.ac s)

end Sys2Proof.Machine
end

