-- ==== Sys2Proof/Machine/Math.lean ====
section
/-!
DEFINITION. The math instructions ADD, SUB, MUL, DIV, INV, CMP (42_math.md R160 to R166). AC is the left operand
and the resolved operand the right one (R160).
-/
namespace Sys2Proof.Machine

/-- ADD over any operand form (R161). -/
def addWith (o : Operand) (s : State) : Except Fault State :=
  match resolve o s with
  | .error k => .error k
  | .ok (v, s) =>
    let (res, s) := aluAdd s.ac v s
    .ok (copyFlags (s.setAc res))

/-- SUB over any operand form (R162). -/
def subWith (o : Operand) (s : State) : Except Fault State :=
  match resolve o s with
  | .error k => .error k
  | .ok (v, s) =>
    let (res, s) := aluSub s.ac v s
    .ok (copyFlags (s.setAc res))

/-- MUL over any operand form (R163). -/
def mulWith (o : Operand) (s : State) : Except Fault State :=
  match resolve o s with
  | .error k => .error k
  | .ok (v, s) =>
    let (res, s) := aluMul s.ac v s
    .ok (s.setAc res)

/-- DIV over any operand form (R164). -/
def divWith (o : Operand) (s : State) : Except Fault State :=
  match resolve o s with
  | .error k => .error k
  | .ok (v, s) =>
    match aluDiv s.ac v s with
    | .error k => .error k
    | .ok (res, s) => .ok (s.setAc res)

/-- CMP over any operand form: the result is discarded (R166). -/
def cmpWith (o : Operand) (s : State) : Except Fault State :=
  match resolve o s with
  | .error k => .error k
  | .ok (v, s) => .ok (copyFlags (aluSub s.ac v s).2)

/-- ADD n (R161). -/
def execAddAbs (n : Nat) (s : State) : Host.Outcome State Fault Refusal := finish (addWith (.abs n) s)
/-- ADD #k (R161). -/
def execAddImm (k : Int) (s : State) : Host.Outcome State Fault Refusal := finish (addWith (.imm k) s)
/-- ADD name (R161). -/
def execAddVar (v : Nat) (s : State) : Host.Outcome State Fault Refusal := finish (addWith (.var v) s)
/-- SUB n (R162). -/
def execSubAbs (n : Nat) (s : State) : Host.Outcome State Fault Refusal := finish (subWith (.abs n) s)
/-- SUB #k (R162). -/
def execSubImm (k : Int) (s : State) : Host.Outcome State Fault Refusal := finish (subWith (.imm k) s)
/-- SUB name (R162). -/
def execSubVar (v : Nat) (s : State) : Host.Outcome State Fault Refusal := finish (subWith (.var v) s)
/-- MUL n (R163). -/
def execMulAbs (n : Nat) (s : State) : Host.Outcome State Fault Refusal := finish (mulWith (.abs n) s)
/-- MUL #k (R163). -/
def execMulImm (k : Int) (s : State) : Host.Outcome State Fault Refusal := finish (mulWith (.imm k) s)
/-- MUL name (R163). -/
def execMulVar (v : Nat) (s : State) : Host.Outcome State Fault Refusal := finish (mulWith (.var v) s)
/-- DIV n (R164). -/
def execDivAbs (n : Nat) (s : State) : Host.Outcome State Fault Refusal := finish (divWith (.abs n) s)
/-- DIV #k (R164). -/
def execDivImm (k : Int) (s : State) : Host.Outcome State Fault Refusal := finish (divWith (.imm k) s)
/-- DIV name (R164). -/
def execDivVar (v : Nat) (s : State) : Host.Outcome State Fault Refusal := finish (divWith (.var v) s)
/-- CMP n (R166). -/
def execCmpAbs (n : Nat) (s : State) : Host.Outcome State Fault Refusal := finish (cmpWith (.abs n) s)
/-- CMP #k (R166). -/
def execCmpImm (k : Int) (s : State) : Host.Outcome State Fault Refusal := finish (cmpWith (.imm k) s)
/-- CMP name (R166). -/
def execCmpVar (v : Nat) (s : State) : Host.Outcome State Fault Refusal := finish (cmpWith (.var v) s)

/-- INV (R165): AC negated, PS forced to Z only. -/
def execInv (s : State) : Host.Outcome State Fault Refusal :=
  let (res, s) := aluNeg s.ac 0 s
  finish (.ok ((s.setAc res).setPs (psOf flagZ)))

end Sys2Proof.Machine
end

