-- ==== Sys2Proof/Machine/System.lean ====
section
/-!
DEFINITION. HLT, the one instruction that ends a run (41_fetch_dispatch_hlt.md R143, R147; 60_exceptions.md R255).
-/
namespace Sys2Proof.Machine

/-- HLT (R143): only RUN changes (D41). -/
def execHlt (s : State) : Host.Outcome State Fault Refusal := finish (.ok (s.setRun .halted))

end Sys2Proof.Machine
end

