-- ==== Sys2Proof/Machine/Dispatch.lean ====
section
/-!
DEFINITION. `Execute(IR)` (41_fetch_dispatch_hlt.md R142): one arm per instruction.
-/
namespace Sys2Proof.Machine

def exec (i : Instr) (s : State) : Host.Outcome State Fault Refusal :=
  match i with
  | .hlt => Sys2Proof.Machine.execHlt s
  | .addAbs n => Sys2Proof.Machine.execAddAbs n s
  | .addImm k => Sys2Proof.Machine.execAddImm k s
  | .addVar v => Sys2Proof.Machine.execAddVar v s
  | .subAbs n => Sys2Proof.Machine.execSubAbs n s
  | .subImm k => Sys2Proof.Machine.execSubImm k s
  | .subVar v => Sys2Proof.Machine.execSubVar v s
  | .mulAbs n => Sys2Proof.Machine.execMulAbs n s
  | .mulImm k => Sys2Proof.Machine.execMulImm k s
  | .mulVar v => Sys2Proof.Machine.execMulVar v s
  | .divAbs n => Sys2Proof.Machine.execDivAbs n s
  | .divImm k => Sys2Proof.Machine.execDivImm k s
  | .divVar v => Sys2Proof.Machine.execDivVar v s
  | .inv => Sys2Proof.Machine.execInv s
  | .cmpAbs n => Sys2Proof.Machine.execCmpAbs n s
  | .cmpImm k => Sys2Proof.Machine.execCmpImm k s
  | .cmpVar v => Sys2Proof.Machine.execCmpVar v s
  | .ldAbs n => Sys2Proof.Machine.execLdAbs n s
  | .ldImm k => Sys2Proof.Machine.execLdImm k s
  | .ldVar v => Sys2Proof.Machine.execLdVar v s
  | .ldInput => Sys2Proof.Machine.execLdInput s
  | .ldOutput => Sys2Proof.Machine.execLdOutput s
  | .stAbs n => Sys2Proof.Machine.execStAbs n s
  | .stImm k => Sys2Proof.Machine.execStImm k s
  | .stVar v => Sys2Proof.Machine.execStVar v s
  | .stInput => Sys2Proof.Machine.execStInput s
  | .stOutput => Sys2Proof.Machine.execStOutput s
  | .push => Sys2Proof.Machine.execPush s
  | .pop => Sys2Proof.Machine.execPop s
  | .jmp l => Sys2Proof.Machine.execJmp l s
  | .call f => Sys2Proof.Machine.execCall f s
  | .ret => Sys2Proof.Machine.execRet s
  | .jz l => Sys2Proof.Machine.execJz l s
  | .js l => Sys2Proof.Machine.execJs l s
  | .jnz l => Sys2Proof.Machine.execJnz l s

end Sys2Proof.Machine
end

