-- ==== Sys2Proof/Machine/Step.lean ====
section
/-!
DEFINITION. One step of the machine (41_fetch_dispatch_hlt.md R140): fetch, then execute.
-/
namespace Sys2Proof.Machine

/-- `Step` (R140), defined only when `RUN = Running` (R36). -/
def step (s : State) : Host.Outcome State Fault Refusal :=
  match s.run with
  | .running =>
    match fetch s with
    | .error k => .fault k
    | .ok (i, t) => exec i t
  | .halted => .refused .runEnded
  | .faulted _ => .refused .runEnded

/-- The instruction whose bits are `w`, decoded as the load decodes it, in the cell that the next fetch reads; a
word the decoder refuses leaves that cell without an instruction (R272, R273; log 18). -/
def State.withFetchWord (s : State) (nbits w : Nat) : State := placeAtIp (decodeTableWord nbits w) s

end Sys2Proof.Machine
end

