-- ==== Sys2Proof/Machine/Argument.lean ====
section
/-!
DEFINITION. The structured form of an instruction: the classification of an argument string (30_encoding.md R80,
R91, R92, R96), and its lowering to the instructions of the binary word (R94, R97).
-/
namespace Sys2Proof.Machine

/-- An argument after classification (R84): a mode and its payload, names as character sequences. -/
inductive ArgForm where
  | noArg
  | abs (n : Nat)
  | imm (k : Int)
  | char (c : Option Char)
  | var (name : List Char)
  | label (name : List Char)
  | func (name : List Char)
  | input
  | output
  deriving DecidableEq, Repr

/-- The value of a string of decimal digits, given the value of the digits before it. -/
def digitsValue : Nat → List Char → Nat
  | acc, [] => acc
  | acc, c :: cs => digitsValue (10 * acc + (c.toNat - 48)) cs

/-- Form 1 of rule R91: one or more decimal digits. -/
def natLiteral (s : List Char) : Option Nat :=
  if s ≠ [] ∧ s.all Char.isDigit = true then some (digitsValue 0 s) else none

/-- Form 2 of rule R91: a hash sign, an optional minus sign, one or more digits. -/
def immLiteral : List Char → Option Int
  | '#' :: '-' :: ds => (natLiteral ds).map fun n => -(n : Int)
  | '#' :: ds => (natLiteral ds).map fun n => (n : Int)
  | _ => none

/-- The single quote character. -/
def quoteChar : Char := Char.ofNat 39

/-- Form 3 of rule R91: a quoted character, or the empty quote pair. -/
def charLiteral : List Char → Option (Option Char)
  | [a, c, b] => if a = quoteChar ∧ b = quoteChar then some (some c) else none
  | [a, b] => if a = quoteChar ∧ b = quoteChar then some none else none
  | _ => none

/-- The four operand forms in the priority of rule R91. -/
def classifyOperand (s : List Char) : ArgForm :=
  match natLiteral s with
  | some n => .abs n
  | none =>
    match immLiteral s with
    | some k => .imm k
    | none =>
      match charLiteral s with
      | some c => .char c
      | none => .var s

/-- The reserved word INPUT (R92). -/
def inputWord : List Char := ['I', 'N', 'P', 'U', 'T']

/-- The reserved word OUTPUT (R92). -/
def outputWord : List Char := ['O', 'U', 'T', 'P', 'U', 'T']

/-- The classification of an instruction's argument (R91, R92, R96); none where a mnemonic that needs an argument
has none: that is no instruction. -/
def classify (m : Mnemonic) (arg : Option (List Char)) : Option ArgForm :=
  match m with
  | .hlt | .inv | .push | .pop | .ret => some .noArg
  | .add | .sub | .mul | .div | .cmp => arg.map classifyOperand
  | .ld | .st => arg.map fun s =>
      if s = inputWord then .input else if s = outputWord then .output else classifyOperand s
  | .jmp | .jz | .js | .jnz => arg.map .label
  | .call => arg.map .func

/-- The name-to-number maps of the assembler (R94); they are not part of the hardware. -/
structure Numbering where
  varNo : List Char → Nat
  labelNo : List Char → Nat
  funcNo : List Char → Nat

/-- The numbers that rule R94 fixes: label 0 is `self`, function 0 is `_START`. -/
def Numbering.Fixed (ν : Numbering) : Prop :=
  ν.labelNo ['s', 'e', 'l', 'f'] = 0 ∧ ν.funcNo ['_', 'S', 'T', 'A', 'R', 'T'] = 0

/-- The mode and operand of a classified argument in the binary form: a CHAR argument is lowered to an immediate
holding its code (R97), a name to its number (R94). -/
inductive Lowered where
  | noArg
  | abs (n : Nat)
  | imm (k : Int)
  | var (v : Nat)
  | label (l : Nat)
  | func (f : Nat)
  | input
  | output
  deriving DecidableEq, Repr

/-- The lowering of an argument (R94, R97). -/
def lowerArg (ν : Numbering) : ArgForm → Lowered
  | .noArg => .noArg
  | .abs n => .abs n
  | .imm k => .imm k
  | .char c => .imm (charCode c).toInt
  | .var s => .var (ν.varNo s)
  | .label s => .label (ν.labelNo s)
  | .func s => .func (ν.funcNo s)
  | .input => .input
  | .output => .output

/-- The instruction of a mnemonic and a lowered argument: the 35 legal pairs of rule R86. -/
def instrOf : Mnemonic → Lowered → Option Instr
  | .hlt, .noArg => some .hlt
  | .add, .abs n => some (.addAbs n)
  | .add, .imm k => some (.addImm k)
  | .add, .var v => some (.addVar v)
  | .sub, .abs n => some (.subAbs n)
  | .sub, .imm k => some (.subImm k)
  | .sub, .var v => some (.subVar v)
  | .mul, .abs n => some (.mulAbs n)
  | .mul, .imm k => some (.mulImm k)
  | .mul, .var v => some (.mulVar v)
  | .div, .abs n => some (.divAbs n)
  | .div, .imm k => some (.divImm k)
  | .div, .var v => some (.divVar v)
  | .inv, .noArg => some .inv
  | .cmp, .abs n => some (.cmpAbs n)
  | .cmp, .imm k => some (.cmpImm k)
  | .cmp, .var v => some (.cmpVar v)
  | .ld, .abs n => some (.ldAbs n)
  | .ld, .imm k => some (.ldImm k)
  | .ld, .var v => some (.ldVar v)
  | .ld, .input => some .ldInput
  | .ld, .output => some .ldOutput
  | .st, .abs n => some (.stAbs n)
  | .st, .imm k => some (.stImm k)
  | .st, .var v => some (.stVar v)
  | .st, .input => some .stInput
  | .st, .output => some .stOutput
  | .push, .noArg => some .push
  | .pop, .noArg => some .pop
  | .jmp, .label l => some (.jmp l)
  | .call, .func f => some (.call f)
  | .ret, .noArg => some .ret
  | .jz, .label l => some (.jz l)
  | .js, .label l => some (.js l)
  | .jnz, .label l => some (.jnz l)
  | _, _ => none

/-- The instruction of a mnemonic and an argument string (R80, R91, R97); none where they are no instruction. -/
def readInstr (ν : Numbering) (m : Mnemonic) (arg : Option (List Char)) : Option Instr :=
  match classify m arg with
  | none => none
  | some a => instrOf m (lowerArg ν a)

end Sys2Proof.Machine
end

