-- ==== Sys2Proof/Machine/Load.lean ====
section
/-!
DEFINITION. Reset, input staging and the load of a program (70_reset_and_hazards.md R270 to R274; 10_state.md R40;
20_memory.md R75): what the host supplies before a run (00_scope.md R13).
-/
namespace Sys2Proof.Machine

/-- The initializer of a variable: an integer literal, or characters with a declared length (R40 (b)). -/
inductive VarInit where
  | int (k : Int)
  | chars (cs : List Char) (len : Int)
  deriving DecidableEq, Repr

/-- A variable declaration (R40); declaration order numbers the variables (R94). -/
structure VarDecl where
  name : List Char
  init : VarInit
  deriving DecidableEq, Repr

/-- The instruction sequence `Code`: in the structured form (R80), or as a binary image of 40-bit words (R89). -/
inductive CodeImage where
  | decoded (is : List Instr)
  | binary (ws : List Word40)
  deriving DecidableEq, Repr

/-- The inputs of a run (R13, R40): the program object, the optional input text and the parameters. -/
structure RunInput where
  code : CodeImage
  funcs : List (Nat × List (Nat × Word))
  vars : List VarDecl
  text : Option (List Char)
  params : Params
  deriving DecidableEq, Repr

/-- Why a program is ill-formed; the spec gives these no fault kind (R273 (e)). -/
inductive IllFormed where
  /-- An immediate outside int32, or a literal the operand field cannot hold (R85, D31). -/
  | payloadRange
  /-- A string initializer with more characters than its declared length (D23). -/
  | initializerTooLong
  /-- A negative declared length (D23). -/
  | negativeLength
  /-- Two variables with one name. -/
  | duplicateVariable
  deriving DecidableEq, Repr

/-- Why a load fails: with a fault kind, or because the program is ill-formed (R250, R273). -/
inductive LoadError where
  | fault (k : Fault)
  | illFormed (r : IllFormed)
  deriving DecidableEq, Repr

/-- `size(init)`: how many cells a variable occupies (R75). -/
def VarInit.size : VarInit → Nat
  | .int _ => 1
  | .chars _ len => len.toNat

/-- `VarAddr(s_k)` for every variable in declaration order, the first one at `base` (R75). -/
def layoutVars (base : Nat) : List VarDecl → List Nat
  | [] => []
  | d :: rest => base :: layoutVars (base + d.init.size) rest

/-- `VAR_CELLS` (R75). -/
def varCells : List VarDecl → Nat
  | [] => 0
  | d :: rest => d.init.size + varCells rest

/-- `CODE_LEN` (R40). -/
def CodeImage.length : CodeImage → Nat
  | .decoded is => is.length
  | .binary ws => ws.length

/-- `Code`, for a binary image `decode(word_a)` (R272), or the errors of the code (R273 (d), (e)). -/
def CodeImage.instrs : CodeImage → Except (List LoadError) (List Instr)
  | .decoded is => if is.all Instr.wf then .ok is else .error [.illFormed .payloadRange]
  | .binary ws =>
    match decodeWords ws with
    | .error _ => .error [.fault .illegalEncoding]
    | .ok is => .ok is

/-- An error that holds under a condition. -/
def errorIf (b : Bool) (e : LoadError) : List LoadError := if b then [e] else []

/-- An integer literal of the declaration lies outside int32 (R273 (a)). -/
def VarDecl.outOfRange (d : VarDecl) : Bool :=
  match d.init with
  | .int k => decide (¬ InInt32 k)
  | .chars _ _ => false

/-- The initializer has more characters than a declared length that is not negative (R273 (e)). -/
def VarDecl.tooLong (d : VarDecl) : Bool :=
  match d.init with
  | .int _ => false
  | .chars cs len => decide (0 ≤ len ∧ len < cs.length)

/-- The declared length is negative (R273 (e)). -/
def VarDecl.negative (d : VarDecl) : Bool :=
  match d.init with
  | .int _ => false
  | .chars _ len => decide (len < 0)

/-- Two declarations share a name (R273 (e)). -/
def duplicateNames : List VarDecl → Bool
  | [] => false
  | d :: rest => rest.any (fun e => decide (e.name = d.name)) || duplicateNames rest

/-- The input text does not fit between `INPUT_BASE` and the end of memory (R273 (b)). -/
def textTooLong (p : Params) (text : Option (List Char)) : Bool :=
  match text with
  | none => false
  | some cs => decide (p.inputBase + cs.length > p.memSize)

/-- The program image of `n` cells does not fit (R273 (c), D24). -/
def imageTooLong (p : Params) (n : Nat) (text : Option (List Char)) : Bool :=
  decide (n > p.memSize) || (text.isSome && decide (n > p.inputBase))

/-- Every load check that fails on the data beside the code (R273 (a), (b), (c), (e)). -/
def dataErrors (r : RunInput) : List LoadError :=
  errorIf (r.vars.any VarDecl.outOfRange) (.fault .variableRangeError) ++
  errorIf (textTooLong r.params r.text) (.fault .addressOutOfRange) ++
  errorIf (imageTooLong r.params (r.code.length + varCells r.vars) r.text) (.fault .addressOutOfRange) ++
  errorIf (r.vars.any VarDecl.tooLong) (.illFormed .initializerTooLong) ++
  errorIf (r.vars.any VarDecl.negative) (.illFormed .negativeLength) ++
  errorIf (duplicateNames r.vars) (.illFormed .duplicateVariable)

/-- `Mem[a].instr <- Code[a]` from address `a` up (R272). -/
def placeCode (a : Nat) (is : List Instr) (m : Memory) : Memory :=
  match is with
  | [] => m
  | i :: rest => placeCode (a + 1) rest (m.setInstr a (some i))

/-- `Mem[a + j].value <- ENC(c_j)` (R272, R274), in a memory whose unwritten cells hold `d`. -/
def placeText (d : Word) (a : Nat) (cs : List Char) (m : Memory) : Memory :=
  match cs with
  | [] => m
  | c :: rest => placeText d (a + 1) rest (m.setValue d a (charCode (some c)))

/-- The cells of one variable (R272): beyond the initializer they keep `CELL_DEFAULT`. -/
def placeVar (d : Word) (a : Nat) (v : VarDecl) (m : Memory) : Memory :=
  match v.init with
  | .int k => m.setValue d a (Word.ofInt k)
  | .chars cs _ => placeText d a cs m

/-- The cells of all variables from address `a` up (R272, R75). -/
def placeVars (d : Word) (a : Nat) (vs : List VarDecl) (m : Memory) : Memory :=
  match vs with
  | [] => m
  | v :: rest => placeVars d (a + v.init.size) rest (placeVar d a v m)

/-- Input staging from `INPUT_BASE` up (R74, R274). -/
def stageText (p : Params) (text : Option (List Char)) (m : Memory) : Memory :=
  match text with
  | none => m
  | some cs => placeText p.cellDefault p.inputBase cs m

/-- The memory after staging and load (R271, R272). -/
def loadedMemory (is : List Instr) (r : RunInput) : Memory :=
  placeVars r.params.cellDefault is.length r.vars
    (placeCode 0 is (stageText r.params r.text (State.resetWith r.params).mem))

/-- The state in which the first instruction is fetched (R41, R271). -/
def loadedState (is : List Instr) (r : RunInput) : State :=
  { State.resetWith r.params with
    mem := loadedMemory is r
    tables := { funcs := r.funcs, varAddr := layoutVars is.length r.vars } }

/-- Reset, staging and load (R271): the start state of the run, or every check that fails, of which the machine
reports one (R273: which one is not specified; log 17). -/
def load (r : RunInput) : Except (List LoadError) State :=
  match r.code.instrs with
  | .error es => .error (es ++ dataErrors r)
  | .ok is =>
    match dataErrors r with
    | [] => .ok (loadedState is r)
    | e :: es => .error (e :: es)

end Sys2Proof.Machine
end

