-- ==== Sys2Proof/Machine/Run.lean ====
section
/-!
DEFINITION. The run loop, its outcome and its result (41_fetch_dispatch_hlt.md R144 to R147; 00_scope.md R9, R12).
-/
namespace Sys2Proof.Machine

/-- One turn of the run loop: a step that raises leaves RUN at Faulted(K) (R9, R36, R240); what the rest of the
state then holds is not defined and nothing may depend on it (log 13). -/
def advance (s : State) : State :=
  match step s with
  | .next t => t
  | .fault k => s.setRun (.faulted k)
  | .refused _ => s

/-- The decimal digits of a natural, most significant first, with enough fuel. -/
def digitsWithFuel : Nat → Nat → List Char → List Char
  | 0, _, acc => acc
  | fuel + 1, n, acc =>
    let acc' := Char.ofNat (48 + n % 10) :: acc
    if n / 10 = 0 then acc' else digitsWithFuel fuel (n / 10) acc'

/-- The decimal numeral of an integer of int32, with a leading minus sign when it is negative (R145). -/
def decimal (x : Int) : List Char :=
  if x < 0 then Char.ofNat 45 :: digitsWithFuel 10 x.natAbs [] else digitsWithFuel 10 x.natAbs []

/-- The text of a list of output codes, where `DEC` gives each of them a character (R145). -/
def decodeText : List Word → Option (List Char)
  | [] => some []
  | w :: rest =>
    match Config.dec w, decodeText rest with
    | some c, some cs => some (c :: cs)
    | _, _ => none

/-- `Result` of a halted run (R145): the output text, where output was written and every code has a character,
else the decimal numeral of AC (log 22). -/
def result (s : State) : Option (List Char) :=
  if s.outCur > 0 then decodeText s.out else some (decimal s.ac.toInt)

/-- The outcome of a run (R12), or that it has not ended: by the ceiling, or as far as it was followed. -/
inductive RunOutcome where
  /-- (a) The load failed, with one of these errors. -/
  | loadFailed (es : List LoadError)
  /-- (b) Halted, with the textual result. -/
  | halted (text : Option (List Char))
  /-- (c) Faulted(K). -/
  | faulted (k : Fault)
  /-- The ceiling `MAX_STEPS` was reached: neither a result nor a fault (R140, R146). -/
  | ceiling (s : State)
  /-- Still running after the steps followed, below the ceiling (R146: a model runs under fuel). -/
  | unfinished (s : State)
  deriving DecidableEq, Repr

/-- The run loop for at most `n` steps (R144): it stops at the first state that is not `Running`. -/
def runFor : Nat → State → State
  | 0, s => s
  | n + 1, s =>
    match s.run with
    | .running => runFor n (advance s)
    | .halted => s
    | .faulted _ => s

/-- The outcome that a state shows (R12), given what a running state stands for. -/
def outcomeOf (stillRunning : State → RunOutcome) (s : State) : RunOutcome :=
  match s.run with
  | .running => stillRunning s
  | .halted => .halted (result s)
  | .faulted k => .faulted k

/-- The run loop followed for `fuel` steps under the ceiling `MAX_STEPS` (R144, R146; log 27). -/
def runLoop (fuel : Nat) (s : State) : RunOutcome :=
  match s.cfg.maxSteps with
  | none => outcomeOf .unfinished (runFor fuel s)
  | some m =>
    if m ≤ fuel then outcomeOf .ceiling (runFor m s) else outcomeOf .unfinished (runFor fuel s)

/-- A whole run: load, then the loop (R12, R271). -/
def runProgram (fuel : Nat) (r : RunInput) : RunOutcome :=
  match load r with
  | .error es => .loadFailed es
  | .ok s => runLoop fuel s

end Sys2Proof.Machine
end

