-- ==== Sys2Proof/Safety.lean ====
section
/-!
DEFINITION. The terms in which claims about the machine are stated: hidden and diagnostic state set aside, the
invariant of a running machine, the register access table, and outcomes compared.
-/
namespace Sys2Proof.Machine

/-- The state with its hidden components set aside (R20, R37 to R39): two states with the same `visible` agree on
everything architectural. -/
def State.visible (s : State) : State :=
  { s with aluLeft := 0, aluRight := 0, aluFlags := 0, tick := 0 }

/-- The state with the hidden components and the diagnostic registers AR and IR set aside (R26, R27, R37 to R39). -/
def State.undiagnosed (s : State) : State := { s.visible with ar := 0, ir := none }

/-- The outcome of a step, its next state seen without diagnostic and hidden components. -/
def undiagnosedOutcome (o : Host.Outcome State Fault Refusal) : Host.Outcome State Fault Refusal :=
  match o with
  | .next t => .next t.undiagnosed
  | .fault k => .fault k
  | .refused r => .refused r

/-- The values PS can hold (R24). -/
def legalPs (ps : Word) : Bool :=
  [0, 1, 2, 12, 13, 14].any fun v => decide (ps = v)

/-- The invariant of the machine: what holds after every load and is kept by every step. -/
structure Inv (s : State) : Prop where
  /-- The parameters make a machine whose indices are `int32` (log 31). -/
  parameters : s.cfg.wf = true
  /-- Memory is in canonical form and holds well-formed instructions only (R30, R31, R87). -/
  memory : memoryWf s = true
  /-- The value stack is in canonical form (R32). -/
  stack : stackWf s = true
  /-- The output buffer is within its capacity (R33). -/
  output : s.outCur ≤ s.cfg.outCapacity
  /-- The staged-input cursor is in the input region, or just past the end of memory (R34, R74). -/
  input : s.cfg.inputBase ≤ s.inCur ∧ s.inCur ≤ s.cfg.memSize
  /-- PS holds one of its six values (R24). -/
  status : legalPs s.ps = true
  /-- SP is a stack index, one past the last slot, or -1 (R23). -/
  stackPointer : -1 ≤ s.sp.toInt ∧ s.sp.toInt ≤ s.cfg.stackDepth
  /-- CTX is within its capacity (R35; log 19). -/
  context : ∀ d, s.cfg.ctxDepth = some d → s.ctx.length ≤ d
  /-- AR holds a cell address (R26). -/
  address : inMem s.cfg s.ar.toInt = true
  /-- IR holds a well-formed instruction, or none (R27). -/
  instruction : ∀ i, s.ir = some i → i.wf = true
  /-- The operand slots of the ALU are zero between its uses (R37). -/
  slots : s.aluLeft = 0 ∧ s.aluRight = 0

end Sys2Proof.Machine

namespace Sys2Proof

/-! ### The register access table (10_state.md R42), by who may write what -/

/-- The instructions that may change AC. -/
def Instr.mayWriteAc : Instr → Bool
  | .addAbs _ | .addImm _ | .addVar _ | .subAbs _ | .subImm _ | .subVar _ => true
  | .mulAbs _ | .mulImm _ | .mulVar _ | .divAbs _ | .divImm _ | .divVar _ => true
  | .inv | .ldAbs _ | .ldImm _ | .ldVar _ | .ldInput | .pop => true
  | _ => false

/-- The instructions that may change PS (R24). -/
def Instr.mayWritePs : Instr → Bool
  | .addAbs _ | .addImm _ | .addVar _ | .subAbs _ | .subImm _ | .subVar _ => true
  | .cmpAbs _ | .cmpImm _ | .cmpVar _ | .inv => true
  | _ => false

/-- The instructions that may change BR and CTX (R22, R35). -/
def Instr.isCallOrRet : Instr → Bool
  | .call _ | .ret => true
  | _ => false

/-- The instructions that may change SP (R23). -/
def Instr.mayWriteSp : Instr → Bool
  | .push | .pop | .call _ | .ret => true
  | _ => false

/-- The instructions that may change the value stack (R32, R42). -/
def Instr.mayWriteStack : Instr → Bool
  | .push | .call _ => true
  | _ => false

/-- The instructions that may change IP beside the fetch (R25). -/
def Instr.mayWriteIp : Instr → Bool
  | .jmp _ | .jz _ | .js _ | .jnz _ | .call _ | .ret => true
  | _ => false

/-- The instructions that may change AR beside the fetch (R26). -/
def Instr.mayWriteAr : Instr → Bool
  | .addAbs _ | .addVar _ | .subAbs _ | .subVar _ | .mulAbs _ | .mulVar _ => true
  | .divAbs _ | .divVar _ | .cmpAbs _ | .cmpVar _ | .ldAbs _ | .ldVar _ => true
  | .ldInput | .stAbs _ | .stVar _ => true
  | _ => false

/-- The instructions that may change a cell of main memory (R42, R58). -/
def Instr.mayWriteMem : Instr → Bool
  | .stAbs _ | .stVar _ => true
  | _ => false

end Sys2Proof
end

