-- ==== Sys2Proof/Certificates/Slice0/Obligations.lean ====
section
/-!
DEFINITION. The statements for the provers. Hidden state (the ALU's slots and flag byte, the tick counter) is set
aside by `State.visible`: no statement rests on its value (10_state.md R37 to R39). A statement holds for every value
of the parameters of rule R5 that it does not name (00_scope.md R5, `Params`).
-/
open Sys2Proof Sys2Proof.Machine

/-! ### Encoding -/

/-- Words written out from rules R82 to R86 (30_encoding.md, 95_test_vectors.md section 2.8) decode to their
instructions, and illegal ones are rejected by name. The bits are the spec's own decision D1 to D3. -/
def Obligations.WrittenWordsDecode : Prop :=
  decode 0x0000000000 = .ok .hlt ∧ decode 0x3A00000015 = .ok (.ldImm 21) ∧
  decode 0x0AFFFFFFFB = .ok (.addImm (-5)) ∧ decode 0x3900000400 = .ok (.ldAbs 1024) ∧
  decode 0x4300000001 = .ok (.stVar 1) ∧ decode 0x4800000000 = .ok .push ∧
  decode 0x6500000001 = .ok (.call 1) ∧ decode 0x8400000003 = .ok (.jnz 3) ∧
  decode 0x0000000001 = .error .nonzeroOperand ∧ decode 0x5900000000 = .error .illegalMode ∧
  decode 0x8800000000 = .error .reservedOpcode

/-- Decoding the word of a well-formed instruction gives the instruction back, for every operand (R89). -/
def Obligations.DecodeOfEncodeIsIdentity : Prop :=
  ∀ i : Instr, i.wf = true → decode (encode i) = .ok i

/-- A word that decodes is the word of the instruction it decodes to, which is well-formed: each legal word has one
meaning (R89). -/
def Obligations.EncodeOfDecodeIsIdentity : Prop :=
  ∀ (w : Word40) (i : Instr), decode w = .ok i → encode i = w ∧ i.wf = true

/-- A word is rejected exactly when its opcode is 17 to 31, its pair of opcode and mode is not in the table, or its
mode has no payload and its operand field is not zero (R87; the spec's decision D6). -/
def Obligations.RejectedWordsAreTheIllegalOnes : Prop :=
  ∀ w : Word40, (∃ e, decode w = .error e) ↔
    17 ≤ (opcodeField w).toNat ∨
    (∃ m, mnemonicOf (opcodeField w) = some m ∧ modeOf (modeField w) ∉ legalModes m) ∨
    ((modeOf (modeField w)).isBare = true ∧ operandField w ≠ 0)

/-- The serial form of a list of well-formed instructions decodes to the list (R95; the spec's decision D5). -/
def Obligations.SerialImageRoundTrip : Prop :=
  ∀ is : List Instr, (∀ i ∈ is, i.wf = true) → decodeImage (is.flatMap encodeBytes) = .ok is

/-- A character argument resolves to its code, `ENC(c)` or `ENC_EMPTY` for the empty quote pair, with no effect on the
state (R63); it is the same operand and the same instruction as the immediate it is lowered to (R97: the lowering is
the spec's decision D3, and names become numbers by the assembler, log 12; the table is OPEN, D21). -/
def Obligations.CharacterArgumentIsItsCode : Prop :=
  (∀ c : Char, charCode (some c) = Config.enc c) ∧ charCode none = Config.encEmpty ∧
  ∀ (c : Option Char) (s : State),
    resolve (.char c) s = .ok (charCode c, s) ∧
    resolve (.char c) s = resolve (.imm (charCode c).toInt) s ∧
    ∀ (ν : Numbering) (m : Mnemonic),
      instrOf m (lowerArg ν (.char c)) = instrOf m (.imm (charCode c).toInt)

/-- Argument strings classify by the priority of rule R91. Of the operand forms: one or more digits are an absolute
address, a hash sign and an optional minus sign before them an immediate, of the value they have in base ten; one
character between single quotes, or nothing between them, is a character; anything else is a variable name, `#`, `#-`,
`#5x` and `-5` among them. LD and ST test INPUT and OUTPUT first (R92), the five two-operand instructions do not;
jumps take any string as a label and CALL as a function; HLT, INV, PUSH, POP and RET ignore an argument and no other
instruction is one without (R96; that digits means one or more, and that arguments are ignored, is decision D37). -/
def Obligations.ArgumentStringsClassify : Prop :=
  (∀ ds : List Char, ds ≠ [] → ds.all Char.isDigit = true →
    let n := Nat.ofDigits 10 (ds.map fun c => c.toNat - 48).reverse
    classifyOperand ds = .abs n ∧ classifyOperand ('#' :: ds) = .imm n ∧
    classifyOperand ('#' :: '-' :: ds) = .imm (-n)) ∧
  (∀ c, classifyOperand [quoteChar, c, quoteChar] = .char (some c)) ∧
  classifyOperand [quoteChar, quoteChar] = .char none ∧
  (∀ s : List Char,
    (∀ ds : List Char, ds ≠ [] → ds.all Char.isDigit = true → s ≠ ds ∧ s ≠ '#' :: ds ∧ s ≠ '#' :: '-' :: ds) →
    (∀ c, s ≠ [quoteChar, c, quoteChar]) → s ≠ [quoteChar, quoteChar] → classifyOperand s = .var s) ∧
  (∀ s ∈ [['#'], ['#', '-'], ['#', '5', 'x'], ['-', '5']], classifyOperand s = .var s) ∧
  (∀ k : Int, InInt32 k →
    (0 ≤ k → classifyOperand (decimal k) = .abs k.toNat) ∧
    classifyOperand ('#' :: decimal k) = .imm k ∧
    (k < 0 → classifyOperand (decimal k) = .var (decimal k))) ∧
  (∀ m ∈ [Mnemonic.ld, .st], classify m none = none ∧
    classify m (some inputWord) = some .input ∧ classify m (some outputWord) = some .output ∧
    ∀ s, s ≠ inputWord → s ≠ outputWord → classify m (some s) = some (classifyOperand s)) ∧
  (∀ m ∈ [Mnemonic.add, .sub, .mul, .div, .cmp], classify m none = none ∧
    classify m (some inputWord) = some (.var inputWord) ∧
    classify m (some outputWord) = some (.var outputWord) ∧
    ∀ s, classify m (some s) = some (classifyOperand s)) ∧
  (∀ m ∈ [Mnemonic.jmp, .jz, .js, .jnz], classify m none = none ∧ ∀ s, classify m (some s) = some (.label s)) ∧
  (classify .call none = none ∧ ∀ s, classify .call (some s) = some (.func s)) ∧
  (∀ m ∈ [Mnemonic.hlt, .inv, .push, .pop, .ret], ∀ a, classify m a = some .noArg)

/-! ### The step -/

/-- A step of a running machine runs the instruction in the cell at IP, in the state that fetch leaves: AR at the
old IP, IP one further, IR the instruction (R140, R141). -/
def Obligations.StepRunsTheFetchedInstruction : Prop :=
  ∀ (s : State) (i : Instr), s.run = .running → 0 ≤ s.ip.toInt → s.ip.toInt < s.cfg.memSize →
    s.mem.instr s.ip.toInt.toNat = some i →
    ∃ u : State, u.visible = State.visible { s with ar := s.ip, ip := s.ip + 1, ir := some i } ∧
      step s = exec i u

/-- A word that decodes, placed by `State.withFetchWord` in the cell that the step fetches, is what the next step runs
(R140, R141). Placing one word at IP is the model's own stand-in for a load (log 18, DESIGN CHOICE), and the number of
a word is read as the opcode table numbers its bits (log 21, DEDUCED). -/
def Obligations.PlacedWordIsExecutedNext : Prop :=
  ∀ (s : State) (w : Word40) (i : Instr), decode w = .ok i → s.run = .running →
    0 ≤ s.ip.toInt → s.ip.toInt < s.cfg.memSize →
    ∃ u : State, u.visible = State.visible { s with
        ar := s.ip, ip := s.ip + 1, ir := some i, mem := s.mem.setInstr s.ip.toInt.toNat (some i) } ∧
      step (s.withFetchWord 40 w.toNat) = exec i u

/-- Fetching outside memory faults with AddressOutOfRange, fetching a cell without an instruction with
NoInstruction (R141; the spec's decisions D12, D13). -/
def Obligations.FetchFaults : Prop :=
  ∀ s : State, s.run = .running →
    (s.ip.toInt < 0 ∨ s.cfg.memSize ≤ s.ip.toInt → step s = .fault .addressOutOfRange) ∧
    (0 ≤ s.ip.toInt → s.ip.toInt < s.cfg.memSize → s.mem.instr s.ip.toInt.toNat = none →
      step s = .fault .noInstruction)

/-- From a running state a step gives a running state, the halted state or a fault of a run-time kind, and from no
other state is there a step (R11, R36, R241; the refusal is the model's choice, log 14). -/
def Obligations.StepIsTotalFromRunningOnly : Prop :=
  ∀ s : State,
    (s.run = .running →
      (∃ t, step s = .next t ∧ (t.run = .running ∨ t.run = .halted)) ∨
      (∃ k, step s = .fault k ∧ k ≠ .variableRangeError ∧ k ≠ .illegalEncoding)) ∧
    (s.run ≠ .running → step s = .refused .runEnded)

/-! ### The ALU -/

/-- The result of add under the literal fold: the exact sum in range, less 2^32 above it, and the mirrored value
below it. The fold's reading is the spec's decision D14. -/
def Obligations.AddResultIsExactOrFolded : Prop :=
  ∀ l r : Word, (addResult .literal l r).toInt =
    (let s := l.toInt + r.toInt
     if s > intMax then s - 4294967296
     else if s < intMin then (if s = -4294967296 then -1 else -s - 2147483649)
     else s)

/-- The flag byte of add, as PS holds it, by the signs of the operands and of the result (R113). -/
def Obligations.AddFlagsBySigns : Prop :=
  ∀ l r res : Word, psOf (addFlags l r res) =
    (if l.toInt > 0 ∧ r.toInt > 0 ∧ res.toInt < 0 then 13
     else if l.toInt < 0 ∧ r.toInt < 0 ∧ res.toInt ≥ 0 then (if res.toInt = 0 then 14 else 12)
     else if res.toInt = 0 then 2
     else if res.toInt < 0 then 1
     else 0)

/-- What the flags of add say: Z the result is zero, N it is negative, C the same as V, and V that the exact sum is
out of range, except for MIN + MIN (R121, R122; under the literal fold of decision D14). -/
def Obligations.AddFlagLaws : Prop :=
  ∀ l r : Word,
    let res := addResult .literal l r
    let f := addFlags l r res
    (f.getLsbD 1 = true ↔ res.toInt = 0) ∧ (f.getLsbD 0 = true ↔ res.toInt < 0) ∧
    f.getLsbD 3 = f.getLsbD 2 ∧
    (f.getLsbD 2 = true ↔ ¬ InInt32 (l.toInt + r.toInt) ∧ ¬ (l.toInt = intMin ∧ r.toInt = intMin))

/-- The result of subtract under the literal fold. The fold's reading is the spec's decision D14. -/
def Obligations.SubResultIsExactOrFolded : Prop :=
  ∀ l r : Word, (subResult .literal l r).toInt =
    (let d := l.toInt - r.toInt
     if d > intMax then d - 4294967296
     else if d < intMin then -d - 2147483648
     else d)

/-- The flag byte of subtract, as PS holds it, by the signs of the operands and of the result (R115). -/
def Obligations.SubFlagsBySigns : Prop :=
  ∀ l r res : Word, psOf (subFlags l r res) =
    (if l.toInt > 0 ∧ r.toInt < 0 ∧ res.toInt < 0 then 13
     else if l.toInt < 0 ∧ r.toInt > 0 ∧ res.toInt ≥ 0 then (if res.toInt = 0 then 14 else 12)
     else if res.toInt = 0 then 2
     else if res.toInt < 0 then 1
     else 0)

/-- What the flags of subtract say: as for add, with V missed only for 0 - MIN, and never Z with V (R121, R122;
under the literal fold of decision D14). -/
def Obligations.SubFlagLaws : Prop :=
  ∀ l r : Word,
    let res := subResult .literal l r
    let f := subFlags l r res
    (f.getLsbD 1 = true ↔ res.toInt = 0) ∧ (f.getLsbD 0 = true ↔ res.toInt < 0) ∧
    f.getLsbD 3 = f.getLsbD 2 ∧
    (f.getLsbD 2 = true ↔ ¬ InInt32 (l.toInt - r.toInt) ∧ ¬ (l.toInt = 0 ∧ r.toInt = intMin)) ∧
    ¬ (f.getLsbD 1 = true ∧ f.getLsbD 2 = true)

/-- A product, quotient or negation in range is exact whatever NARROW is; quotients are rounded toward zero
(R116, R117, R119, R120; the rounding is decision D16). -/
def Obligations.InRangeResultsAreExact : Prop :=
  ∀ (p : Config.NarrowPolicy) (l r : Word),
    (InInt32 (l.toInt * r.toInt) → (mulResult p l r).toInt = l.toInt * r.toInt) ∧
    (r ≠ 0 → ¬ (l.toInt = intMin ∧ r.toInt = -1) → (divResult p l r).toInt = l.toInt.tdiv r.toInt) ∧
    (l.toInt ≠ intMin → (negResult p l 0).toInt = -l.toInt)

/-- The two's-complement instances: add and subtract under the alternative fold (decision D14), multiply, divide and
negate with NARROW = wrap32 (decision D15; the rounding of divide is D16). -/
def Obligations.WrapInstancesAreTwosComplement : Prop :=
  ∀ l r : Word, addResult .wrap l r = l + r ∧ subResult .wrap l r = l - r ∧
    mulResult .wrap32 l r = l * r ∧ (r ≠ 0 → divResult .wrap32 l r = l.sdiv r) ∧
    negResult .wrap32 l 0 = -l

/-! ### Math instructions -/

/-- ADD completes on every operand that resolves: AC is the sum, PS its flags, AR the routed address, and nothing
else changes (R160, R161). -/
def Obligations.AddEffect : Prop :=
  ∀ s : State,
    (∀ n, n < s.cfg.memSize → ∃ t, exec (.addAbs n) s = .next t ∧
      (let v := cellValue n s
       let res := addResult s.cfg.foldPolicy s.ac v
       t.visible = State.visible { s with ac := res, ps := psOf (addFlags s.ac v res), ar := Word.ofNat n })) ∧
    (∀ k, InInt32 k → ∃ t, exec (.addImm k) s = .next t ∧
      (let v := Word.ofInt k
       let res := addResult s.cfg.foldPolicy s.ac v
       t.visible = State.visible { s with ac := res, ps := psOf (addFlags s.ac v res) })) ∧
    (∀ x a, varAddrOf x s = some a → a < s.cfg.memSize → ∃ t, exec (.addVar x) s = .next t ∧
      (let v := cellValue a s
       let res := addResult s.cfg.foldPolicy s.ac v
       t.visible = State.visible { s with ac := res, ps := psOf (addFlags s.ac v res), ar := Word.ofNat a }))

/-- SUB completes on every operand that resolves: AC is AC less the operand, PS its flags, AR the routed address,
and nothing else changes (R160, R162). -/
def Obligations.SubEffect : Prop :=
  ∀ s : State,
    (∀ n, n < s.cfg.memSize → ∃ t, exec (.subAbs n) s = .next t ∧
      (let v := cellValue n s
       let res := subResult s.cfg.foldPolicy s.ac v
       t.visible = State.visible { s with ac := res, ps := psOf (subFlags s.ac v res), ar := Word.ofNat n })) ∧
    (∀ k, InInt32 k → ∃ t, exec (.subImm k) s = .next t ∧
      (let v := Word.ofInt k
       let res := subResult s.cfg.foldPolicy s.ac v
       t.visible = State.visible { s with ac := res, ps := psOf (subFlags s.ac v res) })) ∧
    (∀ x a, varAddrOf x s = some a → a < s.cfg.memSize → ∃ t, exec (.subVar x) s = .next t ∧
      (let v := cellValue a s
       let res := subResult s.cfg.foldPolicy s.ac v
       t.visible = State.visible { s with ac := res, ps := psOf (subFlags s.ac v res), ar := Word.ofNat a }))

/-- MUL completes on every operand that resolves: AC is the product, PS is untouched (R160, R163). -/
def Obligations.MulEffect : Prop :=
  ∀ s : State,
    (∀ n, n < s.cfg.memSize → ∃ t, exec (.mulAbs n) s = .next t ∧
      t.visible = State.visible
        { s with ac := mulResult s.cfg.narrowPolicy s.ac (cellValue n s), ar := Word.ofNat n }) ∧
    (∀ k, InInt32 k → ∃ t, exec (.mulImm k) s = .next t ∧
      t.visible = State.visible { s with ac := mulResult s.cfg.narrowPolicy s.ac (Word.ofInt k) }) ∧
    (∀ x a, varAddrOf x s = some a → a < s.cfg.memSize → ∃ t, exec (.mulVar x) s = .next t ∧
      t.visible = State.visible
        { s with ac := mulResult s.cfg.narrowPolicy s.ac (cellValue a s), ar := Word.ofNat a })

/-- DIV completes on every operand that resolves to a value other than zero: AC is the quotient, PS is untouched
(R160, R164). -/
def Obligations.DivEffect : Prop :=
  ∀ s : State,
    (∀ n, n < s.cfg.memSize → cellValue n s ≠ 0 → ∃ t, exec (.divAbs n) s = .next t ∧
      t.visible = State.visible
        { s with ac := divResult s.cfg.narrowPolicy s.ac (cellValue n s), ar := Word.ofNat n }) ∧
    (∀ k, InInt32 k → k ≠ 0 → ∃ t, exec (.divImm k) s = .next t ∧
      t.visible = State.visible { s with ac := divResult s.cfg.narrowPolicy s.ac (Word.ofInt k) }) ∧
    (∀ x a, varAddrOf x s = some a → a < s.cfg.memSize → cellValue a s ≠ 0 → ∃ t, exec (.divVar x) s = .next t ∧
      t.visible = State.visible
        { s with ac := divResult s.cfg.narrowPolicy s.ac (cellValue a s), ar := Word.ofNat a })

/-- CMP completes on every operand that resolves: PS is what SUB would set, AC is not written (R160, R166). -/
def Obligations.CmpEffect : Prop :=
  ∀ s : State,
    (∀ n, n < s.cfg.memSize → ∃ t, exec (.cmpAbs n) s = .next t ∧
      (let v := cellValue n s
       t.visible = State.visible
        { s with ps := psOf (subFlags s.ac v (subResult s.cfg.foldPolicy s.ac v)), ar := Word.ofNat n })) ∧
    (∀ k, InInt32 k → ∃ t, exec (.cmpImm k) s = .next t ∧
      (let v := Word.ofInt k
       t.visible = State.visible
        { s with ps := psOf (subFlags s.ac v (subResult s.cfg.foldPolicy s.ac v)) })) ∧
    (∀ x a, varAddrOf x s = some a → a < s.cfg.memSize → ∃ t, exec (.cmpVar x) s = .next t ∧
      (let v := cellValue a s
       t.visible = State.visible
        { s with ps := psOf (subFlags s.ac v (subResult s.cfg.foldPolicy s.ac v)), ar := Word.ofNat a }))

/-- INV always completes: AC is negated and PS becomes exactly 2, whatever the result (R165). -/
def Obligations.InvEffect : Prop :=
  ∀ s : State, ∃ t, exec .inv s = .next t ∧
    t.visible = State.visible { s with ac := negResult s.cfg.narrowPolicy s.ac 0, ps := 2 }

/-! ### Data instructions -/

/-- LD completes on every operand that resolves: AC is the operand's value and nothing else but AR changes; in
particular the input cursor does not move (R59, R180). -/
def Obligations.LdEffect : Prop :=
  ∀ s : State,
    (∀ n, n < s.cfg.memSize → ∃ t, exec (.ldAbs n) s = .next t ∧
      t.visible = State.visible { s with ac := cellValue n s, ar := Word.ofNat n }) ∧
    (∀ k, InInt32 k → ∃ t, exec (.ldImm k) s = .next t ∧ t.visible = State.visible { s with ac := Word.ofInt k }) ∧
    (∀ x a, varAddrOf x s = some a → a < s.cfg.memSize → ∃ t, exec (.ldVar x) s = .next t ∧
      t.visible = State.visible { s with ac := cellValue a s, ar := Word.ofNat a })

/-- LD INPUT completes while the cursor is in memory: AC is the cell at the cursor, which moves one further
(R74, R181; AR is decision D32). -/
def Obligations.LdInputEffect : Prop :=
  ∀ s : State, s.inCur < s.cfg.memSize → ∃ t, exec .ldInput s = .next t ∧
    t.visible = State.visible
      { s with ac := cellValue s.inCur s, ar := Word.ofNat s.inCur, inCur := s.inCur + 1 }

/-- ST completes on an address in memory and on a declared variable: the value field of that one cell becomes AC,
every other value field and every instruction field keeps what it held (R52, R65, R183; AR is decision D32). -/
def Obligations.StEffect : Prop :=
  ∀ s : State,
    (∀ n, n < s.cfg.memSize → ∃ t, exec (.stAbs n) s = .next t ∧
      t.visible = State.visible { s with ar := Word.ofNat n, mem := t.mem } ∧
      (∀ b, cellValue b t = if b = n then s.ac else cellValue b s) ∧
      (∀ b, t.mem.instr b = s.mem.instr b)) ∧
    (∀ x a, varAddrOf x s = some a → a < s.cfg.memSize → ∃ t, exec (.stVar x) s = .next t ∧
      t.visible = State.visible { s with ar := Word.ofNat a, mem := t.mem } ∧
      (∀ b, cellValue b t = if b = a then s.ac else cellValue b s) ∧
      (∀ b, t.mem.instr b = s.mem.instr b))

/-- ST OUTPUT completes while the output buffer has room: AC is appended, and nothing else changes (R55, R184). -/
def Obligations.StOutputEffect : Prop :=
  ∀ s : State, s.out.length < s.cfg.outCapacity → ∃ t, exec .stOutput s = .next t ∧
    t.visible = State.visible { s with out := s.out ++ [s.ac] }

/-- LD OUTPUT, ST INPUT and ST with an immediate end the run with InvalidInstructionUsage on every state (R182,
R185, and for the immediate R186, the spec's decision D18). -/
def Obligations.MisusedDataFormsStop : Prop :=
  ∀ s : State, exec .ldOutput s = .fault .invalidInstructionUsage ∧
    exec .stInput s = .fault .invalidInstructionUsage ∧
    ∀ k, exec (.stImm k) s = .fault .invalidInstructionUsage

/-! ### Stack instructions -/

/-- PUSH completes while SP is 1 to STACK_DEPTH: SP is one lower and the slot at the new SP holds AC, every other slot and
all else as before (R200, R201). -/
def Obligations.PushEffect : Prop :=
  ∀ s : State, 1 ≤ s.sp.toInt → s.sp.toInt ≤ s.cfg.stackDepth → ∃ t, exec .push s = .next t ∧
    t.visible = State.visible { s with sp := s.sp - 1, stack := t.stack } ∧
    t.sp.toInt = s.sp.toInt - 1 ∧
    ∀ i, stackSlot i t = if i = t.sp.toInt.toNat then s.ac else stackSlot i s

/-- POP completes while SP is 0 to STACK_DEPTH-1: AC is the slot at SP, and SP then moves down by one in literal mode
and up by one in corrected mode (R202, R203). -/
def Obligations.PopEffect : Prop :=
  ∀ s : State, 0 ≤ s.sp.toInt → s.sp.toInt < s.cfg.stackDepth → ∃ t, exec .pop s = .next t ∧
    t.visible = State.visible { s with ac := stackSlot s.sp.toInt.toNat s, sp := t.sp } ∧
    (s.cfg.popPolicy = .literal → t.sp.toInt = s.sp.toInt - 1) ∧
    (s.cfg.popPolicy = .corrected → t.sp = s.sp + 1)

/-! ### Control instructions -/

/-- The lookups of jumps, CALL and VAR operands: in tables without a key twice, `Funcs(f)(l)` is the address that the
table of `f` gives `l`, the entry of `f` is what it gives label number 0, `self`, and a variable number is a position
(R40, R94, R210, R212; numbers for names are decision D4 and log 12, tables as lists log 11 and log 28). -/
def Obligations.TableLookup : Prop :=
  ∀ s : State, (s.tables.funcs.map Prod.fst).Nodup → (∀ e ∈ s.tables.funcs, (e.2.map Prod.fst).Nodup) →
    (∀ f l a, labelAddrOf f l s = some a ↔ ∃ labels, (f, labels) ∈ s.tables.funcs ∧ (l, a) ∈ labels) ∧
    (∀ f a, entryOf f s = some a ↔ ∃ labels, (f, labels) ∈ s.tables.funcs ∧ (0, a) ∈ labels) ∧
    ∀ v, varAddrOf v s = s.tables.varAddr[v]?

/-- JMP completes when the label is in the current function's table: IP becomes its address, and nothing else
changes (R210, R211). -/
def Obligations.JmpEffect : Prop :=
  ∀ (s : State) (l f : Nat) (rest : List Nat) (a : Word),
    s.ctx = f :: rest → labelAddrOf f l s = some a → ∃ t, exec (.jmp l) s = .next t ∧
      t.visible = State.visible { s with ip := a }

/-- JZ is taken when bit 1 of PS is set, JS when bit 0 is set, JNZ when PS is not exactly 2: taken they jump as JMP
does, not taken they change nothing, whatever the label (R214, R215, R216; that a label is looked up only when the jump
is taken is decision D25). The last clause is the table of R217 for the six values that PS can hold. -/
def Obligations.ConditionalJumpEffect : Prop :=
  ∀ (s : State) (l : Nat),
    (s.ps.getLsbD 1 = false → ∃ t, exec (.jz l) s = .next t ∧ t.visible = s.visible) ∧
    (s.ps.getLsbD 0 = false → ∃ t, exec (.js l) s = .next t ∧ t.visible = s.visible) ∧
    (s.ps = 2 → ∃ t, exec (.jnz l) s = .next t ∧ t.visible = s.visible) ∧
    (∀ f rest a, s.ctx = f :: rest → labelAddrOf f l s = some a →
      (s.ps.getLsbD 1 = true →
        ∃ t, exec (.jz l) s = .next t ∧ t.visible = State.visible { s with ip := a }) ∧
      (s.ps.getLsbD 0 = true →
        ∃ t, exec (.js l) s = .next t ∧ t.visible = State.visible { s with ip := a }) ∧
      (s.ps ≠ 2 → ∃ t, exec (.jnz l) s = .next t ∧ t.visible = State.visible { s with ip := a })) ∧
    [0, 1, 2, 12, 13, 14].map (fun ps => (takenJz ps, takenJs ps, takenJnz ps)) =
      [(false, false, true), (false, true, true), (true, false, false), (false, false, true),
       (false, true, true), (true, false, true)]

/-- CALL completes on a declared function while SP is 1 to STACK_DEPTH and CTX has room: the return address goes to the
slot below SP, IP to the entry, the function on the context stack, AC to BR, and AC keeps its value (R212). CTX always
has room on this hardware, whose CTX_DEPTH is unbounded (decision D27, log 19). -/
def Obligations.CallEffect : Prop :=
  ∀ (s : State) (f : Nat) (e : Word), entryOf f s = some e → 1 ≤ s.sp.toInt → s.sp.toInt ≤ s.cfg.stackDepth →
    (∀ d, s.cfg.ctxDepth = some d → s.ctx.length < d) →
    ∃ t, exec (.call f) s = .next t ∧
      t.visible = State.visible
        { s with br := s.ac, sp := s.sp - 1, ip := e, ctx := f :: s.ctx, stack := t.stack } ∧
      t.sp.toInt = s.sp.toInt - 1 ∧
      ∀ i, stackSlot i t = if i = t.sp.toInt.toNat then s.ip else stackSlot i s

/-- RET completes while the context stack is not empty and SP is 0 to STACK_DEPTH-1: IP is the slot at SP, SP moves by the
pop policy, the context loses its top, AC goes to BR and keeps its value (R213). -/
def Obligations.RetEffect : Prop :=
  ∀ (s : State) (f : Nat) (rest : List Nat), s.ctx = f :: rest → 0 ≤ s.sp.toInt → s.sp.toInt < s.cfg.stackDepth →
    ∃ t, exec .ret s = .next t ∧
      t.visible = State.visible
        { s with br := s.ac, ip := stackSlot s.sp.toInt.toNat s, sp := t.sp, ctx := rest } ∧
      (s.cfg.popPolicy = .literal → t.sp.toInt = s.sp.toInt - 1) ∧
      (s.cfg.popPolicy = .corrected → t.sp = s.sp + 1)

/-- HLT always completes: RUN becomes Halted, nothing else changes, and no step follows (R143; the refusal after
the end is the model's choice, log 14). -/
def Obligations.HltEffect : Prop :=
  ∀ s : State, ∃ t, exec .hlt s = .next t ∧ t.visible = State.visible { s with run := .halted } ∧
    step t = .refused .runEnded

/-! ### Faults -/

/-- Operand resolution faults come first: an address outside memory, an undeclared variable; then DIV faults on an
operand that is zero; ST, LD INPUT and ST OUTPUT fault as their targets say (R242, R243, R247, R252; the bounds of
reads are decision D12, a full output buffer is decision D20). -/
def Obligations.OperandStoreAndBufferFaults : Prop :=
  ∀ s : State,
    (∀ n, s.cfg.memSize ≤ n → ∀ i ∈ [Instr.addAbs n, .subAbs n, .mulAbs n, .divAbs n, .cmpAbs n, .ldAbs n],
      exec i s = .fault .addressOutOfRange) ∧
    (∀ x, varAddrOf x s = none → ∀ i ∈ [Instr.addVar x, .subVar x, .mulVar x, .divVar x, .cmpVar x, .ldVar x],
      exec i s = .fault .undefinedVariable) ∧
    (∀ x a, varAddrOf x s = some a → s.cfg.memSize ≤ a →
      ∀ i ∈ [Instr.addVar x, .subVar x, .mulVar x, .divVar x, .cmpVar x, .ldVar x],
        exec i s = .fault .addressOutOfRange) ∧
    (∀ n, n < s.cfg.memSize → cellValue n s = 0 → exec (.divAbs n) s = .fault .divisionByZero) ∧
    exec (.divImm 0) s = .fault .divisionByZero ∧
    (∀ x a, varAddrOf x s = some a → a < s.cfg.memSize → cellValue a s = 0 →
      exec (.divVar x) s = .fault .divisionByZero) ∧
    (∀ n, s.cfg.memSize ≤ n → exec (.stAbs n) s = .fault .addressOutOfRange) ∧
    (∀ x, varAddrOf x s = none → exec (.stVar x) s = .fault .undefinedVariable) ∧
    (∀ x a, varAddrOf x s = some a → s.cfg.memSize ≤ a → exec (.stVar x) s = .fault .addressOutOfRange) ∧
    (s.cfg.memSize ≤ s.inCur → exec .ldInput s = .fault .addressOutOfRange) ∧
    (s.cfg.outCapacity ≤ s.out.length → exec .stOutput s = .fault .addressOutOfRange)

/-- PUSH faults when SP is not 1 to STACK_DEPTH, POP when SP is not 0 to STACK_DEPTH-1; jumps, CALL and RET fault in
their order: the context stack, the table, then the stack index (R201, R203, R242, R244, R245, R249, R252; decisions
D12, D26, D27, D28). That a CALL beyond a bounded CTX_DEPTH faults is the model's choice (log 19), and the parameters
are those of log 31. -/
def Obligations.StackAndControlFaults : Prop :=
  ∀ s : State, s.cfg.wf = true →
    (s.sp.toInt < 1 ∨ s.cfg.stackDepth < s.sp.toInt → exec .push s = .fault .addressOutOfRange) ∧
    (s.sp.toInt < 0 ∨ s.cfg.stackDepth ≤ s.sp.toInt → exec .pop s = .fault .addressOutOfRange) ∧
    (∀ f d, s.cfg.ctxDepth = some d → d ≤ s.ctx.length → entryOf f s ≠ none →
      exec (.call f) s = .fault .addressOutOfRange) ∧
    (s.ctx = [] →
      exec .ret s = .fault .contextUnderflow ∧
      ∀ l, exec (.jmp l) s = .fault .contextUnderflow ∧
        (s.ps.getLsbD 1 = true → exec (.jz l) s = .fault .contextUnderflow) ∧
        (s.ps.getLsbD 0 = true → exec (.js l) s = .fault .contextUnderflow) ∧
        (s.ps ≠ 2 → exec (.jnz l) s = .fault .contextUnderflow)) ∧
    (∀ f rest l, s.ctx = f :: rest → labelAddrOf f l s = none →
      exec (.jmp l) s = .fault .undefinedLabel ∧
      (s.ps.getLsbD 1 = true → exec (.jz l) s = .fault .undefinedLabel) ∧
      (s.ps.getLsbD 0 = true → exec (.js l) s = .fault .undefinedLabel) ∧
      (s.ps ≠ 2 → exec (.jnz l) s = .fault .undefinedLabel)) ∧
    (∀ f, entryOf f s = none → exec (.call f) s = .fault .undefinedFunction) ∧
    (∀ f e, entryOf f s = some e → s.sp.toInt < 1 ∨ s.cfg.stackDepth < s.sp.toInt →
      exec (.call f) s = .fault .addressOutOfRange) ∧
    (∀ f rest, s.ctx = f :: rest → s.sp.toInt < 0 ∨ s.cfg.stackDepth ≤ s.sp.toInt →
      exec .ret s = .fault .addressOutOfRange)

/-! ### Invariants and whole-machine rules -/

/-- The reset state: the parameters of this hardware are those of rule R5, and after reset every component is at the
value that rule R41 gives it, every cell, instruction field and stack slot included, whatever the parameters (R5, R41,
R270; the values are decisions D8, D9, D10, D14, D15, D19, D27, D33, D34, D36, D38 and D40, log 2 to 8, 15, 16, 19 and
27; OUT_CAPACITY is free, log 9). Beside R41 three clauses rest on the model's choices (DESIGN CHOICE): the program tables
are empty before a load (log 11), the context stack holds the name `_START` as a number (log 12), which decision D4
fixes at 0, and the parameters stand in State (log 6). -/
def Obligations.ResetState : Prop :=
  State.reset = State.resetWith
    { memSize := 1024
      stackDepth := 1024
      spInit := 1024
      inputBase := 767
      popPolicy := .literal
      cellDefault := 0
      stackDefault := 0
      entryIp := 0
      outCapacity := Config.outCapacity
      foldPolicy := .literal
      narrowPolicy := .wrap32
      maxSteps := none
      ctxDepth := none } ∧
  ∀ p : Params,
    let s := State.resetWith p
    s.ac = 0 ∧ s.br = 0 ∧ s.sp = p.spInit ∧ s.ps = 0 ∧ s.ip = p.entryIp ∧ s.ar = 0 ∧ s.ir = none ∧
    (∀ a, cellValue a s = p.cellDefault ∧ s.mem.instr a = none ∧ stackSlot a s = p.stackDefault) ∧
    s.out = [] ∧ s.inCur = p.inputBase ∧ s.ctx = [0] ∧ s.run = .running ∧
    s.aluLeft = 0 ∧ s.aluRight = 0 ∧ s.aluFlags = 0 ∧ s.tick = 0 ∧
    s.tables = { funcs := [], varAddr := [] } ∧ s.cfg = p

/-- The reset state of this hardware meets the invariant (R41, R270; its values are decisions D8 to D10, log 2 to 5). -/
def Obligations.ResetMeetsInv : Prop := Inv State.reset

/-- A program loaded into a machine with sound parameters starts in a state that meets the invariant (R41, R271, R272;
log 31). -/
def Obligations.LoadMeetsInv : Prop :=
  ∀ (r : RunInput) (s : State), r.params.wf = true → load r = .ok s → Inv s

/-- Every step keeps the invariant: sound parameters, memory and stack canonical, the output and CTX within their
capacities, the cursor in the input region, PS one of its six values, SP -1 to STACK_DEPTH, AR a cell address, IR
well-formed, the ALU's slots zero. -/
def Obligations.StepKeepsInv : Prop := ∀ s t : State, Inv s → step s = .next t → Inv t

/-- The instruction fields are populated by the load, at the addresses of the code only, and no step changes one; a
write of a value field never changes an instruction field, nor the other way round (R31). -/
def Obligations.InstructionFieldsChangeOnlyAtLoad : Prop :=
  (∀ s t : State, step s = .next t → ∀ a, t.mem.instr a = s.mem.instr a) ∧
  (∀ (r : RunInput) (s : State), load r = .ok s → ∀ a, r.code.length ≤ a → s.mem.instr a = none) ∧
  (∀ (m : Memory) (a b : Nat) (d v : Word) (i : Option Instr),
    (m.setValue d a v).instr b = m.instr b ∧ (m.setInstr a i).value d b = m.value d b)

/-- The program tables and the parameters are constant during a run (R40; their place in State is log 6 and 11). -/
def Obligations.TablesAndParametersAreConstant : Prop :=
  ∀ s t : State, step s = .next t → t.tables = s.tables ∧ t.cfg = s.cfg

/-- Who writes what: every instruction leaves alone each component that the table of rule R42 does not let it write
(R22 to R27, R35, R42). -/
def Obligations.RegisterAccessTable : Prop :=
  ∀ (i : Instr) (s t : State), exec i s = .next t →
    (i.mayWriteAc = false → t.ac = s.ac) ∧ (i.mayWritePs = false → t.ps = s.ps) ∧
    (i.isCallOrRet = false → t.br = s.br ∧ t.ctx = s.ctx) ∧ (i.mayWriteSp = false → t.sp = s.sp) ∧
    (i.mayWriteStack = false → t.stack = s.stack) ∧ (i.mayWriteIp = false → t.ip = s.ip) ∧
    (i.mayWriteAr = false → t.ar = s.ar) ∧ (i.mayWriteMem = false → t.mem = s.mem) ∧
    (i ≠ .ldInput → t.inCur = s.inCur) ∧ (i ≠ .stOutput → t.out = s.out) ∧
    (i ≠ .hlt → t.run = s.run) ∧ t.ir = s.ir

/-- The hidden flag byte: ADD, SUB and CMP compute it and copy it to PS; every other instruction that does not move SP
leaves it, INV included (R38, R123; after a move of SP it is a free value, log 16). -/
def Obligations.FlagByteIsAddAndSubtractOnly : Prop :=
  ∀ (i : Instr) (s t : State), exec i s = .next t →
    (i.mayWritePs = true → i ≠ .inv → t.ps = psOf t.aluFlags) ∧
    (i.mayWritePs = false ∨ i = .inv → i.mayWriteSp = false → t.aluFlags = s.aluFlags)

/-- A step that answers a next state ends the run exactly when the instruction it ran is HLT (R143, R147). -/
def Obligations.OnlyHltEndsTheRun : Prop :=
  ∀ s t : State, s.run = .running → step s = .next t →
    (t.run ≠ .running ↔ t.ir = some .hlt)

/-- In literal mode SP never rises: PUSH, POP, CALL and RET each lower it by one and nothing else writes it
(R204; for the parameters of log 31). -/
def Obligations.LiteralModeSpNeverRises : Prop :=
  ∀ (i : Instr) (s t : State), s.cfg.wf = true → s.cfg.popPolicy = .literal → exec i s = .next t →
    t.sp.toInt = (if i.mayWriteSp = true then s.sp.toInt - 1 else s.sp.toInt)

/-- A step only appends to the output buffer, by at most one entry, and never moves the input cursor back
(R33, R34). -/
def Obligations.BuffersOnlyAdvance : Prop :=
  ∀ s t : State, step s = .next t →
    (t.out = s.out ∨ t.out = s.out ++ [s.ac]) ∧ (t.inCur = s.inCur ∨ t.inCur = s.inCur + 1)

/-- The hidden components and the diagnostic registers AR and IR never change the outcome of a step: states that
differ in them only have outcomes that differ in them only (R20, R26, R37 to R39). -/
def Obligations.HiddenAndDiagnosticStateIsInvisible : Prop :=
  ∀ s t : State, s.undiagnosed = t.undiagnosed →
    undiagnosedOutcome (step s) = undiagnosedOutcome (step t)

/-! ### Sequences -/

/-- PUSH and then POP gives back the value pushed, whatever happened to AC in between; SP ends two lower in literal
mode and where it was in corrected mode (R203, R204). -/
def Obligations.PushThenPopRestoresAc : Prop :=
  ∀ (s : State) (x : Word), 1 ≤ s.sp.toInt → s.sp.toInt ≤ s.cfg.stackDepth →
    ∃ t u, exec .push s = .next t ∧ exec .pop { t with ac := x } = .next u ∧ u.ac = s.ac ∧
      (s.cfg.popPolicy = .literal → u.sp.toInt = s.sp.toInt - 2) ∧
      (s.cfg.popPolicy = .corrected → u.sp = s.sp)

/-- CALL and then RET comes back: IP is the address after the CALL, the context stack is as before, AC is what the
callee left (R212, R213, R218). -/
def Obligations.CallThenRetReturns : Prop :=
  ∀ (s : State) (f : Nat) (e x : Word), entryOf f s = some e → 1 ≤ s.sp.toInt → s.sp.toInt ≤ s.cfg.stackDepth →
    (∀ d, s.cfg.ctxDepth = some d → s.ctx.length < d) →
    ∃ t u, exec (.call f) s = .next t ∧ t.ac = s.ac ∧ t.ip = e ∧
      exec .ret { t with ac := x } = .next u ∧ u.ac = x ∧ u.ip = s.ip ∧ u.ctx = s.ctx ∧
      (s.cfg.popPolicy = .literal → u.sp.toInt = s.sp.toInt - 2) ∧
      (s.cfg.popPolicy = .corrected → u.sp = s.sp)

/-- Two calls and two returns: the inner return is right in both modes; the outer one is right in corrected mode and
in literal mode jumps to the slot two below the return address, which no CALL wrote (R219). -/
def Obligations.NestedCallsByPopPolicy : Prop :=
  ∀ (s : State) (f g : Nat) (e e' : Word), entryOf f s = some e → entryOf g s = some e' →
    3 ≤ s.sp.toInt → s.sp.toInt ≤ s.cfg.stackDepth →
    (∀ n, s.cfg.ctxDepth = some n → s.ctx.length + 1 < n) →
    ∃ a b c d, exec (.call f) s = .next a ∧ exec (.call g) a = .next b ∧ exec .ret b = .next c ∧
      exec .ret c = .next d ∧ c.ip = a.ip ∧ d.ac = s.ac ∧ d.ctx = s.ctx ∧
      (s.cfg.popPolicy = .literal →
        d.ip = stackSlot (s.sp.toInt - 3).toNat s ∧ d.sp.toInt = s.sp.toInt - 4) ∧
      (s.cfg.popPolicy = .corrected → d.ip = s.ip ∧ d.sp = s.sp)

/-! ### Load, run and result -/

/-- A load succeeds exactly when a decoded program is well-formed throughout and every word of a binary image decodes,
every integer literal is in int32, the input text and the program image fit, every text initializer fits its declared
length, and no name is declared twice (R273; ill-formed words are decision D6, declarations D23, the image check D24;
that an address or symbol number of 2^32 and more is ill-formed in a decoded program is log 29). -/
def Obligations.LoadSucceedsExactlyWhenChecksPass : Prop :=
  ∀ r : RunInput, (∃ s, load r = .ok s) ↔
    (∀ is, r.code = .decoded is → ∀ i ∈ is, i.wf = true) ∧
    (∀ ws, r.code = .binary ws → ∀ w ∈ ws, ∃ i, decode w = .ok i) ∧
    (∀ d ∈ r.vars, ∀ k, d.init = .int k → InInt32 k) ∧
    (∀ d ∈ r.vars, ∀ cs len, d.init = .chars cs len → (cs.length : Int) ≤ len) ∧
    (∀ cs, r.text = some cs → r.params.inputBase + cs.length ≤ r.params.memSize ∧
      r.code.length + varCells r.vars ≤ r.params.inputBase) ∧
    r.code.length + varCells r.vars ≤ r.params.memSize ∧
    (r.vars.map VarDecl.name).Nodup

/-- What a load leaves: `Code[a]` in the instruction field of cell a and none beyond; variable number k at the end of
the code and the variables before it, and no address for a number beyond the declarations; each initializer in its
cells, the input text from INPUT_BASE up, and CELL_DEFAULT in every other value field; every other component at its
reset value (R41, R67, R75, R272, R274). The reset values and the default are decisions D8, D9, D10, D36 and D38, the
order of the variables is D22 (log 2, 4, 5, 25), and a text initializer is padded as log 26 says. -/
def Obligations.LoadedProgramLayout : Prop :=
  ∀ (r : RunInput) (s : State), load r = .ok s →
    (∃ is, r.code.instrs = .ok is ∧ ∀ a, s.mem.instr a = is[a]?) ∧
    (∀ k d, r.vars[k]? = some d →
      ∃ a, varAddrOf k s = some a ∧ a = r.code.length + varCells (r.vars.take k) ∧
        (∀ x, d.init = .int x → cellValue a s = Word.ofInt x) ∧
        (∀ cs len j, d.init = .chars cs len → j < len.toNat →
          cellValue (a + j) s = (cs[j]?).elim r.params.cellDefault (fun c => charCode (some c)))) ∧
    (∀ k, r.vars.length ≤ k → varAddrOf k s = none) ∧
    (∀ cs j c, r.text = some cs → cs[j]? = some c →
      cellValue (r.params.inputBase + j) s = charCode (some c)) ∧
    (∀ b, (b < r.code.length ∨ r.code.length + varCells r.vars ≤ b) →
      (∀ cs, r.text = some cs → b < r.params.inputBase ∨ r.params.inputBase + cs.length ≤ b) →
      cellValue b s = r.params.cellDefault) ∧
    { s with mem := { vals := [], instrs := [] }, tables := { funcs := [], varAddr := [] } } =
      State.resetWith r.params ∧
    s.tables.funcs = r.funcs

/-- The fault status: a step that faults with K ends the run in Faulted(K), nothing runs after it, and the outcome of the
run is (c) of R12 with that K, unless the ceiling comes first; and a run that ends Faulted(K) ran some number of steps
to a running state whose step faults with K (R9, R12, R36, R240). The model's choices (DESIGN CHOICE): that the loop,
not the step, sets the status (log 13), that a step from the ended run is refused with runEnded (log 14), and the
ceiling (log 27). -/
def Obligations.FaultedStepEndsTheRun : Prop :=
  (∀ (s : State) (k : Fault), s.run = .running → step s = .fault k →
    (advance s).run = .faulted k ∧ step (advance s) = .refused .runEnded ∧
    (∀ n, runFor n (advance s) = advance s) ∧
    (s.cfg.maxSteps ≠ some 0 → ∀ n, runLoop (n + 1) s = .faulted k)) ∧
  (∀ (s : State) (k : Fault) (n : Nat), s.run = .running → runLoop n s = .faulted k →
    ∃ m, m < n ∧ (runFor m s).run = .running ∧ step (runFor m s) = .fault k)

/-- The result of a halted run is its outcome (b); with output written it is the text of the characters that DEC gives
the written codes in order, and no text exactly when some code has no character (log 22); without output it is the
decimal numeral of AC (R12, R145). -/
def Obligations.HaltedRunGivesItsResult : Prop :=
  (∀ (s : State) (n : Nat), s.run = .halted → runLoop n s = .halted (result s)) ∧
  (∀ s : State, s.out ≠ [] →
    (∀ cs, result s = some cs ↔ List.Forall₂ (fun w c => Config.dec w = some c) s.out cs) ∧
    (result s = none ↔ ∃ w ∈ s.out, Config.dec w = none)) ∧
  (∀ s : State, s.out = [] → result s = some (decimal s.ac.toInt))

/-- A program that only executes HLT returns the text 0 in every machine that starts at address 0 of a memory and whose
ceiling lets a step run (R145; AC is 0 at reset by decision D8, IP by D38; log 4, 5, 27). -/
def Obligations.HltProgramReturnsZero : Prop :=
  ∀ (p : Params) (n : Nat), p.entryIp = 0 → 0 < p.memSize → p.maxSteps ≠ some 0 →
    runProgram (n + 1) { code := .binary [0x0000000000], funcs := [], vars := [], text := none, params := p } =
      .halted (some ['0'])
end

