-- ==== Sys2Proof/Laws/Encoding.lean ====
section
/-!
SUPPORT. The fields of a packed word, and the numbers of mnemonics and modes.
-/
namespace Sys2Proof

@[simp] theorem mnemonicOf_opcodeOf (m : Mnemonic) : mnemonicOf (opcodeOf m) = some m := by
  cases m <;> rfl

@[simp] theorem modeOf_modeNumber (m : Mode) : modeOf (modeNumber m) = m := by
  cases m <;> rfl

theorem opcodeField_pack (m : Mnemonic) (mode : Mode) (x : BitVec 32) :
    opcodeField (pack m mode x) = opcodeOf m := by
  unfold opcodeField pack
  apply BitVec.eq_of_getLsbD_eq
  intro i hi
  simp only [BitVec.getLsbD_extractLsb', BitVec.getLsbD_append]
  have h1 : ¬ 35 + i < 32 := by omega
  have h2 : ¬ 35 + i - 32 < 3 := by omega
  have h3 : 35 + i - 32 - 3 = i := by omega
  simp [hi, h1, h2, h3]

theorem modeField_pack (m : Mnemonic) (mode : Mode) (x : BitVec 32) :
    modeField (pack m mode x) = modeNumber mode := by
  unfold modeField pack
  apply BitVec.eq_of_getLsbD_eq
  intro i hi
  simp only [BitVec.getLsbD_extractLsb', BitVec.getLsbD_append]
  have h1 : ¬ 32 + i < 32 := by omega
  have h2 : 32 + i - 32 < 3 := by omega
  have h3 : 32 + i - 32 = i := by omega
  simp [hi, h1, h3]

theorem operandField_pack (m : Mnemonic) (mode : Mode) (x : BitVec 32) :
    operandField (pack m mode x) = x := by
  unfold operandField pack
  apply BitVec.eq_of_getLsbD_eq
  intro i hi
  simp only [BitVec.getLsbD_extractLsb', BitVec.getLsbD_append]
  simp [hi]

/-- Decoding a packed word gives what its three parts assemble to. -/
theorem decode_pack (m : Mnemonic) (mode : Mode) (x : BitVec 32) :
    decode (pack m mode x) = assemble m mode x := by
  simp [decode, opcodeField_pack, modeField_pack, operandField_pack]

/-- A natural in the range of the operand field survives it. -/
theorem toNat_ofNat_fits {n : Nat} (h : fits32 n = true) : (Word.ofNat n).toNat = n := by
  simp only [fits32, decide_eq_true_eq] at h
  simp only [Word.ofNat, BitVec.toNat_ofNat]
  omega

/-- An integer of int32 survives its word. -/
theorem toInt_ofInt_fits {k : Int} (h : InInt32 k) : (Word.ofInt k).toInt = k := by
  obtain ⟨h1, h2⟩ := h
  simp only [intMin, intMax] at h1 h2
  rw [BitVec.toInt_ofInt]
  exact Int.bmod_eq_of_le (by omega) (by omega)

end Sys2Proof
end

