-- ==== Sys2Proof/Laws/Memory.lean ====
section
/-!
SUPPORT. The laws of sparse arrays, main memory and the value stack: a read after a write, and the canonical form
that every operation keeps.
-/
namespace Sys2Proof.Machine

variable {α : Type}

theorem lookupKey_insertKey_same (k : Nat) (v : α) (l : List (Nat × α)) :
    lookupKey k (insertKey k v l) = some v := by
  induction l with
  | nil => simp [insertKey, lookupKey]
  | cons e rest ih =>
    obtain ⟨a, x⟩ := e
    simp only [insertKey]
    split
    · simp [lookupKey]
    · split
      · simp [lookupKey]
      · rename_i h
        simp only [lookupKey]
        rw [if_neg (fun h' => h h'.symm)]
        exact ih

theorem lookupKey_insertKey_other {k b : Nat} (h : b ≠ k) (v : α) (l : List (Nat × α)) :
    lookupKey b (insertKey k v l) = lookupKey b l := by
  induction l with
  | nil => simp [insertKey, lookupKey, Ne.symm h]
  | cons e rest ih =>
    obtain ⟨a, x⟩ := e
    simp only [insertKey]
    split
    · simp [lookupKey, Ne.symm h]
    · split
      · rename_i hk
        subst hk
        simp [lookupKey, Ne.symm h]
      · simp [lookupKey, ih]

theorem lookupKey_removeKey_same (k : Nat) (l : List (Nat × α)) : lookupKey k (removeKey k l) = none := by
  induction l with
  | nil => rfl
  | cons e rest ih =>
    obtain ⟨a, x⟩ := e
    simp only [removeKey]
    split
    · exact ih
    · rename_i h
      simp [lookupKey, h, ih]

theorem lookupKey_removeKey_other {k b : Nat} (h : b ≠ k) (l : List (Nat × α)) :
    lookupKey b (removeKey k l) = lookupKey b l := by
  induction l with
  | nil => rfl
  | cons e rest ih =>
    obtain ⟨a, x⟩ := e
    simp only [removeKey, lookupKey]
    split
    · rename_i ha
      rw [if_neg (by omega)]
      exact ih
    · simp [lookupKey, ih]

/-- The entry that a lookup finds is listed. -/
theorem lookupKey_mem {k : Nat} {v : α} {l : List (Nat × α)} (h : lookupKey k l = some v) : (k, v) ∈ l := by
  induction l with
  | nil => simp [lookupKey] at h
  | cons e rest ih =>
    obtain ⟨a, x⟩ := e
    simp only [lookupKey] at h
    split at h
    · rename_i ha
      simp only [Option.some.injEq] at h
      subst ha h
      exact List.mem_cons_self
    · exact List.mem_cons_of_mem _ (ih h)

/-- In a list without a key twice an entry is found exactly when it stands there. -/
theorem lookupKey_iff_mem {k : Nat} {v : α} {l : List (Nat × α)} (h : (l.map Prod.fst).Nodup) :
    lookupKey k l = some v ↔ (k, v) ∈ l := by
  refine ⟨lookupKey_mem, fun hm => ?_⟩
  induction l with
  | nil => cases hm
  | cons e rest ih =>
    obtain ⟨a, x⟩ := e
    rw [List.map_cons, List.nodup_cons] at h
    rcases List.mem_cons.mp hm with he | he
    · cases he
      simp [lookupKey]
    · have hk : a ≠ k := by
        rintro rfl
        exact h.1 (List.mem_map.mpr ⟨_, he, rfl⟩)
      simp only [lookupKey, if_neg hk]
      exact ih h.2 he

theorem risingFrom_mono {lo lo' : Nat} (h : lo' ≤ lo) {l : List (Nat × α)} (hl : risingFrom lo l = true) :
    risingFrom lo' l = true := by
  cases l with
  | nil => rfl
  | cons e rest =>
    obtain ⟨a, x⟩ := e
    simp only [risingFrom, Bool.and_eq_true, decide_eq_true_eq] at hl ⊢
    exact ⟨by omega, hl.2⟩

theorem risingFrom_insertKey {lo k : Nat} (hk : lo ≤ k) (v : α) {l : List (Nat × α)}
    (hl : risingFrom lo l = true) : risingFrom lo (insertKey k v l) = true := by
  induction l generalizing lo with
  | nil => simp [insertKey, risingFrom, hk]
  | cons e rest ih =>
    obtain ⟨a, x⟩ := e
    simp only [risingFrom, Bool.and_eq_true, decide_eq_true_eq] at hl
    simp only [insertKey]
    split
    · simp only [risingFrom, Bool.and_eq_true, decide_eq_true_eq]
      exact ⟨hk, by omega, hl.2⟩
    · split
      · rename_i h
        subst h
        simp only [risingFrom, Bool.and_eq_true, decide_eq_true_eq]
        exact hl
      · simp only [risingFrom, Bool.and_eq_true, decide_eq_true_eq]
        exact ⟨hl.1, ih (by omega) hl.2⟩

theorem risingFrom_removeKey {lo : Nat} (k : Nat) {l : List (Nat × α)} (hl : risingFrom lo l = true) :
    risingFrom lo (removeKey k l) = true := by
  induction l generalizing lo with
  | nil => rfl
  | cons e rest ih =>
    obtain ⟨a, x⟩ := e
    simp only [risingFrom, Bool.and_eq_true, decide_eq_true_eq] at hl
    simp only [removeKey]
    split
    · exact risingFrom_mono (by omega) (ih hl.2)
    · simp only [risingFrom, Bool.and_eq_true, decide_eq_true_eq]
      exact ⟨hl.1, ih hl.2⟩

/-- A predicate on the entries survives an insertion that satisfies it. -/
theorem all_insertKey {p : Nat × α → Bool} {k : Nat} {v : α} (hv : p (k, v) = true) {l : List (Nat × α)}
    (hl : l.all p = true) : (insertKey k v l).all p = true := by
  induction l with
  | nil => simp [insertKey, hv]
  | cons e rest ih =>
    obtain ⟨a, x⟩ := e
    simp only [List.all_cons, Bool.and_eq_true] at hl
    simp only [insertKey]
    split
    · simp [hv, hl.1, hl.2]
    · split
      · simp [hv, hl.2]
      · simp [hl.1, ih hl.2]

/-- A predicate on the entries survives a removal. -/
theorem all_removeKey {p : Nat × α → Bool} (k : Nat) {l : List (Nat × α)} (hl : l.all p = true) :
    (removeKey k l).all p = true := by
  induction l with
  | nil => rfl
  | cons e rest ih =>
    obtain ⟨a, x⟩ := e
    simp only [List.all_cons, Bool.and_eq_true] at hl
    simp only [removeKey]
    split
    · exact ih hl.2
    · simp [hl.1, ih hl.2]

/-! ### Sparse arrays -/

/-- A read after a write: the written key gives the value written, every other key what it gave before. -/
theorem sparseRead_sparseWrite (d : Word) (k b : Nat) (v : Word) (l : List (Nat × Word)) :
    sparseRead d b (sparseWrite d k v l) = if b = k then v else sparseRead d b l := by
  unfold sparseRead sparseWrite
  by_cases hb : b = k
  · subst hb
    rw [if_pos rfl]
    split
    · rename_i hv
      simp [lookupKey_removeKey_same, hv]
    · simp [lookupKey_insertKey_same]
  · rw [if_neg hb]
    split
    · rw [lookupKey_removeKey_other hb]
    · rw [lookupKey_insertKey_other hb]

/-- A write within the array keeps the canonical form. -/
theorem sparseWf_sparseWrite {d : Word} {size k : Nat} (hk : k < size) (v : Word) {l : List (Nat × Word)}
    (hl : sparseWf d size l = true) : sparseWf d size (sparseWrite d k v l) = true := by
  simp only [sparseWf, Bool.and_eq_true] at hl ⊢
  unfold sparseWrite
  split
  · exact ⟨risingFrom_removeKey k hl.1, all_removeKey k hl.2⟩
  · rename_i hv
    exact ⟨risingFrom_insertKey (Nat.zero_le k) v hl.1, all_insertKey (by simp [hk, hv]) hl.2⟩

/-! ### Main memory -/

@[simp] theorem Memory.value_setValue (m : Memory) (d : Word) (a b : Nat) (v : Word) :
    (m.setValue d a v).value d b = if b = a then v else m.value d b :=
  sparseRead_sparseWrite _ _ _ _ _

@[simp] theorem Memory.instr_setValue (m : Memory) (d : Word) (a b : Nat) (v : Word) :
    (m.setValue d a v).instr b = m.instr b := rfl

@[simp] theorem Memory.instrs_setValue (m : Memory) (d : Word) (a : Nat) (v : Word) :
    (m.setValue d a v).instrs = m.instrs := rfl

@[simp] theorem Memory.value_setInstr (m : Memory) (d : Word) (a b : Nat) (i : Option Instr) :
    (m.setInstr a i).value d b = m.value d b := by
  cases i <;> rfl

@[simp] theorem Memory.vals_setInstr (m : Memory) (a : Nat) (i : Option Instr) :
    (m.setInstr a i).vals = m.vals := by
  cases i <;> rfl

@[simp] theorem Memory.instr_setInstr (m : Memory) (a b : Nat) (i : Option Instr) :
    (m.setInstr a i).instr b = if b = a then i else m.instr b := by
  by_cases hb : b = a
  · subst hb
    cases i <;> simp [Memory.setInstr, Memory.instr, lookupKey_insertKey_same, lookupKey_removeKey_same]
  · cases i <;>
      simp [Memory.setInstr, Memory.instr, hb, lookupKey_insertKey_other hb, lookupKey_removeKey_other hb]

/-- A write of a value field keeps the canonical form of memory. -/
theorem Memory.wf_setValue {m : Memory} {d : Word} {size : Nat} (h : m.wf d size = true) {a : Nat} (ha : a < size)
    (v : Word) : (m.setValue d a v).wf d size = true := by
  simp only [Memory.wf, Bool.and_eq_true] at h ⊢
  exact ⟨sparseWf_sparseWrite ha v h.1, h.2⟩

/-- Placing a well-formed instruction, or none, keeps the canonical form of memory. -/
theorem Memory.wf_setInstr {m : Memory} {d : Word} {size : Nat} (h : m.wf d size = true) {a : Nat} (ha : a < size)
    {i : Option Instr} (hi : ∀ j, i = some j → j.wf = true) : (m.setInstr a i).wf d size = true := by
  simp only [Memory.wf, Bool.and_eq_true] at h ⊢
  cases i with
  | none => exact ⟨h.1, risingFrom_removeKey a h.2.1, all_removeKey a h.2.2⟩
  | some j =>
    exact ⟨h.1, risingFrom_insertKey (Nat.zero_le a) j h.2.1,
      all_insertKey (by simp [ha, hi j rfl]) h.2.2⟩

/-- An instruction found in canonical memory is well-formed. -/
theorem Memory.wf_instr {m : Memory} {d : Word} {size : Nat} (h : m.wf d size = true) {a : Nat} {i : Instr}
    (hi : m.instr a = some i) : i.wf = true := by
  simp only [Memory.wf, Bool.and_eq_true, List.all_eq_true, decide_eq_true_eq] at h
  exact (h.2.2 _ (lookupKey_mem hi)).2

/-! ### Cells and slots of a state -/

/-- A cell after a write of its memory. -/
theorem cellValue_setMem (s : State) (a b : Nat) (v : Word) :
    cellValue b (s.setMem (s.mem.setValue s.cfg.cellDefault a v)) = if b = a then v else cellValue b s :=
  Memory.value_setValue _ _ _ _ _

/-- The cells depend on the memory and its default only. -/
theorem cellValue_congr {s t : State} (hm : t.mem = s.mem) (hc : t.cfg = s.cfg) (a : Nat) :
    cellValue a t = cellValue a s := by
  unfold cellValue
  rw [hm, hc]

/-- A slot after a write of the stack list. -/
theorem stackSlot_setStack (s : State) (k i : Nat) (v : Word) :
    stackSlot i (s.setStack (sparseWrite s.cfg.stackDefault k v s.stack)) =
      if i = k then v else stackSlot i s :=
  sparseRead_sparseWrite _ _ _ _ _

/-- The slots depend on the stack and its default only. -/
theorem stackSlot_congr {s t : State} (hm : t.stack = s.stack) (hc : t.cfg = s.cfg) (i : Nat) :
    stackSlot i t = stackSlot i s := by
  unfold stackSlot
  rw [hm, hc]

end Sys2Proof.Machine
end

