-- ==== Sys2Proof/Laws/State.lean ====
section
/-!
SUPPORT. What each named update of the state does to each field: one lemma per field per update.
-/
namespace Sys2Proof.Machine.State

@[simp] theorem setAc_ac (s : State) (v : Word) : (s.setAc v).ac = v := rfl
@[simp] theorem setAc_br (s : State) (v : Word) : (s.setAc v).br = s.br := rfl
@[simp] theorem setAc_sp (s : State) (v : Word) : (s.setAc v).sp = s.sp := rfl
@[simp] theorem setAc_ps (s : State) (v : Word) : (s.setAc v).ps = s.ps := rfl
@[simp] theorem setAc_ip (s : State) (v : Word) : (s.setAc v).ip = s.ip := rfl
@[simp] theorem setAc_ar (s : State) (v : Word) : (s.setAc v).ar = s.ar := rfl
@[simp] theorem setAc_ir (s : State) (v : Word) : (s.setAc v).ir = s.ir := rfl
@[simp] theorem setAc_mem (s : State) (v : Word) : (s.setAc v).mem = s.mem := rfl
@[simp] theorem setAc_stack (s : State) (v : Word) : (s.setAc v).stack = s.stack := rfl
@[simp] theorem setAc_out (s : State) (v : Word) : (s.setAc v).out = s.out := rfl
@[simp] theorem setAc_inCur (s : State) (v : Word) : (s.setAc v).inCur = s.inCur := rfl
@[simp] theorem setAc_ctx (s : State) (v : Word) : (s.setAc v).ctx = s.ctx := rfl
@[simp] theorem setAc_run (s : State) (v : Word) : (s.setAc v).run = s.run := rfl
@[simp] theorem setAc_aluLeft (s : State) (v : Word) : (s.setAc v).aluLeft = s.aluLeft := rfl
@[simp] theorem setAc_aluRight (s : State) (v : Word) : (s.setAc v).aluRight = s.aluRight := rfl
@[simp] theorem setAc_aluFlags (s : State) (v : Word) : (s.setAc v).aluFlags = s.aluFlags := rfl
@[simp] theorem setAc_tick (s : State) (v : Word) : (s.setAc v).tick = s.tick := rfl
@[simp] theorem setAc_tables (s : State) (v : Word) : (s.setAc v).tables = s.tables := rfl
@[simp] theorem setAc_cfg (s : State) (v : Word) : (s.setAc v).cfg = s.cfg := rfl

@[simp] theorem setBr_ac (s : State) (v : Word) : (s.setBr v).ac = s.ac := rfl
@[simp] theorem setBr_br (s : State) (v : Word) : (s.setBr v).br = v := rfl
@[simp] theorem setBr_sp (s : State) (v : Word) : (s.setBr v).sp = s.sp := rfl
@[simp] theorem setBr_ps (s : State) (v : Word) : (s.setBr v).ps = s.ps := rfl
@[simp] theorem setBr_ip (s : State) (v : Word) : (s.setBr v).ip = s.ip := rfl
@[simp] theorem setBr_ar (s : State) (v : Word) : (s.setBr v).ar = s.ar := rfl
@[simp] theorem setBr_ir (s : State) (v : Word) : (s.setBr v).ir = s.ir := rfl
@[simp] theorem setBr_mem (s : State) (v : Word) : (s.setBr v).mem = s.mem := rfl
@[simp] theorem setBr_stack (s : State) (v : Word) : (s.setBr v).stack = s.stack := rfl
@[simp] theorem setBr_out (s : State) (v : Word) : (s.setBr v).out = s.out := rfl
@[simp] theorem setBr_inCur (s : State) (v : Word) : (s.setBr v).inCur = s.inCur := rfl
@[simp] theorem setBr_ctx (s : State) (v : Word) : (s.setBr v).ctx = s.ctx := rfl
@[simp] theorem setBr_run (s : State) (v : Word) : (s.setBr v).run = s.run := rfl
@[simp] theorem setBr_aluLeft (s : State) (v : Word) : (s.setBr v).aluLeft = s.aluLeft := rfl
@[simp] theorem setBr_aluRight (s : State) (v : Word) : (s.setBr v).aluRight = s.aluRight := rfl
@[simp] theorem setBr_aluFlags (s : State) (v : Word) : (s.setBr v).aluFlags = s.aluFlags := rfl
@[simp] theorem setBr_tick (s : State) (v : Word) : (s.setBr v).tick = s.tick := rfl
@[simp] theorem setBr_tables (s : State) (v : Word) : (s.setBr v).tables = s.tables := rfl
@[simp] theorem setBr_cfg (s : State) (v : Word) : (s.setBr v).cfg = s.cfg := rfl

@[simp] theorem setSp_ac (s : State) (v : Word) : (s.setSp v).ac = s.ac := rfl
@[simp] theorem setSp_br (s : State) (v : Word) : (s.setSp v).br = s.br := rfl
@[simp] theorem setSp_sp (s : State) (v : Word) : (s.setSp v).sp = v := rfl
@[simp] theorem setSp_ps (s : State) (v : Word) : (s.setSp v).ps = s.ps := rfl
@[simp] theorem setSp_ip (s : State) (v : Word) : (s.setSp v).ip = s.ip := rfl
@[simp] theorem setSp_ar (s : State) (v : Word) : (s.setSp v).ar = s.ar := rfl
@[simp] theorem setSp_ir (s : State) (v : Word) : (s.setSp v).ir = s.ir := rfl
@[simp] theorem setSp_mem (s : State) (v : Word) : (s.setSp v).mem = s.mem := rfl
@[simp] theorem setSp_stack (s : State) (v : Word) : (s.setSp v).stack = s.stack := rfl
@[simp] theorem setSp_out (s : State) (v : Word) : (s.setSp v).out = s.out := rfl
@[simp] theorem setSp_inCur (s : State) (v : Word) : (s.setSp v).inCur = s.inCur := rfl
@[simp] theorem setSp_ctx (s : State) (v : Word) : (s.setSp v).ctx = s.ctx := rfl
@[simp] theorem setSp_run (s : State) (v : Word) : (s.setSp v).run = s.run := rfl
@[simp] theorem setSp_aluLeft (s : State) (v : Word) : (s.setSp v).aluLeft = s.aluLeft := rfl
@[simp] theorem setSp_aluRight (s : State) (v : Word) : (s.setSp v).aluRight = s.aluRight := rfl
@[simp] theorem setSp_aluFlags (s : State) (v : Word) : (s.setSp v).aluFlags = s.aluFlags := rfl
@[simp] theorem setSp_tick (s : State) (v : Word) : (s.setSp v).tick = s.tick := rfl
@[simp] theorem setSp_tables (s : State) (v : Word) : (s.setSp v).tables = s.tables := rfl
@[simp] theorem setSp_cfg (s : State) (v : Word) : (s.setSp v).cfg = s.cfg := rfl

@[simp] theorem setPs_ac (s : State) (v : Word) : (s.setPs v).ac = s.ac := rfl
@[simp] theorem setPs_br (s : State) (v : Word) : (s.setPs v).br = s.br := rfl
@[simp] theorem setPs_sp (s : State) (v : Word) : (s.setPs v).sp = s.sp := rfl
@[simp] theorem setPs_ps (s : State) (v : Word) : (s.setPs v).ps = v := rfl
@[simp] theorem setPs_ip (s : State) (v : Word) : (s.setPs v).ip = s.ip := rfl
@[simp] theorem setPs_ar (s : State) (v : Word) : (s.setPs v).ar = s.ar := rfl
@[simp] theorem setPs_ir (s : State) (v : Word) : (s.setPs v).ir = s.ir := rfl
@[simp] theorem setPs_mem (s : State) (v : Word) : (s.setPs v).mem = s.mem := rfl
@[simp] theorem setPs_stack (s : State) (v : Word) : (s.setPs v).stack = s.stack := rfl
@[simp] theorem setPs_out (s : State) (v : Word) : (s.setPs v).out = s.out := rfl
@[simp] theorem setPs_inCur (s : State) (v : Word) : (s.setPs v).inCur = s.inCur := rfl
@[simp] theorem setPs_ctx (s : State) (v : Word) : (s.setPs v).ctx = s.ctx := rfl
@[simp] theorem setPs_run (s : State) (v : Word) : (s.setPs v).run = s.run := rfl
@[simp] theorem setPs_aluLeft (s : State) (v : Word) : (s.setPs v).aluLeft = s.aluLeft := rfl
@[simp] theorem setPs_aluRight (s : State) (v : Word) : (s.setPs v).aluRight = s.aluRight := rfl
@[simp] theorem setPs_aluFlags (s : State) (v : Word) : (s.setPs v).aluFlags = s.aluFlags := rfl
@[simp] theorem setPs_tick (s : State) (v : Word) : (s.setPs v).tick = s.tick := rfl
@[simp] theorem setPs_tables (s : State) (v : Word) : (s.setPs v).tables = s.tables := rfl
@[simp] theorem setPs_cfg (s : State) (v : Word) : (s.setPs v).cfg = s.cfg := rfl

@[simp] theorem setIp_ac (s : State) (v : Word) : (s.setIp v).ac = s.ac := rfl
@[simp] theorem setIp_br (s : State) (v : Word) : (s.setIp v).br = s.br := rfl
@[simp] theorem setIp_sp (s : State) (v : Word) : (s.setIp v).sp = s.sp := rfl
@[simp] theorem setIp_ps (s : State) (v : Word) : (s.setIp v).ps = s.ps := rfl
@[simp] theorem setIp_ip (s : State) (v : Word) : (s.setIp v).ip = v := rfl
@[simp] theorem setIp_ar (s : State) (v : Word) : (s.setIp v).ar = s.ar := rfl
@[simp] theorem setIp_ir (s : State) (v : Word) : (s.setIp v).ir = s.ir := rfl
@[simp] theorem setIp_mem (s : State) (v : Word) : (s.setIp v).mem = s.mem := rfl
@[simp] theorem setIp_stack (s : State) (v : Word) : (s.setIp v).stack = s.stack := rfl
@[simp] theorem setIp_out (s : State) (v : Word) : (s.setIp v).out = s.out := rfl
@[simp] theorem setIp_inCur (s : State) (v : Word) : (s.setIp v).inCur = s.inCur := rfl
@[simp] theorem setIp_ctx (s : State) (v : Word) : (s.setIp v).ctx = s.ctx := rfl
@[simp] theorem setIp_run (s : State) (v : Word) : (s.setIp v).run = s.run := rfl
@[simp] theorem setIp_aluLeft (s : State) (v : Word) : (s.setIp v).aluLeft = s.aluLeft := rfl
@[simp] theorem setIp_aluRight (s : State) (v : Word) : (s.setIp v).aluRight = s.aluRight := rfl
@[simp] theorem setIp_aluFlags (s : State) (v : Word) : (s.setIp v).aluFlags = s.aluFlags := rfl
@[simp] theorem setIp_tick (s : State) (v : Word) : (s.setIp v).tick = s.tick := rfl
@[simp] theorem setIp_tables (s : State) (v : Word) : (s.setIp v).tables = s.tables := rfl
@[simp] theorem setIp_cfg (s : State) (v : Word) : (s.setIp v).cfg = s.cfg := rfl

@[simp] theorem setAr_ac (s : State) (v : Word) : (s.setAr v).ac = s.ac := rfl
@[simp] theorem setAr_br (s : State) (v : Word) : (s.setAr v).br = s.br := rfl
@[simp] theorem setAr_sp (s : State) (v : Word) : (s.setAr v).sp = s.sp := rfl
@[simp] theorem setAr_ps (s : State) (v : Word) : (s.setAr v).ps = s.ps := rfl
@[simp] theorem setAr_ip (s : State) (v : Word) : (s.setAr v).ip = s.ip := rfl
@[simp] theorem setAr_ar (s : State) (v : Word) : (s.setAr v).ar = v := rfl
@[simp] theorem setAr_ir (s : State) (v : Word) : (s.setAr v).ir = s.ir := rfl
@[simp] theorem setAr_mem (s : State) (v : Word) : (s.setAr v).mem = s.mem := rfl
@[simp] theorem setAr_stack (s : State) (v : Word) : (s.setAr v).stack = s.stack := rfl
@[simp] theorem setAr_out (s : State) (v : Word) : (s.setAr v).out = s.out := rfl
@[simp] theorem setAr_inCur (s : State) (v : Word) : (s.setAr v).inCur = s.inCur := rfl
@[simp] theorem setAr_ctx (s : State) (v : Word) : (s.setAr v).ctx = s.ctx := rfl
@[simp] theorem setAr_run (s : State) (v : Word) : (s.setAr v).run = s.run := rfl
@[simp] theorem setAr_aluLeft (s : State) (v : Word) : (s.setAr v).aluLeft = s.aluLeft := rfl
@[simp] theorem setAr_aluRight (s : State) (v : Word) : (s.setAr v).aluRight = s.aluRight := rfl
@[simp] theorem setAr_aluFlags (s : State) (v : Word) : (s.setAr v).aluFlags = s.aluFlags := rfl
@[simp] theorem setAr_tick (s : State) (v : Word) : (s.setAr v).tick = s.tick := rfl
@[simp] theorem setAr_tables (s : State) (v : Word) : (s.setAr v).tables = s.tables := rfl
@[simp] theorem setAr_cfg (s : State) (v : Word) : (s.setAr v).cfg = s.cfg := rfl

@[simp] theorem setIr_ac (s : State) (v : Option Instr) : (s.setIr v).ac = s.ac := rfl
@[simp] theorem setIr_br (s : State) (v : Option Instr) : (s.setIr v).br = s.br := rfl
@[simp] theorem setIr_sp (s : State) (v : Option Instr) : (s.setIr v).sp = s.sp := rfl
@[simp] theorem setIr_ps (s : State) (v : Option Instr) : (s.setIr v).ps = s.ps := rfl
@[simp] theorem setIr_ip (s : State) (v : Option Instr) : (s.setIr v).ip = s.ip := rfl
@[simp] theorem setIr_ar (s : State) (v : Option Instr) : (s.setIr v).ar = s.ar := rfl
@[simp] theorem setIr_ir (s : State) (v : Option Instr) : (s.setIr v).ir = v := rfl
@[simp] theorem setIr_mem (s : State) (v : Option Instr) : (s.setIr v).mem = s.mem := rfl
@[simp] theorem setIr_stack (s : State) (v : Option Instr) : (s.setIr v).stack = s.stack := rfl
@[simp] theorem setIr_out (s : State) (v : Option Instr) : (s.setIr v).out = s.out := rfl
@[simp] theorem setIr_inCur (s : State) (v : Option Instr) : (s.setIr v).inCur = s.inCur := rfl
@[simp] theorem setIr_ctx (s : State) (v : Option Instr) : (s.setIr v).ctx = s.ctx := rfl
@[simp] theorem setIr_run (s : State) (v : Option Instr) : (s.setIr v).run = s.run := rfl
@[simp] theorem setIr_aluLeft (s : State) (v : Option Instr) : (s.setIr v).aluLeft = s.aluLeft := rfl
@[simp] theorem setIr_aluRight (s : State) (v : Option Instr) : (s.setIr v).aluRight = s.aluRight := rfl
@[simp] theorem setIr_aluFlags (s : State) (v : Option Instr) : (s.setIr v).aluFlags = s.aluFlags := rfl
@[simp] theorem setIr_tick (s : State) (v : Option Instr) : (s.setIr v).tick = s.tick := rfl
@[simp] theorem setIr_tables (s : State) (v : Option Instr) : (s.setIr v).tables = s.tables := rfl
@[simp] theorem setIr_cfg (s : State) (v : Option Instr) : (s.setIr v).cfg = s.cfg := rfl

@[simp] theorem setMem_ac (s : State) (v : Memory) : (s.setMem v).ac = s.ac := rfl
@[simp] theorem setMem_br (s : State) (v : Memory) : (s.setMem v).br = s.br := rfl
@[simp] theorem setMem_sp (s : State) (v : Memory) : (s.setMem v).sp = s.sp := rfl
@[simp] theorem setMem_ps (s : State) (v : Memory) : (s.setMem v).ps = s.ps := rfl
@[simp] theorem setMem_ip (s : State) (v : Memory) : (s.setMem v).ip = s.ip := rfl
@[simp] theorem setMem_ar (s : State) (v : Memory) : (s.setMem v).ar = s.ar := rfl
@[simp] theorem setMem_ir (s : State) (v : Memory) : (s.setMem v).ir = s.ir := rfl
@[simp] theorem setMem_mem (s : State) (v : Memory) : (s.setMem v).mem = v := rfl
@[simp] theorem setMem_stack (s : State) (v : Memory) : (s.setMem v).stack = s.stack := rfl
@[simp] theorem setMem_out (s : State) (v : Memory) : (s.setMem v).out = s.out := rfl
@[simp] theorem setMem_inCur (s : State) (v : Memory) : (s.setMem v).inCur = s.inCur := rfl
@[simp] theorem setMem_ctx (s : State) (v : Memory) : (s.setMem v).ctx = s.ctx := rfl
@[simp] theorem setMem_run (s : State) (v : Memory) : (s.setMem v).run = s.run := rfl
@[simp] theorem setMem_aluLeft (s : State) (v : Memory) : (s.setMem v).aluLeft = s.aluLeft := rfl
@[simp] theorem setMem_aluRight (s : State) (v : Memory) : (s.setMem v).aluRight = s.aluRight := rfl
@[simp] theorem setMem_aluFlags (s : State) (v : Memory) : (s.setMem v).aluFlags = s.aluFlags := rfl
@[simp] theorem setMem_tick (s : State) (v : Memory) : (s.setMem v).tick = s.tick := rfl
@[simp] theorem setMem_tables (s : State) (v : Memory) : (s.setMem v).tables = s.tables := rfl
@[simp] theorem setMem_cfg (s : State) (v : Memory) : (s.setMem v).cfg = s.cfg := rfl

@[simp] theorem setStack_ac (s : State) (v : List (Nat × Word)) : (s.setStack v).ac = s.ac := rfl
@[simp] theorem setStack_br (s : State) (v : List (Nat × Word)) : (s.setStack v).br = s.br := rfl
@[simp] theorem setStack_sp (s : State) (v : List (Nat × Word)) : (s.setStack v).sp = s.sp := rfl
@[simp] theorem setStack_ps (s : State) (v : List (Nat × Word)) : (s.setStack v).ps = s.ps := rfl
@[simp] theorem setStack_ip (s : State) (v : List (Nat × Word)) : (s.setStack v).ip = s.ip := rfl
@[simp] theorem setStack_ar (s : State) (v : List (Nat × Word)) : (s.setStack v).ar = s.ar := rfl
@[simp] theorem setStack_ir (s : State) (v : List (Nat × Word)) : (s.setStack v).ir = s.ir := rfl
@[simp] theorem setStack_mem (s : State) (v : List (Nat × Word)) : (s.setStack v).mem = s.mem := rfl
@[simp] theorem setStack_stack (s : State) (v : List (Nat × Word)) : (s.setStack v).stack = v := rfl
@[simp] theorem setStack_out (s : State) (v : List (Nat × Word)) : (s.setStack v).out = s.out := rfl
@[simp] theorem setStack_inCur (s : State) (v : List (Nat × Word)) : (s.setStack v).inCur = s.inCur := rfl
@[simp] theorem setStack_ctx (s : State) (v : List (Nat × Word)) : (s.setStack v).ctx = s.ctx := rfl
@[simp] theorem setStack_run (s : State) (v : List (Nat × Word)) : (s.setStack v).run = s.run := rfl
@[simp] theorem setStack_aluLeft (s : State) (v : List (Nat × Word)) : (s.setStack v).aluLeft = s.aluLeft := rfl
@[simp] theorem setStack_aluRight (s : State) (v : List (Nat × Word)) : (s.setStack v).aluRight = s.aluRight := rfl
@[simp] theorem setStack_aluFlags (s : State) (v : List (Nat × Word)) : (s.setStack v).aluFlags = s.aluFlags := rfl
@[simp] theorem setStack_tick (s : State) (v : List (Nat × Word)) : (s.setStack v).tick = s.tick := rfl
@[simp] theorem setStack_tables (s : State) (v : List (Nat × Word)) : (s.setStack v).tables = s.tables := rfl
@[simp] theorem setStack_cfg (s : State) (v : List (Nat × Word)) : (s.setStack v).cfg = s.cfg := rfl

@[simp] theorem setOut_ac (s : State) (v : List Word) : (s.setOut v).ac = s.ac := rfl
@[simp] theorem setOut_br (s : State) (v : List Word) : (s.setOut v).br = s.br := rfl
@[simp] theorem setOut_sp (s : State) (v : List Word) : (s.setOut v).sp = s.sp := rfl
@[simp] theorem setOut_ps (s : State) (v : List Word) : (s.setOut v).ps = s.ps := rfl
@[simp] theorem setOut_ip (s : State) (v : List Word) : (s.setOut v).ip = s.ip := rfl
@[simp] theorem setOut_ar (s : State) (v : List Word) : (s.setOut v).ar = s.ar := rfl
@[simp] theorem setOut_ir (s : State) (v : List Word) : (s.setOut v).ir = s.ir := rfl
@[simp] theorem setOut_mem (s : State) (v : List Word) : (s.setOut v).mem = s.mem := rfl
@[simp] theorem setOut_stack (s : State) (v : List Word) : (s.setOut v).stack = s.stack := rfl
@[simp] theorem setOut_out (s : State) (v : List Word) : (s.setOut v).out = v := rfl
@[simp] theorem setOut_inCur (s : State) (v : List Word) : (s.setOut v).inCur = s.inCur := rfl
@[simp] theorem setOut_ctx (s : State) (v : List Word) : (s.setOut v).ctx = s.ctx := rfl
@[simp] theorem setOut_run (s : State) (v : List Word) : (s.setOut v).run = s.run := rfl
@[simp] theorem setOut_aluLeft (s : State) (v : List Word) : (s.setOut v).aluLeft = s.aluLeft := rfl
@[simp] theorem setOut_aluRight (s : State) (v : List Word) : (s.setOut v).aluRight = s.aluRight := rfl
@[simp] theorem setOut_aluFlags (s : State) (v : List Word) : (s.setOut v).aluFlags = s.aluFlags := rfl
@[simp] theorem setOut_tick (s : State) (v : List Word) : (s.setOut v).tick = s.tick := rfl
@[simp] theorem setOut_tables (s : State) (v : List Word) : (s.setOut v).tables = s.tables := rfl
@[simp] theorem setOut_cfg (s : State) (v : List Word) : (s.setOut v).cfg = s.cfg := rfl

@[simp] theorem setInCur_ac (s : State) (v : Nat) : (s.setInCur v).ac = s.ac := rfl
@[simp] theorem setInCur_br (s : State) (v : Nat) : (s.setInCur v).br = s.br := rfl
@[simp] theorem setInCur_sp (s : State) (v : Nat) : (s.setInCur v).sp = s.sp := rfl
@[simp] theorem setInCur_ps (s : State) (v : Nat) : (s.setInCur v).ps = s.ps := rfl
@[simp] theorem setInCur_ip (s : State) (v : Nat) : (s.setInCur v).ip = s.ip := rfl
@[simp] theorem setInCur_ar (s : State) (v : Nat) : (s.setInCur v).ar = s.ar := rfl
@[simp] theorem setInCur_ir (s : State) (v : Nat) : (s.setInCur v).ir = s.ir := rfl
@[simp] theorem setInCur_mem (s : State) (v : Nat) : (s.setInCur v).mem = s.mem := rfl
@[simp] theorem setInCur_stack (s : State) (v : Nat) : (s.setInCur v).stack = s.stack := rfl
@[simp] theorem setInCur_out (s : State) (v : Nat) : (s.setInCur v).out = s.out := rfl
@[simp] theorem setInCur_inCur (s : State) (v : Nat) : (s.setInCur v).inCur = v := rfl
@[simp] theorem setInCur_ctx (s : State) (v : Nat) : (s.setInCur v).ctx = s.ctx := rfl
@[simp] theorem setInCur_run (s : State) (v : Nat) : (s.setInCur v).run = s.run := rfl
@[simp] theorem setInCur_aluLeft (s : State) (v : Nat) : (s.setInCur v).aluLeft = s.aluLeft := rfl
@[simp] theorem setInCur_aluRight (s : State) (v : Nat) : (s.setInCur v).aluRight = s.aluRight := rfl
@[simp] theorem setInCur_aluFlags (s : State) (v : Nat) : (s.setInCur v).aluFlags = s.aluFlags := rfl
@[simp] theorem setInCur_tick (s : State) (v : Nat) : (s.setInCur v).tick = s.tick := rfl
@[simp] theorem setInCur_tables (s : State) (v : Nat) : (s.setInCur v).tables = s.tables := rfl
@[simp] theorem setInCur_cfg (s : State) (v : Nat) : (s.setInCur v).cfg = s.cfg := rfl

@[simp] theorem setCtx_ac (s : State) (v : List Nat) : (s.setCtx v).ac = s.ac := rfl
@[simp] theorem setCtx_br (s : State) (v : List Nat) : (s.setCtx v).br = s.br := rfl
@[simp] theorem setCtx_sp (s : State) (v : List Nat) : (s.setCtx v).sp = s.sp := rfl
@[simp] theorem setCtx_ps (s : State) (v : List Nat) : (s.setCtx v).ps = s.ps := rfl
@[simp] theorem setCtx_ip (s : State) (v : List Nat) : (s.setCtx v).ip = s.ip := rfl
@[simp] theorem setCtx_ar (s : State) (v : List Nat) : (s.setCtx v).ar = s.ar := rfl
@[simp] theorem setCtx_ir (s : State) (v : List Nat) : (s.setCtx v).ir = s.ir := rfl
@[simp] theorem setCtx_mem (s : State) (v : List Nat) : (s.setCtx v).mem = s.mem := rfl
@[simp] theorem setCtx_stack (s : State) (v : List Nat) : (s.setCtx v).stack = s.stack := rfl
@[simp] theorem setCtx_out (s : State) (v : List Nat) : (s.setCtx v).out = s.out := rfl
@[simp] theorem setCtx_inCur (s : State) (v : List Nat) : (s.setCtx v).inCur = s.inCur := rfl
@[simp] theorem setCtx_ctx (s : State) (v : List Nat) : (s.setCtx v).ctx = v := rfl
@[simp] theorem setCtx_run (s : State) (v : List Nat) : (s.setCtx v).run = s.run := rfl
@[simp] theorem setCtx_aluLeft (s : State) (v : List Nat) : (s.setCtx v).aluLeft = s.aluLeft := rfl
@[simp] theorem setCtx_aluRight (s : State) (v : List Nat) : (s.setCtx v).aluRight = s.aluRight := rfl
@[simp] theorem setCtx_aluFlags (s : State) (v : List Nat) : (s.setCtx v).aluFlags = s.aluFlags := rfl
@[simp] theorem setCtx_tick (s : State) (v : List Nat) : (s.setCtx v).tick = s.tick := rfl
@[simp] theorem setCtx_tables (s : State) (v : List Nat) : (s.setCtx v).tables = s.tables := rfl
@[simp] theorem setCtx_cfg (s : State) (v : List Nat) : (s.setCtx v).cfg = s.cfg := rfl

@[simp] theorem setRun_ac (s : State) (v : RunStatus) : (s.setRun v).ac = s.ac := rfl
@[simp] theorem setRun_br (s : State) (v : RunStatus) : (s.setRun v).br = s.br := rfl
@[simp] theorem setRun_sp (s : State) (v : RunStatus) : (s.setRun v).sp = s.sp := rfl
@[simp] theorem setRun_ps (s : State) (v : RunStatus) : (s.setRun v).ps = s.ps := rfl
@[simp] theorem setRun_ip (s : State) (v : RunStatus) : (s.setRun v).ip = s.ip := rfl
@[simp] theorem setRun_ar (s : State) (v : RunStatus) : (s.setRun v).ar = s.ar := rfl
@[simp] theorem setRun_ir (s : State) (v : RunStatus) : (s.setRun v).ir = s.ir := rfl
@[simp] theorem setRun_mem (s : State) (v : RunStatus) : (s.setRun v).mem = s.mem := rfl
@[simp] theorem setRun_stack (s : State) (v : RunStatus) : (s.setRun v).stack = s.stack := rfl
@[simp] theorem setRun_out (s : State) (v : RunStatus) : (s.setRun v).out = s.out := rfl
@[simp] theorem setRun_inCur (s : State) (v : RunStatus) : (s.setRun v).inCur = s.inCur := rfl
@[simp] theorem setRun_ctx (s : State) (v : RunStatus) : (s.setRun v).ctx = s.ctx := rfl
@[simp] theorem setRun_run (s : State) (v : RunStatus) : (s.setRun v).run = v := rfl
@[simp] theorem setRun_aluLeft (s : State) (v : RunStatus) : (s.setRun v).aluLeft = s.aluLeft := rfl
@[simp] theorem setRun_aluRight (s : State) (v : RunStatus) : (s.setRun v).aluRight = s.aluRight := rfl
@[simp] theorem setRun_aluFlags (s : State) (v : RunStatus) : (s.setRun v).aluFlags = s.aluFlags := rfl
@[simp] theorem setRun_tick (s : State) (v : RunStatus) : (s.setRun v).tick = s.tick := rfl
@[simp] theorem setRun_tables (s : State) (v : RunStatus) : (s.setRun v).tables = s.tables := rfl
@[simp] theorem setRun_cfg (s : State) (v : RunStatus) : (s.setRun v).cfg = s.cfg := rfl

@[simp] theorem setAluSlots_ac (s : State) (l r : Word) : (s.setAluSlots l r).ac = s.ac := rfl
@[simp] theorem setAluSlots_br (s : State) (l r : Word) : (s.setAluSlots l r).br = s.br := rfl
@[simp] theorem setAluSlots_sp (s : State) (l r : Word) : (s.setAluSlots l r).sp = s.sp := rfl
@[simp] theorem setAluSlots_ps (s : State) (l r : Word) : (s.setAluSlots l r).ps = s.ps := rfl
@[simp] theorem setAluSlots_ip (s : State) (l r : Word) : (s.setAluSlots l r).ip = s.ip := rfl
@[simp] theorem setAluSlots_ar (s : State) (l r : Word) : (s.setAluSlots l r).ar = s.ar := rfl
@[simp] theorem setAluSlots_ir (s : State) (l r : Word) : (s.setAluSlots l r).ir = s.ir := rfl
@[simp] theorem setAluSlots_mem (s : State) (l r : Word) : (s.setAluSlots l r).mem = s.mem := rfl
@[simp] theorem setAluSlots_stack (s : State) (l r : Word) : (s.setAluSlots l r).stack = s.stack := rfl
@[simp] theorem setAluSlots_out (s : State) (l r : Word) : (s.setAluSlots l r).out = s.out := rfl
@[simp] theorem setAluSlots_inCur (s : State) (l r : Word) : (s.setAluSlots l r).inCur = s.inCur := rfl
@[simp] theorem setAluSlots_ctx (s : State) (l r : Word) : (s.setAluSlots l r).ctx = s.ctx := rfl
@[simp] theorem setAluSlots_run (s : State) (l r : Word) : (s.setAluSlots l r).run = s.run := rfl
@[simp] theorem setAluSlots_aluLeft (s : State) (l r : Word) : (s.setAluSlots l r).aluLeft = l := rfl
@[simp] theorem setAluSlots_aluRight (s : State) (l r : Word) : (s.setAluSlots l r).aluRight = r := rfl
@[simp] theorem setAluSlots_aluFlags (s : State) (l r : Word) : (s.setAluSlots l r).aluFlags = s.aluFlags := rfl
@[simp] theorem setAluSlots_tick (s : State) (l r : Word) : (s.setAluSlots l r).tick = s.tick := rfl
@[simp] theorem setAluSlots_tables (s : State) (l r : Word) : (s.setAluSlots l r).tables = s.tables := rfl
@[simp] theorem setAluSlots_cfg (s : State) (l r : Word) : (s.setAluSlots l r).cfg = s.cfg := rfl

@[simp] theorem setAluFlags_ac (s : State) (v : BitVec 4) : (s.setAluFlags v).ac = s.ac := rfl
@[simp] theorem setAluFlags_br (s : State) (v : BitVec 4) : (s.setAluFlags v).br = s.br := rfl
@[simp] theorem setAluFlags_sp (s : State) (v : BitVec 4) : (s.setAluFlags v).sp = s.sp := rfl
@[simp] theorem setAluFlags_ps (s : State) (v : BitVec 4) : (s.setAluFlags v).ps = s.ps := rfl
@[simp] theorem setAluFlags_ip (s : State) (v : BitVec 4) : (s.setAluFlags v).ip = s.ip := rfl
@[simp] theorem setAluFlags_ar (s : State) (v : BitVec 4) : (s.setAluFlags v).ar = s.ar := rfl
@[simp] theorem setAluFlags_ir (s : State) (v : BitVec 4) : (s.setAluFlags v).ir = s.ir := rfl
@[simp] theorem setAluFlags_mem (s : State) (v : BitVec 4) : (s.setAluFlags v).mem = s.mem := rfl
@[simp] theorem setAluFlags_stack (s : State) (v : BitVec 4) : (s.setAluFlags v).stack = s.stack := rfl
@[simp] theorem setAluFlags_out (s : State) (v : BitVec 4) : (s.setAluFlags v).out = s.out := rfl
@[simp] theorem setAluFlags_inCur (s : State) (v : BitVec 4) : (s.setAluFlags v).inCur = s.inCur := rfl
@[simp] theorem setAluFlags_ctx (s : State) (v : BitVec 4) : (s.setAluFlags v).ctx = s.ctx := rfl
@[simp] theorem setAluFlags_run (s : State) (v : BitVec 4) : (s.setAluFlags v).run = s.run := rfl
@[simp] theorem setAluFlags_aluLeft (s : State) (v : BitVec 4) : (s.setAluFlags v).aluLeft = s.aluLeft := rfl
@[simp] theorem setAluFlags_aluRight (s : State) (v : BitVec 4) : (s.setAluFlags v).aluRight = s.aluRight := rfl
@[simp] theorem setAluFlags_aluFlags (s : State) (v : BitVec 4) : (s.setAluFlags v).aluFlags = v := rfl
@[simp] theorem setAluFlags_tick (s : State) (v : BitVec 4) : (s.setAluFlags v).tick = s.tick := rfl
@[simp] theorem setAluFlags_tables (s : State) (v : BitVec 4) : (s.setAluFlags v).tables = s.tables := rfl
@[simp] theorem setAluFlags_cfg (s : State) (v : BitVec 4) : (s.setAluFlags v).cfg = s.cfg := rfl

@[simp] theorem setTick_ac (s : State) (v : Nat) : (s.setTick v).ac = s.ac := rfl
@[simp] theorem setTick_br (s : State) (v : Nat) : (s.setTick v).br = s.br := rfl
@[simp] theorem setTick_sp (s : State) (v : Nat) : (s.setTick v).sp = s.sp := rfl
@[simp] theorem setTick_ps (s : State) (v : Nat) : (s.setTick v).ps = s.ps := rfl
@[simp] theorem setTick_ip (s : State) (v : Nat) : (s.setTick v).ip = s.ip := rfl
@[simp] theorem setTick_ar (s : State) (v : Nat) : (s.setTick v).ar = s.ar := rfl
@[simp] theorem setTick_ir (s : State) (v : Nat) : (s.setTick v).ir = s.ir := rfl
@[simp] theorem setTick_mem (s : State) (v : Nat) : (s.setTick v).mem = s.mem := rfl
@[simp] theorem setTick_stack (s : State) (v : Nat) : (s.setTick v).stack = s.stack := rfl
@[simp] theorem setTick_out (s : State) (v : Nat) : (s.setTick v).out = s.out := rfl
@[simp] theorem setTick_inCur (s : State) (v : Nat) : (s.setTick v).inCur = s.inCur := rfl
@[simp] theorem setTick_ctx (s : State) (v : Nat) : (s.setTick v).ctx = s.ctx := rfl
@[simp] theorem setTick_run (s : State) (v : Nat) : (s.setTick v).run = s.run := rfl
@[simp] theorem setTick_aluLeft (s : State) (v : Nat) : (s.setTick v).aluLeft = s.aluLeft := rfl
@[simp] theorem setTick_aluRight (s : State) (v : Nat) : (s.setTick v).aluRight = s.aluRight := rfl
@[simp] theorem setTick_aluFlags (s : State) (v : Nat) : (s.setTick v).aluFlags = s.aluFlags := rfl
@[simp] theorem setTick_tick (s : State) (v : Nat) : (s.setTick v).tick = v := rfl
@[simp] theorem setTick_tables (s : State) (v : Nat) : (s.setTick v).tables = s.tables := rfl
@[simp] theorem setTick_cfg (s : State) (v : Nat) : (s.setTick v).cfg = s.cfg := rfl

end Sys2Proof.Machine.State
end

