-- ==== Sys2Proof/Laws/Ops.lean ====
section
/-!
SUPPORT. One lemma for each shared operation that says all it can do when it answers, and when it answers.
-/
namespace Sys2Proof.Machine

@[simp] theorem raise_eq {α : Type} (k : Fault) : (raise k : Except Fault α) = .error k := rfl

@[simp] theorem finish_ok (s : State) : finish (.ok s) = .next s := rfl

@[simp] theorem finish_error (k : Fault) : finish (.error k) = .fault k := rfl

theorem finish_next {r : Except Fault State} {t : State} : finish r = .next t ↔ r = .ok t := by
  cases r <;> simp [finish]

theorem finish_fault {r : Except Fault State} {k : Fault} : finish r = .fault k ↔ r = .error k := by
  cases r <;> simp [finish]

/-- A finished pseudocode never refuses. -/
theorem finish_not_refused {r : Except Fault State} {q : Refusal} : finish r ≠ .refused q := by
  cases r <;> simp [finish]

/-- A natural is a cell address exactly when it is below `MEM_SIZE`. -/
theorem inMem_natCast (p : Params) (a : Nat) : inMem p (a : Int) = true ↔ a < p.memSize := by
  unfold inMem
  rw [decide_eq_true_eq]
  omega

/-- An integer is a cell address exactly when it is in `0 .. MEM_SIZE-1`. -/
theorem inMem_iff (p : Params) (a : Int) : inMem p a = true ↔ 0 ≤ a ∧ a < p.memSize := by
  unfold inMem
  rw [decide_eq_true_eq]

/-- An integer is a stack index exactly when it is in `0 .. STACK_DEPTH-1`. -/
theorem inStack_iff (p : Params) (i : Int) : inStack p i = true ↔ 0 ≤ i ∧ i < p.stackDepth := by
  unfold inStack
  rw [decide_eq_true_eq]

/-! ### Access primitives: what they answer -/

theorem memRead_ok {a : Int} {s : State} {v : Word} :
    memRead a s = .ok v ↔ inMem s.cfg a = true ∧ v = cellValue a.toNat s := by
  unfold memRead
  split
  · rename_i h
    simp [h, eq_comm]
  · rename_i h
    simp [h]

theorem memWrite_ok {a : Int} {v : Word} {s t : State} :
    memWrite a v s = .ok t ↔ inMem s.cfg a = true ∧ t = s.setMem (s.mem.setValue s.cfg.cellDefault a.toNat v) := by
  unfold memWrite
  split
  · rename_i h
    simp [h, eq_comm]
  · rename_i h
    simp [h]

theorem instrAt_ok {a : Int} {s : State} {i : Instr} :
    instrAt a s = .ok i ↔ inMem s.cfg a = true ∧ s.mem.instr a.toNat = some i := by
  unfold instrAt
  split
  · rename_i h
    cases hi : s.mem.instr a.toNat <;> simp [h]
  · rename_i h
    simp [h]

theorem stackRead_ok {i : Int} {s : State} {v : Word} :
    stackRead i s = .ok v ↔ inStack s.cfg i = true ∧ v = stackSlot i.toNat s := by
  unfold stackRead
  split
  · rename_i h
    simp [h, eq_comm]
  · rename_i h
    simp [h]

theorem stackWrite_ok {i : Int} {v : Word} {s t : State} :
    stackWrite i v s = .ok t ↔
      inStack s.cfg i = true ∧ t = s.setStack (sparseWrite s.cfg.stackDefault i.toNat v s.stack) := by
  unfold stackWrite
  split
  · rename_i h
    simp [h, eq_comm]
  · rename_i h
    simp [h]

theorem outAppend_ok {v : Word} {s t : State} :
    outAppend v s = .ok t ↔ s.outCur < s.cfg.outCapacity ∧ t = s.setOut (s.out ++ [v]) := by
  unfold outAppend
  split
  · rename_i h
    simp [h, eq_comm]
  · rename_i h
    simp [h]

theorem inputRead_ok {s t : State} {v : Word} :
    inputRead s = .ok (v, t) ↔ inMem s.cfg (s.inCur : Int) = true ∧ v = cellValue s.inCur s ∧
      t = (s.setAr (Word.ofNat s.inCur)).setInCur (s.inCur + 1) := by
  unfold inputRead
  split
  · rename_i h
    simp [h, eq_comm]
  · rename_i h
    simp [h]

theorem fetch_ok {s t : State} {i : Instr} :
    fetch s = .ok (i, t) ↔ inMem s.cfg s.ip.toInt = true ∧ s.mem.instr s.ip.toInt.toNat = some i ∧ t = fetched i s := by
  rw [← and_assoc, ← instrAt_ok]
  unfold fetch
  cases h : instrAt s.ip.toInt s with
  | error k => simp
  | ok j =>
    simp only [Except.ok.injEq, Prod.mk.injEq]
    constructor
    · rintro ⟨rfl, rfl⟩
      exact ⟨rfl, rfl⟩
    · rintro ⟨rfl, rfl⟩
      exact ⟨rfl, rfl⟩

/-- What a fetch does to each component of the state. -/
theorem fetched_fields (i : Instr) (s : State) :
    (fetched i s).ac = s.ac ∧ (fetched i s).br = s.br ∧ (fetched i s).sp = s.sp ∧ (fetched i s).ps = s.ps ∧
    (fetched i s).ip = s.ip + 1 ∧ (fetched i s).ar = s.ip ∧ (fetched i s).ir = some i ∧
    (fetched i s).mem = s.mem ∧ (fetched i s).stack = s.stack ∧ (fetched i s).out = s.out ∧
    (fetched i s).inCur = s.inCur ∧ (fetched i s).ctx = s.ctx ∧ (fetched i s).run = s.run ∧
    (fetched i s).aluLeft = s.aluLeft ∧ (fetched i s).aluRight = s.aluRight ∧
    (fetched i s).tables = s.tables ∧ (fetched i s).cfg = s.cfg :=
  ⟨rfl, rfl, rfl, rfl, rfl, rfl, rfl, rfl, rfl, rfl, rfl, rfl, rfl, rfl, rfl, rfl, rfl⟩

/-! ### SP moved by one -/

theorem toInt_pred {w : Word} (h : intMin < w.toInt) : (w - 1).toInt = w.toInt - 1 := by
  have h1 : (1 : Word).toInt = 1 := by decide
  have h2 := w.toInt_lt
  have h3 : intMin = -2147483648 := rfl
  rw [BitVec.toInt_sub, h1]
  exact Int.bmod_eq_of_le (by omega) (by omega)

theorem toInt_succ {w : Word} (h : w.toInt < intMax) : (w + 1).toInt = w.toInt + 1 := by
  have h1 : (1 : Word).toInt = 1 := by decide
  have h2 := w.le_toInt
  have h3 : intMax = 2147483647 := rfl
  rw [BitVec.toInt_add, h1]
  exact Int.bmod_eq_of_le (by omega) (by omega)

/-- What well-formed parameters say. -/
theorem params_wf_iff (p : Params) : p.wf = true ↔ 0 < p.memSize ∧ p.memSize ≤ 2147483648 ∧
    p.stackDepth ≤ 2147483647 ∧ -1 ≤ p.spInit.toInt ∧ p.spInit.toInt ≤ p.stackDepth ∧ p.inputBase ≤ p.memSize ∧
    p.ctxDepth ≠ some 0 := by
  unfold Params.wf
  rw [decide_eq_true_eq]

/-- SP minus one is an index for SP from 1 to `STACK_DEPTH`. -/
theorem inStack_pred {p : Params} {w : Word} (h1 : 1 ≤ w.toInt) (h2 : w.toInt ≤ p.stackDepth) :
    inStack p (w - 1).toInt = true := by
  have h3 : intMin = -2147483648 := rfl
  rw [inStack_iff, toInt_pred (by omega)]
  omega

/-- And for no other SP, also where the subtraction wraps. -/
theorem inStack_pred_iff {p : Params} (hp : p.wf = true) (w : Word) :
    inStack p (w - 1).toInt = true ↔ 1 ≤ w.toInt ∧ w.toInt ≤ p.stackDepth := by
  refine ⟨fun h => ?_, fun h => inStack_pred h.1 h.2⟩
  have hd := ((params_wf_iff p).mp hp).2.2.1
  rw [inStack_iff] at h
  by_cases hw : w.toInt = intMin
  · have h1 : (w - 1).toInt = intMax := by
      rw [BitVec.eq_of_toInt_eq (x := w) (y := BitVec.ofInt 32 intMin) (by rw [hw]; decide)]
      decide
    have h2 : intMax = 2147483647 := rfl
    omega
  · have h1 := w.le_toInt
    have h2 : intMin = -2147483648 := rfl
    rw [toInt_pred (by omega)] at h
    omega

/-! ### The call-context stack -/

/-- CTX has room exactly when its capacity, if it has one, is not reached. -/
theorem ctxHasRoom_iff (s : State) : ctxHasRoom s = true ↔ ∀ d, s.cfg.ctxDepth = some d → s.ctx.length < d := by
  unfold ctxHasRoom
  cases s.cfg.ctxDepth <;> simp

theorem ctxPush_ok {f : Nat} {s t : State} :
    ctxPush f s = .ok t ↔ ctxHasRoom s = true ∧ t = s.setCtx (f :: s.ctx) := by
  unfold ctxPush
  split
  · rename_i h
    simp [h, eq_comm]
  · rename_i h
    simp [h]

/-- A full call-context stack raises (log 19). -/
theorem ctxPush_full {s : State} {d : Nat} (hd : s.cfg.ctxDepth = some d) (h : d ≤ s.ctx.length) (f : Nat) :
    ctxPush f s = .error .addressOutOfRange := by
  refine if_neg fun hr => ?_
  have := (ctxHasRoom_iff s).mp hr d hd
  omega

/-! ### The ALU -/

@[simp] theorem orResult_zero (v : Word) : orResult v 0 = v := by
  simp [orResult]

@[simp] theorem aluMove_eq (v : Word) (s : State) : aluMove v s = (v, s.setAluSlots 0 0) := by
  simp only [aluMove, aluSupply, aluConsume, State.setAluSlots_aluLeft, State.setAluSlots_aluRight,
    orResult_zero]
  rfl

theorem aluAdd_eq (l r : Word) (s : State) :
    aluAdd l r s = (addResult s.cfg.foldPolicy l r,
      (s.setAluSlots 0 0).setAluFlags (addFlags l r (addResult s.cfg.foldPolicy l r))) := rfl

theorem aluSub_eq (l r : Word) (s : State) :
    aluSub l r s = (subResult s.cfg.foldPolicy l r,
      (s.setAluSlots 0 0).setAluFlags (subFlags l r (subResult s.cfg.foldPolicy l r))) := rfl

theorem aluMul_eq (l r : Word) (s : State) :
    aluMul l r s = (mulResult s.cfg.narrowPolicy l r, s.setAluSlots 0 0) := rfl

theorem aluNeg_eq (l r : Word) (s : State) :
    aluNeg l r s = (negResult s.cfg.narrowPolicy l r, s.setAluSlots 0 0) := rfl

theorem aluDiv_ok {l r res : Word} {s t : State} :
    aluDiv l r s = .ok (res, t) ↔
      r ≠ 0 ∧ res = divResult s.cfg.narrowPolicy l r ∧ t = s.setAluSlots 0 0 := by
  have hdef : aluDiv l r s = if r = 0 then raise .divisionByZero
      else .ok (divResult s.cfg.narrowPolicy l r, s.setAluSlots 0 0) := rfl
  rw [hdef]
  by_cases h : r = 0
  · simp [h]
  · simp only [h, if_false, Except.ok.injEq, Prod.mk.injEq, ne_eq, not_false_eq_true, true_and]
    constructor
    · rintro ⟨rfl, rfl⟩
      exact ⟨rfl, rfl⟩
    · rintro ⟨rfl, rfl⟩
      exact ⟨rfl, rfl⟩

theorem moveAcToBr_eq (s : State) : moveAcToBr s = (s.setAluSlots 0 0).setBr s.ac := by
  simp [moveAcToBr]

theorem moveIpToAc_eq (s : State) : moveIpToAc s = (s.setAluSlots 0 0).setAc s.ip := by
  simp [moveIpToAc]

theorem moveAcToIp_eq (s : State) : moveAcToIp s = (s.setAluSlots 0 0).setIp s.ac := by
  simp [moveAcToIp]

theorem moveBrToAc_eq (s : State) : moveBrToAc s = (s.setAluSlots 0 0).setAc s.br := by
  simp [moveBrToAc]

/-! ### Operand resolution -/

theorem readAt_ok {a : Nat} {s t : State} {v : Word} :
    readAt a s = .ok (v, t) ↔ a < s.cfg.memSize ∧ v = cellValue a s ∧ t = s.setAr (Word.ofNat a) := by
  unfold readAt memRead
  by_cases h : inMem s.cfg (a : Int) = true
  · have h' := (inMem_natCast _ a).mp h
    rw [if_pos h]
    simp only [Except.ok.injEq, Prod.mk.injEq, h', true_and, Int.toNat_natCast]
    constructor
    · rintro ⟨rfl, rfl⟩
      exact ⟨rfl, rfl⟩
    · rintro ⟨rfl, rfl⟩
      exact ⟨rfl, rfl⟩
  · have h' : ¬ a < s.cfg.memSize := fun c => h ((inMem_natCast _ a).mpr c)
    simp [h, h']

theorem resolve_abs (n : Nat) (s : State) : resolve (.abs n) s = readAt n s := by
  simp only [resolve]

theorem resolve_imm (k : Int) (s : State) : resolve (.imm k) s = .ok (Word.ofInt k, s) := by
  simp only [resolve]

theorem resolve_var (v : Nat) (s : State) : resolve (.var v) s =
    match varAddrOf v s with
    | none => raise .undefinedVariable
    | some a => readAt a s := by
  unfold resolve
  rfl

/-- An absolute operand in memory resolves to the value there (R61). -/
theorem resolve_abs_in {n : Nat} {s : State} (h : n < s.cfg.memSize) :
    resolve (.abs n) s = .ok (cellValue n s, s.setAr (Word.ofNat n)) := by
  rw [resolve_abs, readAt_ok]
  exact ⟨h, rfl, rfl⟩

/-- A variable whose cell is in memory resolves to the value there (R64). -/
theorem resolve_var_in {v a : Nat} {s : State} (hv : varAddrOf v s = some a) (h : a < s.cfg.memSize) :
    resolve (.var v) s = .ok (cellValue a s, s.setAr (Word.ofNat a)) := by
  rw [resolve_var, hv]
  exact readAt_ok.mpr ⟨h, rfl, rfl⟩

/-- An address outside memory raises (R51). -/
theorem readAt_out {a : Nat} {s : State} (h : s.cfg.memSize ≤ a) : readAt a s = .error .addressOutOfRange := by
  have hm : inMem s.cfg (a : Int) = false := by
    rw [← Bool.not_eq_true, inMem_natCast]
    omega
  unfold readAt memRead
  rw [hm]
  rfl

/-- An absolute operand outside memory raises (R61). -/
theorem resolve_abs_out {n : Nat} {s : State} (h : s.cfg.memSize ≤ n) :
    resolve (.abs n) s = .error .addressOutOfRange := by
  rw [resolve_abs, readAt_out h]

/-- An undeclared variable raises (R64). -/
theorem resolve_var_undeclared {v : Nat} {s : State} (hv : varAddrOf v s = none) :
    resolve (.var v) s = .error .undefinedVariable := by
  rw [resolve_var, hv]
  rfl

/-- A declared variable outside memory raises (R64). -/
theorem resolve_var_out {v a : Nat} {s : State} (hv : varAddrOf v s = some a) (h : s.cfg.memSize ≤ a) :
    resolve (.var v) s = .error .addressOutOfRange := by
  rw [resolve_var, hv]
  exact readAt_out h

/-- A resolution that answers changes AR at most. -/
theorem resolve_ok {o : Operand} {s t : State} {v : Word} (h : resolve o s = .ok (v, t)) :
    t = s ∨ ∃ a, a < s.cfg.memSize ∧ v = cellValue a s ∧ t = s.setAr (Word.ofNat a) := by
  cases o with
  | abs n => exact .inr ⟨n, readAt_ok.mp h⟩
  | imm k =>
    simp only [resolve, Except.ok.injEq, Prod.mk.injEq] at h
    exact .inl h.2.symm
  | char c =>
    simp only [resolve, Except.ok.injEq, Prod.mk.injEq] at h
    exact .inl h.2.symm
  | var w =>
    simp only [resolve] at h
    split at h
    · simp at h
    · rename_i a _
      exact .inr ⟨a, readAt_ok.mp h⟩

/-- A write outside memory raises (R52). -/
theorem memWrite_out {a : Nat} {s : State} (h : s.cfg.memSize ≤ a) (v : Word) :
    memWrite a v s = .error .addressOutOfRange := by
  have hm : inMem s.cfg (a : Int) = false := by
    rw [← Bool.not_eq_true, inMem_natCast]
    omega
  unfold memWrite
  rw [hm]
  rfl

/-- A staged-input cursor past the end of memory raises (R74). -/
theorem inputRead_out {s : State} (h : s.cfg.memSize ≤ s.inCur) : inputRead s = .error .addressOutOfRange := by
  have hm : inMem s.cfg (s.inCur : Int) = false := by
    rw [← Bool.not_eq_true, inMem_natCast]
    omega
  unfold inputRead
  rw [hm]
  rfl

/-- A full output buffer raises (R55). -/
theorem outAppend_full {s : State} (h : s.cfg.outCapacity ≤ s.out.length) (v : Word) :
    outAppend v s = .error .addressOutOfRange := if_neg (Nat.not_lt.mpr h)

/-- A cell number below 2^31 read as an `int32` is itself. -/
theorem toInt_ofNat_cell {a : Nat} (h : a < 2147483648) : (Word.ofNat a).toInt = a := by
  unfold Word.ofNat
  rw [BitVec.toInt_eq_toNat_of_lt] <;> simp <;> omega

theorem targetAddr_var (v : Nat) (s : State) : targetAddr (.var v) s =
    match varAddrOf v s with
    | none => raise .undefinedVariable
    | some a => .ok a := by
  unfold targetAddr
  rfl

theorem targetAddr_ok {g : StoreTarget} {s : State} {a : Nat} :
    targetAddr g s = .ok a ↔ g = .abs a ∨ ∃ v, g = .var v ∧ varAddrOf v s = some a := by
  cases g with
  | abs n => simp [targetAddr]
  | var v =>
    simp only [targetAddr]
    cases h : varAddrOf v s <;> simp [h]

end Sys2Proof.Machine
end

