-- ==== Sys2Proof/Laws/Families.lean ====
section
/-!
SUPPORT. One lemma for each operation the instructions of a family share: what it does when it answers.
-/
namespace Sys2Proof.Machine

/-! ### Math -/

theorem addWith_ok {o : Operand} {s t : State} :
    addWith o s = .ok t ↔ ∃ v u, resolve o s = .ok (v, u) ∧
      t = ((u.setAluSlots 0 0).setAluFlags (addFlags u.ac v (addResult u.cfg.foldPolicy u.ac v))
        |>.setAc (addResult u.cfg.foldPolicy u.ac v)
        |>.setPs (psOf (addFlags u.ac v (addResult u.cfg.foldPolicy u.ac v)))) := by
  unfold addWith
  cases h : resolve o s with
  | error k => simp
  | ok p =>
    obtain ⟨v, u⟩ := p
    simp only [aluAdd_eq, copyFlags, Except.ok.injEq, Prod.mk.injEq]
    constructor
    · rintro rfl
      exact ⟨v, u, ⟨rfl, rfl⟩, rfl⟩
    · rintro ⟨v', u', ⟨rfl, rfl⟩, rfl⟩
      rfl

theorem subWith_ok {o : Operand} {s t : State} :
    subWith o s = .ok t ↔ ∃ v u, resolve o s = .ok (v, u) ∧
      t = ((u.setAluSlots 0 0).setAluFlags (subFlags u.ac v (subResult u.cfg.foldPolicy u.ac v))
        |>.setAc (subResult u.cfg.foldPolicy u.ac v)
        |>.setPs (psOf (subFlags u.ac v (subResult u.cfg.foldPolicy u.ac v)))) := by
  unfold subWith
  cases h : resolve o s with
  | error k => simp
  | ok p =>
    obtain ⟨v, u⟩ := p
    simp only [aluSub_eq, copyFlags, Except.ok.injEq, Prod.mk.injEq]
    constructor
    · rintro rfl
      exact ⟨v, u, ⟨rfl, rfl⟩, rfl⟩
    · rintro ⟨v', u', ⟨rfl, rfl⟩, rfl⟩
      rfl

theorem cmpWith_ok {o : Operand} {s t : State} :
    cmpWith o s = .ok t ↔ ∃ v u, resolve o s = .ok (v, u) ∧
      t = ((u.setAluSlots 0 0).setAluFlags (subFlags u.ac v (subResult u.cfg.foldPolicy u.ac v))
        |>.setPs (psOf (subFlags u.ac v (subResult u.cfg.foldPolicy u.ac v)))) := by
  unfold cmpWith
  cases h : resolve o s with
  | error k => simp
  | ok p =>
    obtain ⟨v, u⟩ := p
    simp only [aluSub_eq, copyFlags, Except.ok.injEq, Prod.mk.injEq]
    constructor
    · rintro rfl
      exact ⟨v, u, ⟨rfl, rfl⟩, rfl⟩
    · rintro ⟨v', u', ⟨rfl, rfl⟩, rfl⟩
      rfl

theorem mulWith_ok {o : Operand} {s t : State} :
    mulWith o s = .ok t ↔ ∃ v u, resolve o s = .ok (v, u) ∧
      t = (u.setAluSlots 0 0).setAc (mulResult u.cfg.narrowPolicy u.ac v) := by
  unfold mulWith
  cases h : resolve o s with
  | error k => simp
  | ok p =>
    obtain ⟨v, u⟩ := p
    simp only [aluMul_eq, Except.ok.injEq, Prod.mk.injEq]
    constructor
    · rintro rfl
      exact ⟨v, u, ⟨rfl, rfl⟩, rfl⟩
    · rintro ⟨v', u', ⟨rfl, rfl⟩, rfl⟩
      rfl

theorem divWith_ok {o : Operand} {s t : State} :
    divWith o s = .ok t ↔ ∃ v u, resolve o s = .ok (v, u) ∧ v ≠ 0 ∧
      t = (u.setAluSlots 0 0).setAc (divResult u.cfg.narrowPolicy u.ac v) := by
  unfold divWith
  cases h : resolve o s with
  | error k => simp
  | ok p =>
    obtain ⟨v, u⟩ := p
    simp only [Except.ok.injEq, Prod.mk.injEq]
    cases hd : aluDiv u.ac v u with
    | error k =>
      constructor
      · intro h
        cases h
      · rintro ⟨v', u', ⟨rfl, rfl⟩, hv, -⟩
        rw [aluDiv_ok.mpr ⟨hv, rfl, rfl⟩] at hd
        cases hd
    | ok q =>
      obtain ⟨res, w⟩ := q
      obtain ⟨hv, rfl, rfl⟩ := aluDiv_ok.mp hd
      simp only [Except.ok.injEq]
      constructor
      · rintro rfl
        exact ⟨v, u, ⟨rfl, rfl⟩, hv, rfl⟩
      · rintro ⟨v', u', ⟨rfl, rfl⟩, -, rfl⟩
        rfl

/-! ### Data -/

theorem loadWith_ok {o : Operand} {s t : State} :
    loadWith o s = .ok t ↔ ∃ v u, resolve o s = .ok (v, u) ∧ t = u.setAc v := by
  unfold loadWith
  cases h : resolve o s with
  | error k => simp
  | ok p =>
    obtain ⟨v, u⟩ := p
    simp only [Except.ok.injEq, Prod.mk.injEq]
    constructor
    · rintro rfl
      exact ⟨v, u, ⟨rfl, rfl⟩, rfl⟩
    · rintro ⟨v', u', ⟨rfl, rfl⟩, rfl⟩
      rfl

theorem storeTo_ok {g : StoreTarget} {s t : State} :
    storeTo g s = .ok t ↔ ∃ a, targetAddr g s = .ok a ∧ a < s.cfg.memSize ∧
      t = (s.setAr (Word.ofNat a)).setMem (s.mem.setValue s.cfg.cellDefault a s.ac) := by
  unfold storeTo
  cases h : targetAddr g s with
  | error k => simp
  | ok a =>
    simp only [memWrite_ok, inMem_natCast, Except.ok.injEq, Int.toNat_natCast, State.setAr_mem,
      State.setAr_cfg]
    constructor
    · rintro ⟨ha, rfl⟩
      exact ⟨a, rfl, ha, rfl⟩
    · rintro ⟨b, rfl, hb, rfl⟩
      exact ⟨hb, rfl⟩

/-- A store whose target address is outside memory raises (R183). -/
theorem storeTo_out {g : StoreTarget} {s : State} {a : Nat} (hg : targetAddr g s = .ok a)
    (h : s.cfg.memSize ≤ a) :
    storeTo g s = .error .addressOutOfRange := by
  unfold storeTo
  rw [hg]
  exact memWrite_out (s := s.setAr (Word.ofNat a)) h _

/-! ### Stack -/

/-- PUSH with SP outside `1 .. STACK_DEPTH` raises (R200). -/
theorem doPush_out {s : State} (hp : s.cfg.wf = true) (h : s.sp.toInt < 1 ∨ s.cfg.stackDepth < s.sp.toInt) :
    doPush s = .error .addressOutOfRange := by
  have hs : ¬ inStack s.cfg (s.sp - 1).toInt = true := by
    rw [inStack_pred_iff hp]
    omega
  unfold doPush stackWrite
  exact if_neg hs

/-- POP with SP outside `0 .. STACK_DEPTH-1` raises (R202). -/
theorem doPop_out {s : State} (h : s.sp.toInt < 0 ∨ s.cfg.stackDepth ≤ s.sp.toInt) :
    doPop s = .error .addressOutOfRange := by
  have hs : inStack s.cfg s.sp.toInt = false := by
    rw [← Bool.not_eq_true, inStack_iff]
    omega
  unfold doPop stackRead
  rw [hs]
  rfl

/-- The state in which `DoPush` writes: SP moved, the hidden flag byte free. -/
theorem doPush_ok {s t : State} :
    doPush s = .ok t ↔ inStack s.cfg (s.sp - 1).toInt = true ∧
      t = (internalUse .spMove (s.setSp (s.sp - 1))).setStack
        (sparseWrite s.cfg.stackDefault (s.sp - 1).toInt.toNat s.ac s.stack) := by
  unfold doPush
  simp only [stackWrite_ok]
  rfl

theorem doPop_ok {s t : State} :
    doPop s = .ok t ↔ inStack s.cfg s.sp.toInt = true ∧
      t = internalUse .spMove
        ((s.setAc (stackSlot s.sp.toInt.toNat s)).setSp (poppedSp s.cfg.popPolicy s.sp)) := by
  unfold doPop
  cases h : stackRead s.sp.toInt s with
  | error k =>
    constructor
    · intro h
      cases h
    · rintro ⟨hi, -⟩
      rw [stackRead_ok.mpr ⟨hi, rfl⟩] at h
      cases h
  | ok v =>
    obtain ⟨hi, rfl⟩ := stackRead_ok.mp h
    simp only [Except.ok.injEq, hi, true_and]
    exact eq_comm

/-! ### Control -/

theorem jumpTo_ok {l : Nat} {s t : State} :
    jumpTo l s = .ok t ↔ ∃ f rest a, s.ctx = f :: rest ∧ labelAddrOf f l s = some a ∧ t = s.setIp a := by
  unfold jumpTo
  cases hc : s.ctx with
  | nil => simp
  | cons f rest =>
    simp only [List.cons.injEq]
    cases hl : labelAddrOf f l s with
    | none =>
      constructor
      · intro h
        cases h
      · rintro ⟨f', rest', a, ⟨rfl, rfl⟩, ha, -⟩
        rw [hl] at ha
        cases ha
    | some a =>
      simp only [Except.ok.injEq]
      constructor
      · rintro rfl
        exact ⟨f, rest, a, ⟨rfl, rfl⟩, hl, rfl⟩
      · rintro ⟨f', rest', a', ⟨rfl, rfl⟩, ha, rfl⟩
        rw [hl] at ha
        cases ha
        rfl

/-- A conditional jump that answers leaves the state alone or jumps. -/
theorem jumpIf_ok {b : Bool} {l : Nat} {s t : State} :
    jumpIf b l s = .ok t ↔ (b = false ∧ t = s) ∨ (b = true ∧ jumpTo l s = .ok t) := by
  cases b <;> simp [jumpIf, eq_comm]

theorem callFunc_ok {f : Nat} {s t : State} :
    callFunc f s = .ok t ↔ ∃ e u, entryOf f s = some e ∧ doPush (moveIpToAc (moveAcToBr s)) = .ok u ∧
      ∃ v, ctxPush f (u.setIp e) = .ok v ∧ t = moveBrToAc v := by
  unfold callFunc
  cases he : entryOf f s with
  | none => simp
  | some e =>
    cases hp : doPush (moveIpToAc (moveAcToBr s)) with
    | error k => simp
    | ok u =>
      simp only [Except.ok.injEq, Option.some.injEq, exists_eq_left', exists_and_left]
      cases hc : ctxPush f (u.setIp e) with
      | error k => simp
      | ok v => simp [eq_comm]

theorem returnFunc_ok {s t : State} :
    returnFunc s = .ok t ↔ ∃ f rest u, s.ctx = f :: rest ∧ doPop (moveAcToBr s) = .ok u ∧
      t = moveBrToAc (moveAcToIp (u.setCtx rest)) := by
  unfold returnFunc
  cases hc : s.ctx with
  | nil => simp
  | cons f rest =>
    cases hp : doPop (moveAcToBr s) with
    | error k => simp
    | ok u =>
      simp only [Except.ok.injEq, List.cons.injEq]
      constructor
      · rintro rfl
        exact ⟨f, rest, u, ⟨rfl, rfl⟩, rfl, rfl⟩
      · rintro ⟨f', rest', u', ⟨rfl, rfl⟩, rfl, rfl⟩
        rfl

/-- Everything a CALL that answers does (R212). -/
theorem callFunc_next {f : Nat} {s t : State} :
    callFunc f s = .ok t ↔ ∃ e, entryOf f s = some e ∧ inStack s.cfg (s.sp - 1).toInt = true ∧ ctxHasRoom s = true ∧
      t = { s with
        br := s.ac
        sp := s.sp - 1
        ip := e
        stack := sparseWrite s.cfg.stackDefault (s.sp - 1).toInt.toNat s.ip s.stack
        ctx := f :: s.ctx
        aluLeft := 0
        aluRight := 0
        aluFlags := Config.internalAluFlags .spMove s.tick } := by
  simp only [callFunc_ok, doPush_ok, ctxPush_ok]
  constructor
  · rintro ⟨e, u, he, ⟨hs, rfl⟩, v, ⟨hc, rfl⟩, rfl⟩
    refine ⟨e, he, by simpa [moveIpToAc_eq, moveAcToBr_eq] using hs, ?_, ?_⟩
    · rw [moveIpToAc_eq, moveAcToBr_eq] at hc
      exact hc
    · simp only [moveIpToAc_eq, moveAcToBr_eq, moveBrToAc_eq]
      rfl
  · rintro ⟨e, he, hs, hc, rfl⟩
    refine ⟨e, _, he, ⟨by simpa [moveIpToAc_eq, moveAcToBr_eq] using hs, rfl⟩, _, ⟨?_, rfl⟩, ?_⟩
    · rw [moveIpToAc_eq, moveAcToBr_eq]
      exact hc
    · simp only [moveIpToAc_eq, moveAcToBr_eq, moveBrToAc_eq]
      rfl

/-- Everything a RET that answers does (R213). -/
theorem returnFunc_next {s t : State} :
    returnFunc s = .ok t ↔ ∃ f rest, s.ctx = f :: rest ∧ inStack s.cfg s.sp.toInt = true ∧
      t = { s with
        br := s.ac
        sp := poppedSp s.cfg.popPolicy s.sp
        ip := stackSlot s.sp.toInt.toNat s
        ctx := rest
        aluLeft := 0
        aluRight := 0
        aluFlags := Config.internalAluFlags .spMove s.tick } := by
  simp only [returnFunc_ok, doPop_ok]
  constructor
  · rintro ⟨f, rest, u, hc, ⟨hs, rfl⟩, rfl⟩
    refine ⟨f, rest, hc, by simpa [moveAcToBr_eq] using hs, ?_⟩
    simp only [moveAcToBr_eq, moveAcToIp_eq, moveBrToAc_eq]
    rfl
  · rintro ⟨f, rest, hc, hs, rfl⟩
    refine ⟨f, rest, _, hc, ⟨by simpa [moveAcToBr_eq] using hs, rfl⟩, ?_⟩
    simp only [moveAcToBr_eq, moveAcToIp_eq, moveBrToAc_eq]
    rfl

end Sys2Proof.Machine
end

