-- ==== Sys2Proof/Laws/Exec.lean ====
section
/-!
SUPPORT. What `exec` is for each instruction, the tests of the conditional jumps, and what a step is.
-/
namespace Sys2Proof.Machine

theorem exec_hlt (s : State) : exec .hlt s = finish (.ok (s.setRun .halted)) := rfl
theorem exec_addAbs (n : Nat) (s : State) : exec (.addAbs n) s = finish (addWith (.abs n) s) := rfl
theorem exec_addImm (k : Int) (s : State) : exec (.addImm k) s = finish (addWith (.imm k) s) := rfl
theorem exec_addVar (v : Nat) (s : State) : exec (.addVar v) s = finish (addWith (.var v) s) := rfl
theorem exec_subAbs (n : Nat) (s : State) : exec (.subAbs n) s = finish (subWith (.abs n) s) := rfl
theorem exec_subImm (k : Int) (s : State) : exec (.subImm k) s = finish (subWith (.imm k) s) := rfl
theorem exec_subVar (v : Nat) (s : State) : exec (.subVar v) s = finish (subWith (.var v) s) := rfl
theorem exec_mulAbs (n : Nat) (s : State) : exec (.mulAbs n) s = finish (mulWith (.abs n) s) := rfl
theorem exec_mulImm (k : Int) (s : State) : exec (.mulImm k) s = finish (mulWith (.imm k) s) := rfl
theorem exec_mulVar (v : Nat) (s : State) : exec (.mulVar v) s = finish (mulWith (.var v) s) := rfl
theorem exec_divAbs (n : Nat) (s : State) : exec (.divAbs n) s = finish (divWith (.abs n) s) := rfl
theorem exec_divImm (k : Int) (s : State) : exec (.divImm k) s = finish (divWith (.imm k) s) := rfl
theorem exec_divVar (v : Nat) (s : State) : exec (.divVar v) s = finish (divWith (.var v) s) := rfl
theorem exec_cmpAbs (n : Nat) (s : State) : exec (.cmpAbs n) s = finish (cmpWith (.abs n) s) := rfl
theorem exec_cmpImm (k : Int) (s : State) : exec (.cmpImm k) s = finish (cmpWith (.imm k) s) := rfl
theorem exec_cmpVar (v : Nat) (s : State) : exec (.cmpVar v) s = finish (cmpWith (.var v) s) := rfl
theorem exec_ldAbs (n : Nat) (s : State) : exec (.ldAbs n) s = finish (loadWith (.abs n) s) := rfl
theorem exec_ldImm (k : Int) (s : State) : exec (.ldImm k) s = finish (loadWith (.imm k) s) := rfl
theorem exec_ldVar (v : Nat) (s : State) : exec (.ldVar v) s = finish (loadWith (.var v) s) := rfl
theorem exec_ldOutput (s : State) : exec .ldOutput s = finish (raise .invalidInstructionUsage) := rfl
theorem exec_stAbs (n : Nat) (s : State) : exec (.stAbs n) s = finish (storeTo (.abs n) s) := rfl
theorem exec_stImm (k : Int) (s : State) : exec (.stImm k) s = finish (raise .invalidInstructionUsage) := rfl
theorem exec_stVar (v : Nat) (s : State) : exec (.stVar v) s = finish (storeTo (.var v) s) := rfl
theorem exec_stInput (s : State) : exec .stInput s = finish (raise .invalidInstructionUsage) := rfl
theorem exec_stOutput (s : State) : exec .stOutput s = finish (outAppend s.ac s) := rfl
theorem exec_push (s : State) : exec .push s = finish (doPush s) := rfl
theorem exec_pop (s : State) : exec .pop s = finish (doPop s) := rfl
theorem exec_jmp (l : Nat) (s : State) : exec (.jmp l) s = finish (jumpTo l s) := rfl
theorem exec_call (f : Nat) (s : State) : exec (.call f) s = finish (callFunc f s) := rfl
theorem exec_ret (s : State) : exec .ret s = finish (returnFunc s) := rfl
theorem exec_jz (l : Nat) (s : State) : exec (.jz l) s = finish (jumpIf (takenJz s.ps) l s) := rfl
theorem exec_js (l : Nat) (s : State) : exec (.js l) s = finish (jumpIf (takenJs s.ps) l s) := rfl
theorem exec_jnz (l : Nat) (s : State) : exec (.jnz l) s = finish (jumpIf (takenJnz s.ps) l s) := rfl

theorem exec_inv (s : State) : exec .inv s =
    .next (((s.setAluSlots 0 0).setAc (negResult s.cfg.narrowPolicy s.ac 0)).setPs (psOf flagZ)) := rfl

theorem exec_ldInput (s : State) : exec .ldInput s = execLdInput s := rfl

theorem exec_ldInput_next {s t : State} : exec .ldInput s = .next t ↔
    s.inCur < s.cfg.memSize ∧
      t = ((s.setAr (Word.ofNat s.inCur)).setInCur (s.inCur + 1)).setAc (cellValue s.inCur s) := by
  rw [exec_ldInput]
  unfold execLdInput
  cases h : inputRead s with
  | error k =>
    simp only [finish_error, reduceCtorEq, false_iff]
    rintro ⟨hc, -⟩
    rw [inputRead_ok.mpr ⟨(inMem_natCast _ _).mpr hc, rfl, rfl⟩] at h
    cases h
  | ok p =>
    obtain ⟨v, u⟩ := p
    obtain ⟨hc, rfl, rfl⟩ := inputRead_ok.mp h
    simp only [finish_ok, Host.Outcome.next.injEq, (inMem_natCast _ _).mp hc, true_and]
    exact eq_comm

/-- LD INPUT past the end of memory faults (R181). -/
theorem exec_ldInput_out {s : State} (h : s.cfg.memSize ≤ s.inCur) :
    exec .ldInput s = .fault .addressOutOfRange := by
  rw [exec_ldInput]
  unfold execLdInput
  rw [inputRead_out h]
  rfl

/-- JZ is taken exactly when the Z bit of PS is set: the second conjunct of R214 follows from the first (C10). -/
theorem takenJz_eq (ps : Word) : takenJz ps = ps.getLsbD 1 := by
  have hz : psOf flagZ = BitVec.twoPow 32 1 := by decide
  have hand : ps &&& psOf flagZ = if ps.getLsbD 1 = true then BitVec.twoPow 32 1 else 0 := by
    rw [hz, BitVec.and_twoPow]
    rfl
  unfold takenJz
  rw [hand]
  cases h : ps.getLsbD 1 with
  | false => simp
  | true =>
    have h0 : ps ≠ 0 := by
      rintro rfl
      simp at h
    have h1 : (BitVec.twoPow 32 1 : Word) ≠ 0 := by decide
    rw [if_pos rfl, decide_eq_true h1, decide_eq_true h0]
    rfl

/-- JS is taken exactly when the N bit of PS is set (R215, C10). -/
theorem takenJs_eq (ps : Word) : takenJs ps = ps.getLsbD 0 := by
  have hn : psOf flagN = BitVec.twoPow 32 0 := by decide
  have hand : ps &&& psOf flagN = if ps.getLsbD 0 = true then BitVec.twoPow 32 0 else 0 := by
    rw [hn, BitVec.and_twoPow]
    rfl
  unfold takenJs
  rw [hand]
  cases h : ps.getLsbD 0 with
  | false => simp
  | true =>
    have h0 : ps ≠ 0 := by
      rintro rfl
      simp at h
    have h1 : (BitVec.twoPow 32 0 : Word) ≠ 0 := by decide
    rw [if_pos rfl, decide_eq_true h1, decide_eq_true h0]
    rfl

/-- JNZ is taken exactly when PS is not 2 (R216). -/
theorem takenJnz_eq (ps : Word) : takenJnz ps = decide (ps ≠ 2) := by
  have h : psOf flagZ = 2 := by decide
  unfold takenJnz
  rw [h]

/-- A step that answers: the machine ran, the fetch answered, and the instruction answered from there. -/
theorem step_next {s t : State} : step s = .next t ↔
    s.run = .running ∧ ∃ i, inMem s.cfg s.ip.toInt = true ∧ s.mem.instr s.ip.toInt.toNat = some i ∧
      exec i (fetched i s) = .next t := by
  unfold step
  cases hr : s.run with
  | halted => simp
  | faulted k => simp
  | running =>
    cases hf : fetch s with
    | error k =>
      simp only [reduceCtorEq, true_and, false_iff, not_exists]
      rintro i ⟨h1, h2, -⟩
      rw [fetch_ok.mpr ⟨h1, h2, rfl⟩] at hf
      cases hf
    | ok p =>
      obtain ⟨i, u⟩ := p
      obtain ⟨h1, h2, rfl⟩ := fetch_ok.mp hf
      simp only [true_and]
      constructor
      · intro h
        exact ⟨i, h1, h2, h⟩
      · rintro ⟨j, -, hj, h⟩
        rw [h2] at hj
        cases hj
        exact h

end Sys2Proof.Machine
end

