-- ==== Sys2Proof/Laws/Load.lean ====
section
/-!
SUPPORT. What the steps of a load leave in memory: code, text and variable cells, each in its own range, in
canonical form.
-/
namespace Sys2Proof.Machine

/-! ### Code -/

theorem placeCode_value (is : List Instr) (a b : Nat) (v : Word) (m : Memory) :
    (placeCode a is m).value v b = m.value v b := by
  induction is generalizing a m with
  | nil => rfl
  | cons i rest ih => rw [placeCode, ih, Memory.value_setInstr]

theorem placeCode_below (is : List Instr) {a b : Nat} (h : b < a) (m : Memory) :
    (placeCode a is m).instr b = m.instr b := by
  induction is generalizing a m with
  | nil => rfl
  | cons i rest ih =>
    rw [placeCode, ih (by omega), Memory.instr_setInstr, if_neg (by omega)]

/-- From address `a` up, `Code[j]` stands in cell `a + j`, and beyond the code the cells are as they were. -/
theorem placeCode_instr (is : List Instr) (a j : Nat) (m : Memory) :
    (placeCode a is m).instr (a + j) = (is[j]?).or (m.instr (a + j)) := by
  induction is generalizing a j m with
  | nil => rfl
  | cons i rest ih =>
    cases j with
    | zero => rw [placeCode, placeCode_below _ (by omega), Memory.instr_setInstr, if_pos (by omega)]; rfl
    | succ j =>
      have h : a + (j + 1) = (a + 1) + j := by omega
      rw [placeCode, h, ih, Memory.instr_setInstr, if_neg (by omega), List.getElem?_cons_succ]

theorem placeCode_wf (is : List Instr) {a : Nat} {v : Word} {size : Nat} {m : Memory} (hm : m.wf v size = true)
    (hi : ∀ i ∈ is, i.wf = true) (ha : a + is.length ≤ size) : (placeCode a is m).wf v size = true := by
  induction is generalizing a m with
  | nil => exact hm
  | cons i rest ih =>
    rw [List.length_cons] at ha
    refine ih (Memory.wf_setInstr hm (by omega) ?_)
      (fun j hj => hi j (List.mem_cons_of_mem _ hj)) (by omega)
    rintro j ⟨⟩
    exact hi i List.mem_cons_self

/-! ### Text -/

theorem placeText_instr (cs : List Char) (a b : Nat) (v : Word) (m : Memory) :
    (placeText v a cs m).instr b = m.instr b := by
  induction cs generalizing a m with
  | nil => rfl
  | cons c rest ih => rw [placeText, ih, Memory.instr_setValue]

theorem placeText_outside (cs : List Char) {a b : Nat} (h : b < a ∨ a + cs.length ≤ b) (v : Word) (m : Memory) :
    (placeText v a cs m).value v b = m.value v b := by
  induction cs generalizing a m with
  | nil => rfl
  | cons c rest ih =>
    rw [List.length_cons] at h
    rw [placeText, ih (by omega), Memory.value_setValue, if_neg (by omega)]

/-- The code of character `j` stands in cell `a + j`. -/
theorem placeText_value (cs : List Char) {a j : Nat} {c : Char} (h : cs[j]? = some c) (v : Word) (m : Memory) :
    (placeText v a cs m).value v (a + j) = charCode (some c) := by
  induction cs generalizing a j m with
  | nil => simp at h
  | cons d rest ih =>
    cases j with
    | zero =>
      rw [placeText, placeText_outside _ (.inl (by omega)), Memory.value_setValue, if_pos (by omega)]
      simp at h
      rw [h]
    | succ j =>
      have ha : a + (j + 1) = (a + 1) + j := by omega
      rw [List.getElem?_cons_succ] at h
      rw [placeText, ha, ih h]

theorem placeText_wf (cs : List Char) {a : Nat} {v : Word} {size : Nat} {m : Memory} (hm : m.wf v size = true)
    (ha : a + cs.length ≤ size) : (placeText v a cs m).wf v size = true := by
  induction cs generalizing a m with
  | nil => exact hm
  | cons c rest ih =>
    rw [List.length_cons] at ha
    exact ih (Memory.wf_setValue hm (by omega) _) (by omega)

/-! ### Variables -/

/-- The initializer of a variable fits its declared length. -/
def VarDecl.fits (d : VarDecl) : Prop :=
  match d.init with
  | .int _ => True
  | .chars cs len => (cs.length : Int) ≤ len

theorem placeVar_instr (d : VarDecl) (a b : Nat) (v : Word) (m : Memory) :
    (placeVar v a d m).instr b = m.instr b := by
  unfold placeVar
  cases d.init with
  | int k => rfl
  | chars cs len => exact placeText_instr _ _ _ _ _

theorem placeVar_outside {d : VarDecl} (hd : d.fits) {a b : Nat} (h : b < a ∨ a + d.init.size ≤ b)
    (v : Word) (m : Memory) : (placeVar v a d m).value v b = m.value v b := by
  unfold placeVar
  unfold VarDecl.fits at hd
  cases hi : d.init with
  | int k =>
    rw [hi] at h
    have hs : (VarInit.int k).size = 1 := rfl
    exact (Memory.value_setValue _ _ _ _ _).trans (if_neg (by omega))
  | chars cs len =>
    rw [hi] at h hd
    have hs : (VarInit.chars cs len).size = len.toNat := rfl
    exact placeText_outside _ (by simp only at hd; omega) _ _

theorem placeVar_wf {d : VarDecl} (hd : d.fits) {a : Nat} {v : Word} {size : Nat} {m : Memory}
    (hm : m.wf v size = true)
    (ha : a + d.init.size ≤ size) : (placeVar v a d m).wf v size = true := by
  unfold placeVar
  unfold VarDecl.fits at hd
  cases hi : d.init with
  | int k =>
    rw [hi] at ha
    have hs : (VarInit.int k).size = 1 := rfl
    exact Memory.wf_setValue hm (by omega) _
  | chars cs len =>
    rw [hi] at ha hd
    have hs : (VarInit.chars cs len).size = len.toNat := rfl
    exact placeText_wf _ hm (by simp only at hd; omega)

theorem placeVars_instr (ds : List VarDecl) (a b : Nat) (v : Word) (m : Memory) :
    (placeVars v a ds m).instr b = m.instr b := by
  induction ds generalizing a m with
  | nil => rfl
  | cons d rest ih => rw [placeVars, ih, placeVar_instr]

theorem placeVars_outside {ds : List VarDecl} (hd : ∀ d ∈ ds, d.fits) {a b : Nat}
    (h : b < a ∨ a + varCells ds ≤ b) (v : Word) (m : Memory) : (placeVars v a ds m).value v b = m.value v b := by
  induction ds generalizing a m with
  | nil => rfl
  | cons d rest ih =>
    have hs : varCells (d :: rest) = d.init.size + varCells rest := rfl
    rw [placeVars, ih (fun e he => hd e (List.mem_cons_of_mem _ he)) (by omega),
      placeVar_outside (hd d List.mem_cons_self) (by omega)]

theorem placeVars_wf {ds : List VarDecl} (hd : ∀ d ∈ ds, d.fits) {a : Nat} {v : Word} {size : Nat}
    {m : Memory} (hm : m.wf v size = true)
    (ha : a + varCells ds ≤ size) : (placeVars v a ds m).wf v size = true := by
  induction ds generalizing a m with
  | nil => exact hm
  | cons d rest ih =>
    have hs : varCells (d :: rest) = d.init.size + varCells rest := rfl
    exact ih (fun e he => hd e (List.mem_cons_of_mem _ he))
      (placeVar_wf (hd d List.mem_cons_self) hm (by omega)) (by omega)

/-- The cells of variable `k` are those `placeVar` gives it: no other variable writes them. -/
theorem placeVars_value {ds : List VarDecl} (hd : ∀ d ∈ ds, d.fits) {a k j : Nat} {d : VarDecl}
    (hk : ds[k]? = some d) (hj : j < d.init.size) (v : Word) (m : Memory) :
    ∃ m' : Memory, (∀ b, a + varCells (ds.take k) ≤ b → m'.value v b = m.value v b) ∧
      (placeVars v a ds m).value v (a + varCells (ds.take k) + j) =
        (placeVar v (a + varCells (ds.take k)) d m').value v (a + varCells (ds.take k) + j) := by
  induction ds generalizing a k m with
  | nil => simp at hk
  | cons e rest ih =>
    have hrest : ∀ f ∈ rest, f.fits := fun f hf => hd f (List.mem_cons_of_mem _ hf)
    cases k with
    | zero =>
      simp only [List.getElem?_cons_zero, Option.some.injEq] at hk
      subst hk
      refine ⟨m, fun _ _ => rfl, ?_⟩
      have h0 : varCells ((e :: rest).take 0) = 0 := rfl
      rw [h0, placeVars, placeVars_outside hrest (by omega)]
      rfl
    | succ k =>
      rw [List.getElem?_cons_succ] at hk
      have ht : varCells ((e :: rest).take (k + 1)) = e.init.size + varCells (rest.take k) := rfl
      obtain ⟨m', hm, hv⟩ := ih hrest (a := a + e.init.size) hk (placeVar v a e m)
      rw [ht, ← Nat.add_assoc]
      refine ⟨m', fun b hb => ?_, hv⟩
      rw [hm b hb, placeVar_outside (hd e List.mem_cons_self) (by omega)]

theorem layoutVars_getElem (ds : List VarDecl) (a k : Nat) {d : VarDecl} (hk : ds[k]? = some d) :
    (layoutVars a ds)[k]? = some (a + varCells (ds.take k)) := by
  induction ds generalizing a k with
  | nil => simp at hk
  | cons e rest ih =>
    cases k with
    | zero => rfl
    | succ k =>
      rw [List.getElem?_cons_succ] at hk
      have ht : varCells ((e :: rest).take (k + 1)) = e.init.size + varCells (rest.take k) := rfl
      rw [layoutVars, List.getElem?_cons_succ, ih _ _ hk, ht, Nat.add_assoc]

/-! ### The whole load -/

theorem decodeWords_length {ws : List Word40} {is : List Instr} (h : decodeWords ws = .ok is) :
    is.length = ws.length := by
  induction ws generalizing is with
  | nil =>
    cases h
    rfl
  | cons w rest ih =>
    unfold decodeWords at h
    cases hw : decode w with
    | error e =>
      rw [hw] at h
      cases h
    | ok i =>
      rw [hw] at h
      cases hr : decodeWords rest with
      | error e =>
        rw [hr] at h
        cases h
      | ok js =>
        rw [hr] at h
        cases h
        simp [ih hr]

theorem CodeImage.instrs_length {c : CodeImage} {is : List Instr} (h : c.instrs = .ok is) :
    is.length = c.length := by
  cases c with
  | decoded js =>
    simp only [CodeImage.instrs] at h
    split at h
    · cases h
      rfl
    · cases h
  | binary ws =>
    simp only [CodeImage.instrs] at h
    split at h
    · cases h
    · rename_i js hj
      cases h
      exact decodeWords_length hj

theorem errorIf_eq_nil {b : Bool} {e : LoadError} : errorIf b e = [] ↔ b = false := by
  cases b <;> simp [errorIf]

/-- A load that answers: the code is legal, no check fails, and the state is the loaded one. -/
theorem load_ok {r : RunInput} {s : State} :
    load r = .ok s ↔ ∃ is, r.code.instrs = .ok is ∧ dataErrors r = [] ∧ s = loadedState is r := by
  unfold load
  cases hc : r.code.instrs with
  | error es => simp
  | ok is =>
    cases hd : dataErrors r with
    | nil => simp [eq_comm]
    | cons e es => simp

end Sys2Proof.Machine
end

