-- ==== Sys2Proof/Laws/PerInstr.lean ====
section
/-!
SUPPORT. The family `TopByte`: the first byte of an instruction's serial form is the top byte that its row of
opcode_table.json gives (30_encoding.md R82, R95).
-/
namespace Sys2Proof.Laws.TopByte

/-- The top byte of each instruction's row in opcode_table.json. -/
def tableByte : Instr → BitVec 8
  | .hlt => 0x00#8
  | .addAbs _ => 0x09#8
  | .addImm _ => 0x0A#8
  | .addVar _ => 0x0B#8
  | .subAbs _ => 0x11#8
  | .subImm _ => 0x12#8
  | .subVar _ => 0x13#8
  | .mulAbs _ => 0x19#8
  | .mulImm _ => 0x1A#8
  | .mulVar _ => 0x1B#8
  | .divAbs _ => 0x21#8
  | .divImm _ => 0x22#8
  | .divVar _ => 0x23#8
  | .inv => 0x28#8
  | .cmpAbs _ => 0x31#8
  | .cmpImm _ => 0x32#8
  | .cmpVar _ => 0x33#8
  | .ldAbs _ => 0x39#8
  | .ldImm _ => 0x3A#8
  | .ldVar _ => 0x3B#8
  | .ldInput => 0x3E#8
  | .ldOutput => 0x3F#8
  | .stAbs _ => 0x41#8
  | .stImm _ => 0x42#8
  | .stVar _ => 0x43#8
  | .stInput => 0x46#8
  | .stOutput => 0x47#8
  | .push => 0x48#8
  | .pop => 0x50#8
  | .jmp _ => 0x5C#8
  | .call _ => 0x65#8
  | .ret => 0x68#8
  | .jz _ => 0x74#8
  | .js _ => 0x7C#8
  | .jnz _ => 0x84#8

/-- The first of the five bytes is the table's top byte. -/
def Statement (i : Instr) : Prop := (encode i).extractLsb' 32 8 = tableByte i

/-- The top byte of a packed word is its opcode and mode. -/
theorem pack_top (m : Mnemonic) (mode : Mode) (x : BitVec 32) :
    (pack m mode x).extractLsb' 32 8 = opcodeOf m ++ modeNumber mode := by
  unfold pack
  apply BitVec.eq_of_getLsbD_eq
  intro j hj
  simp only [BitVec.getLsbD_extractLsb', BitVec.getLsbD_append]
  have h1 : ¬ 32 + j < 32 := by omega
  have h2 : 32 + j - 32 = j := by omega
  simp [hj, h1, h2]

theorem hlt : Statement .hlt :=
  (pack_top .hlt .noArg 0).trans
    (by decide : opcodeOf .hlt ++ modeNumber .noArg = 0x00#8)
theorem addAbs (n : Nat) : Statement (.addAbs n) :=
  (pack_top .add .abs (Word.ofNat n)).trans
    (by decide : opcodeOf .add ++ modeNumber .abs = 0x09#8)
theorem addImm (k : Int) : Statement (.addImm k) :=
  (pack_top .add .imm (Word.ofInt k)).trans
    (by decide : opcodeOf .add ++ modeNumber .imm = 0x0A#8)
theorem addVar (v : Nat) : Statement (.addVar v) :=
  (pack_top .add .var (Word.ofNat v)).trans
    (by decide : opcodeOf .add ++ modeNumber .var = 0x0B#8)
theorem subAbs (n : Nat) : Statement (.subAbs n) :=
  (pack_top .sub .abs (Word.ofNat n)).trans
    (by decide : opcodeOf .sub ++ modeNumber .abs = 0x11#8)
theorem subImm (k : Int) : Statement (.subImm k) :=
  (pack_top .sub .imm (Word.ofInt k)).trans
    (by decide : opcodeOf .sub ++ modeNumber .imm = 0x12#8)
theorem subVar (v : Nat) : Statement (.subVar v) :=
  (pack_top .sub .var (Word.ofNat v)).trans
    (by decide : opcodeOf .sub ++ modeNumber .var = 0x13#8)
theorem mulAbs (n : Nat) : Statement (.mulAbs n) :=
  (pack_top .mul .abs (Word.ofNat n)).trans
    (by decide : opcodeOf .mul ++ modeNumber .abs = 0x19#8)
theorem mulImm (k : Int) : Statement (.mulImm k) :=
  (pack_top .mul .imm (Word.ofInt k)).trans
    (by decide : opcodeOf .mul ++ modeNumber .imm = 0x1A#8)
theorem mulVar (v : Nat) : Statement (.mulVar v) :=
  (pack_top .mul .var (Word.ofNat v)).trans
    (by decide : opcodeOf .mul ++ modeNumber .var = 0x1B#8)
theorem divAbs (n : Nat) : Statement (.divAbs n) :=
  (pack_top .div .abs (Word.ofNat n)).trans
    (by decide : opcodeOf .div ++ modeNumber .abs = 0x21#8)
theorem divImm (k : Int) : Statement (.divImm k) :=
  (pack_top .div .imm (Word.ofInt k)).trans
    (by decide : opcodeOf .div ++ modeNumber .imm = 0x22#8)
theorem divVar (v : Nat) : Statement (.divVar v) :=
  (pack_top .div .var (Word.ofNat v)).trans
    (by decide : opcodeOf .div ++ modeNumber .var = 0x23#8)
theorem inv : Statement .inv :=
  (pack_top .inv .noArg 0).trans
    (by decide : opcodeOf .inv ++ modeNumber .noArg = 0x28#8)
theorem cmpAbs (n : Nat) : Statement (.cmpAbs n) :=
  (pack_top .cmp .abs (Word.ofNat n)).trans
    (by decide : opcodeOf .cmp ++ modeNumber .abs = 0x31#8)
theorem cmpImm (k : Int) : Statement (.cmpImm k) :=
  (pack_top .cmp .imm (Word.ofInt k)).trans
    (by decide : opcodeOf .cmp ++ modeNumber .imm = 0x32#8)
theorem cmpVar (v : Nat) : Statement (.cmpVar v) :=
  (pack_top .cmp .var (Word.ofNat v)).trans
    (by decide : opcodeOf .cmp ++ modeNumber .var = 0x33#8)
theorem ldAbs (n : Nat) : Statement (.ldAbs n) :=
  (pack_top .ld .abs (Word.ofNat n)).trans
    (by decide : opcodeOf .ld ++ modeNumber .abs = 0x39#8)
theorem ldImm (k : Int) : Statement (.ldImm k) :=
  (pack_top .ld .imm (Word.ofInt k)).trans
    (by decide : opcodeOf .ld ++ modeNumber .imm = 0x3A#8)
theorem ldVar (v : Nat) : Statement (.ldVar v) :=
  (pack_top .ld .var (Word.ofNat v)).trans
    (by decide : opcodeOf .ld ++ modeNumber .var = 0x3B#8)
theorem ldInput : Statement .ldInput :=
  (pack_top .ld .input 0).trans
    (by decide : opcodeOf .ld ++ modeNumber .input = 0x3E#8)
theorem ldOutput : Statement .ldOutput :=
  (pack_top .ld .output 0).trans
    (by decide : opcodeOf .ld ++ modeNumber .output = 0x3F#8)
theorem stAbs (n : Nat) : Statement (.stAbs n) :=
  (pack_top .st .abs (Word.ofNat n)).trans
    (by decide : opcodeOf .st ++ modeNumber .abs = 0x41#8)
theorem stImm (k : Int) : Statement (.stImm k) :=
  (pack_top .st .imm (Word.ofInt k)).trans
    (by decide : opcodeOf .st ++ modeNumber .imm = 0x42#8)
theorem stVar (v : Nat) : Statement (.stVar v) :=
  (pack_top .st .var (Word.ofNat v)).trans
    (by decide : opcodeOf .st ++ modeNumber .var = 0x43#8)
theorem stInput : Statement .stInput :=
  (pack_top .st .input 0).trans
    (by decide : opcodeOf .st ++ modeNumber .input = 0x46#8)
theorem stOutput : Statement .stOutput :=
  (pack_top .st .output 0).trans
    (by decide : opcodeOf .st ++ modeNumber .output = 0x47#8)
theorem push : Statement .push :=
  (pack_top .push .noArg 0).trans
    (by decide : opcodeOf .push ++ modeNumber .noArg = 0x48#8)
theorem pop : Statement .pop :=
  (pack_top .pop .noArg 0).trans
    (by decide : opcodeOf .pop ++ modeNumber .noArg = 0x50#8)
theorem jmp (l : Nat) : Statement (.jmp l) :=
  (pack_top .jmp .label (Word.ofNat l)).trans
    (by decide : opcodeOf .jmp ++ modeNumber .label = 0x5C#8)
theorem call (f : Nat) : Statement (.call f) :=
  (pack_top .call .func (Word.ofNat f)).trans
    (by decide : opcodeOf .call ++ modeNumber .func = 0x65#8)
theorem ret : Statement .ret :=
  (pack_top .ret .noArg 0).trans
    (by decide : opcodeOf .ret ++ modeNumber .noArg = 0x68#8)
theorem jz (l : Nat) : Statement (.jz l) :=
  (pack_top .jz .label (Word.ofNat l)).trans
    (by decide : opcodeOf .jz ++ modeNumber .label = 0x74#8)
theorem js (l : Nat) : Statement (.js l) :=
  (pack_top .js .label (Word.ofNat l)).trans
    (by decide : opcodeOf .js ++ modeNumber .label = 0x7C#8)
theorem jnz (l : Nat) : Statement (.jnz l) :=
  (pack_top .jnz .label (Word.ofNat l)).trans
    (by decide : opcodeOf .jnz ++ modeNumber .label = 0x84#8)

end Sys2Proof.Laws.TopByte
end

