-- ==== Sys2Proof/Laws/Run.lean ====
section
/-!
SUPPORT. The run loop one turn at a time: what a turn does with a step that answers and with one that faults, and that an
ended run stays where it is.
-/
namespace Sys2Proof.Machine

theorem advance_next {s t : State} (h : step s = .next t) : advance s = t := by
  rw [advance, h]

theorem advance_fault {s : State} {k : Fault} (h : step s = .fault k) : advance s = s.setRun (.faulted k) := by
  rw [advance, h]

/-- No step follows the end of a run. -/
theorem step_ended {s : State} (h : s.run ≠ .running) : step s = .refused .runEnded := by
  unfold step
  cases hr : s.run with
  | running => exact absurd hr h
  | halted => rfl
  | faulted k => rfl

@[simp] theorem runFor_zero (s : State) : runFor 0 s = s := rfl

theorem runFor_succ {s : State} (h : s.run = .running) (n : Nat) : runFor (n + 1) s = runFor n (advance s) := by
  rw [runFor, h]

/-- An ended run stays where it is, however long it is followed. -/
theorem runFor_ended {s : State} (h : s.run ≠ .running) (n : Nat) : runFor n s = s := by
  cases n with
  | zero => rfl
  | succ n =>
    unfold runFor
    cases hr : s.run with
    | running => exact absurd hr h
    | halted => rfl
    | faulted k => rfl

/-- What the loop answers from an ended run: the fuel and the ceiling play no part. -/
theorem runLoop_ended {s : State} (h : s.run ≠ .running) (n : Nat) (f : State → RunOutcome) :
    runLoop n s = outcomeOf f s := by
  have ho : ∀ g, outcomeOf g s = outcomeOf f s := by
    intro g
    unfold outcomeOf
    cases hr : s.run with
    | running => exact absurd hr h
    | halted => rfl
    | faulted k => rfl
  unfold runLoop
  cases s.cfg.maxSteps with
  | none => rw [runFor_ended h, ho]
  | some m =>
    simp only [runFor_ended h]
    split <;> exact ho _

end Sys2Proof.Machine
end

