-- ==== Sys2Proof/Tests/Slice0.lean ====
section
/-!
SUPPORT. Tests: written-out words, ill-formed terms, one-step vectors of 95_test_vectors.md, and a witness for the
hypotheses of every statement. Expected values are the spec's (the vector is named), or worked by hand from the
rule named.
-/
namespace Sys2Proof.Tests
open Sys2Proof Sys2Proof.Machine

/-- A component of the next state, where there is one. -/
def after {α : Type} (f : State → α) (o : Host.Outcome State Fault Refusal) : Option α :=
  match o with
  | .next t => some (f t)
  | _ => none

/-- The fault of an outcome, where there is one. -/
def faultOf (o : Host.Outcome State Fault Refusal) : Option Fault :=
  match o with
  | .fault k => some k
  | _ => none

/-- The outcome is a next state. -/
def isNext (o : Host.Outcome State Fault Refusal) : Bool :=
  match o with
  | .next _ => true
  | _ => false

theorem next_of_isNext {o : Host.Outcome State Fault Refusal} (h : isNext o = true) : ∃ t, o = .next t := by
  cases o with
  | next t => exact ⟨t, rfl⟩
  | fault k => cases h
  | refused r => cases h

/-- The state the tests start from: reset, room for two outputs, functions `_START` (labels `self` at 0, 1 at 9)
and 1 (at 3), variables at 20, 1023, 1024 and 0. -/
def base : State :=
  { State.reset with
    tables := { funcs := [(0, [(0, 0), (1, 9)]), (1, [(0, 3)])], varAddr := [20, 1023, 1024, 0] }
    cfg := { Params.hardware with outCapacity := 2 } }

/-- A machine whose call-context stack holds two names and whose ceiling is one step. -/
def bounded : State := { base with cfg := { base.cfg with ctxDepth := some 2, maxSteps := some 1 } }

/-- `base` in corrected mode. -/
def corrected : State := { base with cfg := { base.cfg with popPolicy := .corrected } }

/-- A value in one cell. -/
def withCell (a : Nat) (v : Word) (s : State) : State := s.setMem (s.mem.setValue s.cfg.cellDefault a v)

/-- An instruction in the cell at IP. -/
def withCode (i : Instr) (s : State) : State := placeAtIp (some i) s

/-! ### Decoding: the word of every row, written out from rules R82 to R86 -/

theorem test_decode_hlt : decode 0x0000000000 = .ok (.hlt) := by decide
theorem test_decode_addAbs : decode 0x090000000C = .ok (.addAbs 12) := by decide
theorem test_decode_addImm : decode 0x0AFFFFFFFF = .ok (.addImm (-1)) := by decide
theorem test_decode_addVar : decode 0x0B00000001 = .ok (.addVar 1) := by decide
theorem test_decode_subAbs : decode 0x110000000C = .ok (.subAbs 12) := by decide
theorem test_decode_subImm : decode 0x1200000001 = .ok (.subImm 1) := by decide
theorem test_decode_subVar : decode 0x1300000002 = .ok (.subVar 2) := by decide
theorem test_decode_mulAbs : decode 0x190000000C = .ok (.mulAbs 12) := by decide
theorem test_decode_mulImm : decode 0x1A0000B504 = .ok (.mulImm 46340) := by decide
theorem test_decode_mulVar : decode 0x1B00000002 = .ok (.mulVar 2) := by decide
theorem test_decode_divAbs : decode 0x210000000C = .ok (.divAbs 12) := by decide
theorem test_decode_divImm : decode 0x22FFFFFFFE = .ok (.divImm (-2)) := by decide
theorem test_decode_divVar : decode 0x2300000000 = .ok (.divVar 0) := by decide
theorem test_decode_inv : decode 0x2800000000 = .ok (.inv) := by decide
theorem test_decode_cmpAbs : decode 0x310000000C = .ok (.cmpAbs 12) := by decide
theorem test_decode_cmpImm : decode 0x3200000005 = .ok (.cmpImm 5) := by decide
theorem test_decode_cmpVar : decode 0x3300000002 = .ok (.cmpVar 2) := by decide
theorem test_decode_ldAbs : decode 0x39FFFFFFFF = .ok (.ldAbs 4294967295) := by decide
theorem test_decode_ldImm : decode 0x3A80000000 = .ok (.ldImm (-2147483648)) := by decide
theorem test_decode_ldVar : decode 0x3B00000001 = .ok (.ldVar 1) := by decide
theorem test_decode_ldInput : decode 0x3E00000000 = .ok (.ldInput) := by decide
theorem test_decode_ldOutput : decode 0x3F00000000 = .ok (.ldOutput) := by decide
theorem test_decode_stAbs : decode 0x4100000064 = .ok (.stAbs 100) := by decide
theorem test_decode_stImm : decode 0x4200000005 = .ok (.stImm 5) := by decide
theorem test_decode_stVar : decode 0x4300000001 = .ok (.stVar 1) := by decide
theorem test_decode_stInput : decode 0x4600000000 = .ok (.stInput) := by decide
theorem test_decode_stOutput : decode 0x4700000000 = .ok (.stOutput) := by decide
theorem test_decode_push : decode 0x4800000000 = .ok (.push) := by decide
theorem test_decode_pop : decode 0x5000000000 = .ok (.pop) := by decide
theorem test_decode_jmp : decode 0x5C00000001 = .ok (.jmp 1) := by decide
theorem test_decode_call : decode 0x6500000001 = .ok (.call 1) := by decide
theorem test_decode_ret : decode 0x6800000000 = .ok (.ret) := by decide
theorem test_decode_jz : decode 0x7400000002 = .ok (.jz 2) := by decide
theorem test_decode_js : decode 0x7C00000001 = .ok (.js 1) := by decide
theorem test_decode_jnz : decode 0x8400000003 = .ok (.jnz 3) := by decide

/-! ### Words that are rejected (R87, T-EN-2, 3, 4, 10, 14, 16, 17) -/

theorem test_reject_hlt_operand : decode 0x0000000001 = .error .nonzeroOperand := by decide
theorem test_reject_add_none : decode 0x0800000000 = .error .illegalMode := by decide
theorem test_reject_add_label : decode 0x0C00000000 = .error .illegalMode := by decide
theorem test_reject_ld_input_operand : decode 0x3E00000001 = .error .nonzeroOperand := by decide
theorem test_reject_jmp_abs : decode 0x5900000000 = .error .illegalMode := by decide
theorem test_reject_opcode_17 : decode 0x8800000000 = .error .reservedOpcode := by decide
theorem test_reject_opcode_31 : decode 0xFF00000000 = .error .reservedOpcode := by decide

theorem test_bytes_of_a_word : encodeBytes (.ldImm 21) = [0x3A, 0x00, 0x00, 0x00, 0x15] := by decide
theorem test_image_of_odd_length : decodeImage [0x3A, 0x00] = .error .badLength := by decide
theorem test_table_word : decodeTableWord 40 0x5C00000001 = some (.jmp 1) := by decide
theorem test_table_word_too_long : decodeTableWord 48 0x010000000000 = none := by decide

/-! ### Ill-formed terms, one for each check of `Instr.wf` (R80, R85) -/

theorem test_wf_addAbs : (Instr.addAbs 4294967296).wf = false := by decide
theorem test_wf_addImm : (Instr.addImm 2147483648).wf = false := by decide
theorem test_wf_addVar : (Instr.addVar 4294967296).wf = false := by decide
theorem test_wf_subAbs : (Instr.subAbs 4294967296).wf = false := by decide
theorem test_wf_subImm : (Instr.subImm 2147483648).wf = false := by decide
theorem test_wf_subVar : (Instr.subVar 4294967296).wf = false := by decide
theorem test_wf_mulAbs : (Instr.mulAbs 4294967296).wf = false := by decide
theorem test_wf_mulImm : (Instr.mulImm 2147483648).wf = false := by decide
theorem test_wf_mulVar : (Instr.mulVar 4294967296).wf = false := by decide
theorem test_wf_divAbs : (Instr.divAbs 4294967296).wf = false := by decide
theorem test_wf_divImm : (Instr.divImm 2147483648).wf = false := by decide
theorem test_wf_divVar : (Instr.divVar 4294967296).wf = false := by decide
theorem test_wf_cmpAbs : (Instr.cmpAbs 4294967296).wf = false := by decide
theorem test_wf_cmpImm : (Instr.cmpImm 2147483648).wf = false := by decide
theorem test_wf_cmpVar : (Instr.cmpVar 4294967296).wf = false := by decide
theorem test_wf_ldAbs : (Instr.ldAbs 4294967296).wf = false := by decide
theorem test_wf_ldImm : (Instr.ldImm 2147483648).wf = false := by decide
theorem test_wf_ldVar : (Instr.ldVar 4294967296).wf = false := by decide
theorem test_wf_stAbs : (Instr.stAbs 4294967296).wf = false := by decide
theorem test_wf_stImm : (Instr.stImm 2147483648).wf = false := by decide
theorem test_wf_stVar : (Instr.stVar 4294967296).wf = false := by decide
theorem test_wf_jmp : (Instr.jmp 4294967296).wf = false := by decide
theorem test_wf_call : (Instr.call 4294967296).wf = false := by decide
theorem test_wf_jz : (Instr.jz 4294967296).wf = false := by decide
theorem test_wf_js : (Instr.js 4294967296).wf = false := by decide
theorem test_wf_jnz : (Instr.jnz 4294967296).wf = false := by decide
theorem test_wf_imm_below : (Instr.ldImm (-2147483649)).wf = false := by decide
theorem test_wf_bounds : (Instr.ldImm (-2147483648)).wf = true ∧ (Instr.ldAbs 4294967295).wf = true := by decide

/-! ### Argument strings (R91, R92; 95_test_vectors.md section 2.8) -/

theorem test_classify_abs : classify .ld (some ['1', '2']) = some (.abs 12) := by decide
theorem test_classify_imm : classify .ld (some ['#', '-', '1', '2']) = some (.imm (-12)) := by decide
theorem test_classify_char : classify .ld (some [quoteChar, 'A', quoteChar]) = some (.char (some 'A')) := by decide
theorem test_classify_empty_char : classify .ld (some [quoteChar, quoteChar]) = some (.char none) := by decide
theorem test_classify_minus : classify .ld (some ['-', '1', '2']) = some (.var ['-', '1', '2']) := by decide
theorem test_classify_hash : classify .ld (some ['#', '1', 'x']) = some (.var ['#', '1', 'x']) := by decide
theorem test_classify_input : classify .ld (some inputWord) = some .input ∧
    classify .add (some inputWord) = some (.var inputWord) := by decide

/-! ### One step of each instruction -/

/-- R143. -/
theorem test_hlt :
    after State.run (exec .hlt base) = some .halted := by decide
/-- 95_test_vectors.md section 2.1, ADD 12. -/
theorem test_addAbs_var_cell :
    after (fun t => (t.ac, t.ps, t.ar)) (exec (.addAbs 12) (withCell 12 40 (base.setAc 2))) = some (42, 0, 12) := by decide
/-- T-ADD-8. -/
theorem test_addImm_folds_to_zero :
    after (fun t => (t.ac, t.ps)) (exec (.addImm (-1)) (base.setAc 0x80000000)) = some (0, 14) := by decide
/-- T-ADD-5. -/
theorem test_addImm_positive_overflow :
    after (fun t => (t.ac, t.ps)) (exec (.addImm 1) (base.setAc 0x7FFFFFFF)) = some (0x80000000, 13) := by decide
/-- 95_test_vectors.md section 2.1, ADD x. -/
theorem test_addVar :
    after (fun t => (t.ac, t.ps, t.ar)) (exec (.addVar 0) (withCell 20 (-2) (base.setAc 2))) = some (0, 2, 20) := by decide
/-- T-SUB-2 through an absolute operand. -/
theorem test_subAbs :
    after (fun t => (t.ac, t.ps, t.ar)) (exec (.subAbs 12) (withCell 12 5 (base.setAc 3))) = some (-2, 1, 12) := by decide
/-- T-SUB-8. -/
theorem test_subImm :
    after (fun t => (t.ac, t.ps)) (exec (.subImm 1) (base.setAc 0x80000000)) = some (1, 12) := by decide
/-- T-SUB-6 through a variable. -/
theorem test_subVar :
    after (fun t => (t.ac, t.ps)) (exec (.subVar 0) (withCell 20 0x80000000 base)) = some (0x80000000, 1) := by decide
/-- T-MUL-2 through an absolute operand; PS keeps its value (R163). -/
theorem test_mulAbs :
    after (fun t => (t.ac, t.ps)) (exec (.mulAbs 12) (withCell 12 4 ((base.setAc (-3)).setPs 13))) = some (-12, 13) := by decide
/-- T-MUL-5. -/
theorem test_mulImm_narrowed :
    after State.ac (exec (.mulImm 46341) (base.setAc 46341)) = some (-2147479015) := by decide
/-- T-MUL-4 through a variable. -/
theorem test_mulVar :
    after State.ac (exec (.mulVar 0) (withCell 20 46340 (base.setAc 46340))) = some 2147395600 := by decide
/-- T-DIV-2 through an absolute operand. -/
theorem test_divAbs :
    after (fun t => (t.ac, t.ps)) (exec (.divAbs 12) (withCell 12 2 ((base.setAc (-7)).setPs 1))) = some (-3, 1) := by decide
/-- T-DIV-10. -/
theorem test_divImm_zero :
    faultOf (exec (.divImm 0) (base.setAc 10)) = some .divisionByZero := by decide
/-- T-DIV-3 through a variable. -/
theorem test_divVar :
    after State.ac (exec (.divVar 0) (withCell 20 (-2) (base.setAc 7))) = some (-3) := by decide
/-- T-INV-3. -/
theorem test_inv :
    after (fun t => (t.ac, t.ps)) (exec .inv ((base.setAc (-7)).setPs 13)) = some (7, 2) := by decide
/-- T-INV-4. -/
theorem test_inv_of_the_least :
    after (fun t => (t.ac, t.ps)) (exec .inv (base.setAc 0x80000000)) = some (0x80000000, 2) := by decide
/-- T-CMP-1 through an absolute operand. -/
theorem test_cmpAbs :
    after (fun t => (t.ac, t.ps, t.ar)) (exec (.cmpAbs 12) (withCell 12 5 (base.setAc 3))) = some (3, 1, 12) := by decide
/-- T-CMP-5. -/
theorem test_cmpImm :
    after (fun t => (t.ac, t.ps)) (exec (.cmpImm (-1)) (base.setAc 0x7FFFFFFF)) = some (0x7FFFFFFF, 13) := by decide
/-- T-CMP-4 through a variable. -/
theorem test_cmpVar :
    after (fun t => (t.ac, t.ps)) (exec (.cmpVar 0) (withCell 20 1 (base.setAc 0x80000000))) = some (0x80000000, 12) := by decide
/-- T-LD-4. -/
theorem test_ldAbs :
    after (fun t => (t.ac, t.ar)) (exec (.ldAbs 100) (withCell 100 9 base)) = some (9, 100) := by decide
/-- T-LD-7. -/
theorem test_ldAbs_outside :
    faultOf (exec (.ldAbs 1024) base) = some .addressOutOfRange := by decide
/-- T-LD-2: AR unchanged by the operand. -/
theorem test_ldImm :
    after (fun t => (t.ac, t.ar)) (exec (.ldImm (-5)) (base.setAr 7)) = some (-5, 7) := by decide
/-- T-LD-8 at address 20. -/
theorem test_ldVar :
    after (fun t => (t.ac, t.ar)) (exec (.ldVar 0) (withCell 20 15 base)) = some (15, 20) := by decide
/-- T-LD-9. -/
theorem test_ldVar_undeclared :
    faultOf (exec (.ldVar 4) base) = some .undefinedVariable := by decide
/-- T-LD-13. -/
theorem test_ldInput :
    after (fun t => (t.ac, t.inCur, t.ar)) (exec .ldInput (withCell 1023 8 (base.setInCur 1023))) = some (8, 1024, 1023) := by decide
/-- T-LD-14. -/
theorem test_ldInput_exhausted :
    faultOf (exec .ldInput (base.setInCur 1024)) = some .addressOutOfRange := by decide
/-- T-LD-15. -/
theorem test_ldOutput :
    faultOf (exec .ldOutput base) = some .invalidInstructionUsage := by decide
/-- T-ST-3: the instruction field is untouched. -/
theorem test_stAbs :
    after (fun t => (cellValue 3 t, t.mem.instr 3, t.ac)) (exec (.stAbs 3) ((base.setMem (base.mem.setInstr 3 (some .inv))).setAc 77)) = some (77, some .inv, 77) := by decide
/-- R52 with the canonical form (log 1): storing CELL_DEFAULT removes the entry. -/
theorem test_stAbs_default_unlisted :
    after (fun t => (t.mem.vals, t.ar)) (exec (.stAbs 100) (withCell 100 7 base)) = some ([], 100) := by decide
/-- T-ST-9. -/
theorem test_stImm :
    faultOf (exec (.stImm 5) base) = some .invalidInstructionUsage := by decide
/-- T-ST-1 at address 20. -/
theorem test_stVar :
    after (fun t => (cellValue 20 t, t.ar, t.ac)) (exec (.stVar 0) (base.setAc 15)) = some (15, 20, 15) := by decide
/-- T-ST-5. -/
theorem test_stVar_undeclared :
    faultOf (exec (.stVar 4) (base.setAc 1)) = some .undefinedVariable := by decide
/-- T-ST-8. -/
theorem test_stInput :
    faultOf (exec .stInput base) = some .invalidInstructionUsage := by decide
/-- P3 step 9. -/
theorem test_stOutput :
    after (fun t => (t.out, t.outCur)) (exec .stOutput ((base.setOut [72]).setAc 73)) = some ([72, 73], 2) := by decide
/-- T-ST-7. -/
theorem test_stOutput_full :
    faultOf (exec .stOutput (base.setOut [72, 73])) = some .addressOutOfRange := by decide
/-- T-STK-1. -/
theorem test_push :
    after (fun t => (t.sp, stackSlot 1023 t, t.ac)) (exec .push (base.setAc 9)) = some (1023, 9, 9) := by decide
/-- T-STK-6. -/
theorem test_push_at_zero :
    faultOf (exec .push (base.setSp 0)) = some .addressOutOfRange := by decide
/-- T-STK-7, literal mode. -/
theorem test_pop_literal :
    after (fun t => (t.ac, t.sp)) (exec .pop ((base.setStack [(0, 4)]).setSp 0)) = some (4, -1) := by decide
/-- T-STK-7, corrected mode. -/
theorem test_pop_corrected :
    after (fun t => (t.ac, t.sp)) (exec .pop ((corrected.setStack [(0, 4)]).setSp 0)) = some (4, 1) := by decide
/-- T-CTL-1 with the label at 9. -/
theorem test_jmp :
    after State.ip (exec (.jmp 1) base) = some 9 := by decide
/-- T-S8-8: the label is in the other function only. -/
theorem test_jmp_other_function :
    faultOf (exec (.jmp 1) (base.setCtx [1, 0])) = some .undefinedLabel := by decide
/-- T-CTL-6. -/
theorem test_call :
    after (fun t => (t.br, stackSlot 1023 t, t.sp, t.ip, t.ac)) (exec (.call 1) ((base.setAc 21).setIp 2)) = some (21, 2, 1023, 3, 21) ∧
    after State.ctx (exec (.call 1) base) = some [1, 0] := by decide
/-- T-CTL-7; log 19: a full CTX of bounded depth. -/
theorem test_call_faults :
    faultOf (exec (.call 7) base) = some .undefinedFunction ∧
    faultOf (exec (.call 1) (bounded.setCtx [1, 0])) = some .addressOutOfRange := by decide
/-- T-CTL-9, literal mode. -/
theorem test_ret :
    after (fun t => (t.br, t.ip, t.ctx, t.ac, t.sp))
      (exec .ret ((((base.setStack [(1023, 2)]).setSp 1023).setCtx [1, 0]).setAc 42)) = some (42, 2, [0], 42, 1022) := by decide
/-- R213, decision D26. -/
theorem test_ret_empty_context :
    faultOf (exec .ret (base.setCtx [])) = some .contextUnderflow := by decide
/-- T-CTL-4. -/
theorem test_jz_not_taken :
    after State.ip (exec (.jz 5) (base.setIp 4)) = some 4 := by decide
/-- T-CTL-5. -/
theorem test_jz_taken_undefined :
    faultOf (exec (.jz 5) (base.setPs 2)) = some .undefinedLabel := by decide
/-- T-BR-13. -/
theorem test_js_taken :
    after State.ip (exec (.js 1) (base.setPs 13)) = some 9 := by decide
/-- T-BR-14. -/
theorem test_js_not_taken :
    after State.ip (exec (.js 1) (base.setPs 14)) = some 0 := by decide
/-- T-BR-14, the JNZ quirk (R216). -/
theorem test_jnz_at_14 :
    after State.ip (exec (.jnz 1) (base.setPs 14)) = some 9 := by decide
/-- T-BR-2 (D25). -/
theorem test_jnz_at_2 :
    after State.ip (exec (.jnz 5) (base.setPs 2)) = some 0 := by decide

/-! ### The step -/

/-- T-LD-1 fetched at 0 (R141). -/
theorem test_step :
    after (fun t => (t.ac, t.ip, t.ar, t.ir)) (step (base.withFetchWord 40 0x3A00000015)) = some (21, 1, 0, some (.ldImm 21)) := by decide
/-- T-FE-1. -/
theorem test_step_no_instruction :
    faultOf (step (base.setIp 1)) = some .noInstruction := by decide
/-- T-FE-2. -/
theorem test_step_outside :
    faultOf (step (base.setIp 1024)) = some .addressOutOfRange := by decide
/-- R9, R36. -/
theorem test_advance_faulted :
    (advance (base.setIp 1024)).run = .faulted .addressOutOfRange := by decide
/-- R146: the ceiling of one step ends the loop without a result. -/
theorem test_ceiling :
    runLoop 2 (withCode .inv bounded) = .ceiling (advance (withCode .inv bounded)) ∧
    (advance (withCode .inv bounded)).run = .running := ⟨rfl, by decide⟩
/-- T-FE-5, T-S8-5 (R145). -/
theorem test_decimal :
    decimal (-5) = ['-', '5'] ∧ decimal 0 = ['0'] ∧
    decimal 2147483647 = ['2', '1', '4', '7', '4', '8', '3', '6', '4', '7'] := by decide
/-- T-FE-5. -/
theorem test_result :
    result (base.setAc (-5)) = some ['-', '5'] := by decide

/-! ### The load -/

/-- A program with an integer and a text variable. -/
def program : RunInput where
  code := .binary [0x3B00000000, 0x0000000000]
  funcs := [(0, [(0, 0)])]
  vars := [VarDecl.mk ['s'] (.chars ['H', 'I'] 4), VarDecl.mk ['k'] (.int 7)]
  text := some ['A']
  params := base.cfg

/-- T-LO-2: two code cells, a text of declared length 4, an integer. -/
theorem test_layout : layoutVars 2 program.vars = [2, 6] ∧ varCells program.vars = 5 := by decide
/-- T-LO-3, T-S8-9. -/
theorem test_literal_out_of_range :
    (VarDecl.mk ['v'] (.int 2147483648)).outOfRange = true ∧ (VarDecl.mk ['v'] (.int 2147483647)).outOfRange = false ∧
    (VarDecl.mk ['v'] (.int (-2147483649))).outOfRange = true := by decide
/-- T-LO-4, T-LO-5. -/
theorem test_text_length : textTooLong Params.hardware (some (List.replicate 257 'A')) = false ∧
    textTooLong Params.hardware (some (List.replicate 258 'A')) = true := by
  simp only [textTooLong, List.length_replicate]
  decide
/-- T-LO-6, T-LO-7, T-LO-8. -/
theorem test_image_length :
    imageTooLong Params.hardware 800 (some ['A']) = true ∧ imageTooLong Params.hardware 800 none = false ∧
    imageTooLong Params.hardware 1025 none = true := by decide
/-- R273 (d). -/
theorem test_illegal_image : (CodeImage.binary [0x8800000000]).instrs = .error [.fault .illegalEncoding] := by decide
/-- R273 (e). -/
theorem test_ill_formed_declarations :
    (VarDecl.mk ['s'] (.chars ['H', 'I'] 1)).tooLong = true ∧ (VarDecl.mk ['s'] (.chars [] (-1))).negative = true ∧
    duplicateNames [VarDecl.mk ['v'] (.int 0), VarDecl.mk ['v'] (.int 1)] = true ∧
    (CodeImage.decoded [.ldImm 2147483648]).instrs = .error [.illFormed .payloadRange] := by decide

theorem program_code : program.code.instrs = .ok [.ldVar 0, .hlt] := by decide
theorem program_checks : dataErrors program = [] := by decide
theorem program_loads : load program = .ok (loadedState [.ldVar 0, .hlt] program) :=
  load_ok.mpr ⟨_, program_code, program_checks, rfl⟩

/-! ### Witnesses: every statement's hypotheses are met, each clause at the bounds of its range -/

theorem witness_DecodeOfEncodeIsIdentity :
    (Instr.ldImm (-2147483648)).wf = true ∧ (Instr.cmpImm 2147483647).wf = true ∧
    (Instr.stAbs 4294967295).wf = true ∧ (Instr.jnz 0).wf = true ∧ Instr.ret.wf = true := by decide

theorem witness_EncodeOfDecodeIsIdentity :
    decode 0x39FFFFFFFF = .ok (.ldAbs 4294967295) ∧ decode 0x3A80000000 = .ok (.ldImm (-2147483648)) := by decide

/-- The bounds where the three grounds of rejection meet the legal words. -/
theorem witness_RejectedWordsAreTheIllegalOnes :
    (opcodeField 0x8800000000).toNat = 17 ∧ (opcodeField 0x8400000000).toNat = 16 ∧
    mnemonicOf (opcodeField 0x5900000000) = some .jmp ∧ modeOf (modeField 0x5900000000) ∉ legalModes .jmp ∧
    (modeOf (modeField 0x3E00000001)).isBare = true ∧ operandField 0x3E00000001 ≠ 0 := by decide

theorem witness_SerialImageRoundTrip : ∀ i ∈ [Instr.hlt, .ldImm (-1), .jmp 4294967295], i.wf = true := by decide

theorem witness_ArgumentStringsClassify :
    InInt32 (-2147483648) ∧ InInt32 2147483647 ∧ classifyOperand (decimal 2147483647) = .abs 2147483647 ∧
    classifyOperand ('#' :: decimal (-2147483648)) = .imm (-2147483648) ∧
    classifyOperand (decimal (-1)) = .var (decimal (-1)) := by decide

/-- Digits for the first clause, and a string that is of no other form for the fourth. -/
theorem witness_ArgumentStringsClassify_forms :
    ['0', '7'] ≠ [] ∧ ['0', '7'].all Char.isDigit = true ∧ ['x'] ≠ inputWord ∧ ['x'] ≠ outputWord ∧
    (∀ ds : List Char, ds ≠ [] → ds.all Char.isDigit = true →
      ['x'] ≠ ds ∧ ['x'] ≠ '#' :: ds ∧ ['x'] ≠ '#' :: '-' :: ds) ∧
    (∀ c, ['x'] ≠ [quoteChar, c, quoteChar]) ∧ ['x'] ≠ [quoteChar, quoteChar] := by
  refine ⟨by decide, by decide, by decide, by decide, fun ds _ h => ⟨?_, by simp, by simp⟩, by simp, by simp⟩
  rintro rfl
  exact absurd h (by decide)

theorem witness_StepRunsTheFetchedInstruction :
    (∃ s : State, s.run = .running ∧ s.ip.toInt = 0 ∧ s.mem.instr s.ip.toInt.toNat = some .inv) ∧
    ∃ s : State, s.run = .running ∧ s.ip.toInt = 1023 ∧ s.mem.instr s.ip.toInt.toNat = some .inv :=
  ⟨⟨withCode .inv base, by decide⟩, ⟨withCode .inv (base.setIp 1023), by decide⟩⟩

theorem witness_PlacedWordIsExecutedNext :
    decode 0x2800000000 = .ok .inv ∧ (base.setIp 1023).run = .running ∧ (base.setIp 1023).ip.toInt = 1023 ∧
    base.ip.toInt = 0 := by decide

theorem witness_FetchFaults :
    (base.setIp 1024).run = .running ∧ (base.setIp 1024).ip.toInt = 1024 ∧ (base.setIp (-1)).ip.toInt = -1 ∧
    (base.setIp 1023).ip.toInt = 1023 ∧ (base.setIp 1023).mem.instr 1023 = none ∧ base.mem.instr 0 = none := by decide

theorem witness_StepIsTotalFromRunningOnly :
    base.run = .running ∧ (base.setRun .halted).run ≠ .running ∧
    (base.setRun (.faulted .divisionByZero)).run ≠ .running := by decide

theorem witness_InRangeResultsAreExact :
    InInt32 ((0x7FFFFFFF : Word).toInt * (1 : Word).toInt) ∧ InInt32 ((0x80000000 : Word).toInt * (1 : Word).toInt) ∧
    (-1 : Word) ≠ 0 ∧ ¬ ((0x80000001 : Word).toInt = intMin ∧ (-1 : Word).toInt = -1) ∧
    (0x80000001 : Word).toInt ≠ intMin := by decide

theorem witness_WrapInstancesAreTwosComplement : (-1 : Word) ≠ 0 := by decide

/-- For AddEffect, SubEffect, MulEffect, CmpEffect, LdEffect and StEffect: addresses 0 and 1023, variables there, the
bounds of the immediates. -/
theorem witness_operands_resolve :
    (0 < base.cfg.memSize ∧ 1023 < base.cfg.memSize) ∧ InInt32 (-2147483648) ∧ InInt32 2147483647 ∧
    varAddrOf 1 base = some 1023 ∧ varAddrOf 3 base = some 0 := by decide

theorem witness_DivEffect :
    cellValue 1023 (withCell 1023 (-1) base) ≠ 0 ∧ cellValue 0 (withCell 0 1 base) ≠ 0 ∧
    InInt32 (-2147483648) ∧ InInt32 1 ∧ (1 : Int) ≠ 0 ∧ varAddrOf 1 (withCell 1023 (-1) base) = some 1023 := by decide

theorem witness_LdInputEffect :
    base.inCur < base.cfg.memSize ∧ (base.setInCur 1023).inCur = 1023 ∧ base.cfg.memSize = 1024 := by decide

theorem witness_StOutputEffect : (base.setOut [72]).out.length < (base.setOut [72]).cfg.outCapacity := by decide

theorem witness_PushEffect :
    base.sp.toInt = 1024 ∧ base.cfg.stackDepth = 1024 ∧ (base.setSp 1).sp.toInt = 1 ∧
    after State.sp (exec .push (base.setSp 1)) = some 0 := by decide

theorem witness_PopEffect :
    (base.setSp 0).sp.toInt = 0 ∧ (base.setSp 1023).sp.toInt = 1023 ∧ base.cfg.popPolicy = .literal ∧
    (corrected.setSp 1023).sp.toInt = 1023 ∧ corrected.cfg.popPolicy = .corrected := by decide

/-- Neither the functions nor the labels of one function of `base` have a key twice. -/
theorem witness_TableLookup :
    (base.tables.funcs.map Prod.fst).Nodup ∧ (∀ e ∈ base.tables.funcs, (e.2.map Prod.fst).Nodup) ∧
    base.tables.funcs ≠ [] := by decide

theorem witness_JmpEffect : base.ctx = 0 :: [] ∧ labelAddrOf 0 1 base = some 9 := by decide

/-- Each test of the jumps on both sides, with a label that is there. -/
theorem witness_ConditionalJumpEffect :
    (base.setPs 12).ps.getLsbD 1 = false ∧ (base.setPs 14).ps.getLsbD 1 = true ∧
    (base.setPs 14).ps.getLsbD 0 = false ∧ (base.setPs 13).ps.getLsbD 0 = true ∧
    (base.setPs 2).ps = 2 ∧ (base.setPs 14).ps ≠ 2 ∧
    (base.setPs 14).ctx = 0 :: [] ∧ labelAddrOf 0 1 (base.setPs 14) = some 9 := by decide

theorem witness_CallEffect :
    entryOf 1 base = some 3 ∧ base.sp.toInt = 1024 ∧ entryOf 1 (base.setSp 1) = some 3 ∧
    (base.setSp 1).sp.toInt = 1 ∧ base.cfg.ctxDepth = none ∧ entryOf 1 bounded = some 3 ∧
    bounded.cfg.ctxDepth = some 2 ∧ bounded.ctx.length = 1 := by decide

theorem witness_RetEffect :
    (base.setSp 0).ctx = 0 :: [] ∧ (base.setSp 0).sp.toInt = 0 ∧ (base.setSp 1023).sp.toInt = 1023 ∧
    base.cfg.popPolicy = .literal ∧ (corrected.setSp 1023).ctx = 0 :: [] ∧
    corrected.cfg.popPolicy = .corrected := by decide

theorem witness_OperandStoreAndBufferFaults :
    base.cfg.memSize = 1024 ∧ varAddrOf 4 base = none ∧ varAddrOf 2 base = some 1024 ∧ cellValue 1023 base = 0 ∧
    cellValue 0 base = 0 ∧ varAddrOf 1 base = some 1023 ∧ (base.setInCur 1024).inCur = 1024 ∧
    (base.setOut [1, 2]).cfg.outCapacity ≤ (base.setOut [1, 2]).out.length := by decide

/-- The stack index just outside on either side, a full CTX, an empty one, a label and a function that are not there. -/
theorem witness_StackAndControlFaults :
    base.cfg.wf = true ∧ bounded.cfg.wf = true ∧ base.cfg.stackDepth = 1024 ∧
    (base.setSp 0).sp.toInt = 0 ∧ (base.setSp 1025).sp.toInt = 1025 ∧ (base.setSp (-1)).sp.toInt = -1 ∧
    base.sp.toInt = 1024 ∧ bounded.cfg.ctxDepth = some 2 ∧ (bounded.setCtx [1, 0]).ctx.length = 2 ∧
    entryOf 1 (bounded.setCtx [1, 0]) ≠ none ∧ (base.setCtx []).ctx = [] ∧ base.ctx = 0 :: [] ∧
    labelAddrOf 0 5 base = none ∧ entryOf 7 base = none ∧ entryOf 1 (base.setSp 0) = some 3 ∧
    (base.setSp (-1)).ctx = 0 :: [] ∧ (base.setPs 14).ps.getLsbD 1 = true ∧
    (base.setPs 13).ps.getLsbD 0 = true ∧ (base.setPs 13).ps ≠ 2 := by decide

/-- For LoadMeetsInv, LoadedProgramLayout and InstructionFieldsChangeOnlyAtLoad. -/
theorem witness_load :
    program.params.wf = true ∧ (∃ s, load program = .ok s) ∧
    program.vars[0]? = some (VarDecl.mk ['s'] (.chars ['H', 'I'] 4)) ∧
    program.vars[1]? = some (VarDecl.mk ['k'] (.int 7)) ∧ program.text = some ['A'] ∧
    3 < (4 : Int).toNat ∧ program.code.length ≤ 2 ∧ program.vars.length = 2 ∧ varCells program.vars = 5 ∧
    program.params.inputBase = 767 :=
  ⟨by decide, ⟨_, program_loads⟩, by decide⟩

/-- A state of the invariant with every field off its reset value where it may be. -/
def busy : State :=
  withCode .push { withCell 1023 5 base with
    sp := 1, ps := 14, ar := 1023, ir := some .inv, stack := [(1, 4)], out := [7], inCur := 1024, ctx := [1, 0] }

theorem witness_StepKeepsInv : Inv busy ∧ ∃ t, step busy = .next t :=
  ⟨{ parameters := by decide, memory := by decide, stack := by decide, output := by decide, input := by decide,
     status := by decide,
     stackPointer := by decide, context := by
       rintro d ⟨⟩
     address := by decide,
     instruction := by
       rintro i ⟨⟩
       decide
     slots := by decide }, next_of_isNext (by decide)⟩

/-- For InstructionFieldsChangeOnlyAtLoad, TablesAndParametersAreConstant and BuffersOnlyAdvance. -/
theorem witness_step_answers :
    (∃ t, step (withCode (.stAbs 0) base) = .next t) ∧ (∃ t, step (withCode .stOutput base) = .next t) ∧
    ∃ t, step (withCode .ldInput base) = .next t := ⟨next_of_isNext (by decide), next_of_isNext (by decide), next_of_isNext (by decide)⟩

theorem witness_RegisterAccessTable :
    (∃ t, exec (.mulImm 3) base = .next t) ∧ (∃ t, exec (.call 1) base = .next t) ∧
    ∃ t, exec .stOutput base = .next t := ⟨next_of_isNext (by decide), next_of_isNext (by decide), next_of_isNext (by decide)⟩

theorem witness_FlagByteIsAddAndSubtractOnly :
    (∃ t, exec (.cmpImm 1) base = .next t) ∧ (Instr.cmpImm 1).mayWritePs = true ∧
    (∃ t, exec .inv base = .next t) ∧ Instr.inv.mayWriteSp = false ∧
    (∃ t, exec (.divImm (-1)) base = .next t) ∧ (Instr.divImm (-1)).mayWritePs = false ∧
    (Instr.divImm (-1)).mayWriteSp = false :=
  ⟨next_of_isNext (by decide), rfl, next_of_isNext (by decide), rfl, next_of_isNext (by decide), rfl, rfl⟩

theorem witness_OnlyHltEndsTheRun :
    base.run = .running ∧ (∃ t, step (withCode .hlt base) = .next t) ∧
    ∃ t, step (withCode .inv base) = .next t := ⟨rfl, next_of_isNext (by decide), next_of_isNext (by decide)⟩

theorem witness_LiteralModeSpNeverRises :
    base.cfg.wf = true ∧ base.cfg.popPolicy = .literal ∧ (∃ t, exec .push (base.setSp 1) = .next t) ∧
    (∃ t, exec .pop (base.setSp 0) = .next t) ∧ ∃ t, exec .inv base = .next t :=
  ⟨by decide, rfl, next_of_isNext (by decide), next_of_isNext (by decide), next_of_isNext (by decide)⟩

theorem witness_HiddenAndDiagnosticStateIsInvisible :
    base.undiagnosed = ((base.setAr 5).setTick 9).undiagnosed ∧ base.ar ≠ ((base.setAr 5).setTick 9).ar :=
  ⟨rfl, by decide⟩

theorem witness_PushThenPopRestoresAc :
    base.sp.toInt = 1024 ∧ (corrected.setSp 1).sp.toInt = 1 ∧ base.cfg.popPolicy = .literal ∧
    corrected.cfg.popPolicy = .corrected := by decide

theorem witness_CallThenRetReturns :
    bounded.cfg.ctxDepth = some 2 ∧ bounded.ctx.length < 2 ∧ entryOf 1 bounded = some 3 ∧
    entryOf 1 (base.setSp 1) = some 3 ∧ (base.setSp 1).sp.toInt = 1 ∧ entryOf 1 corrected = some 3 ∧
    corrected.sp.toInt = 1024 ∧ base.cfg.popPolicy = .literal ∧ corrected.cfg.popPolicy = .corrected := by decide

theorem witness_NestedCallsByPopPolicy :
    base.cfg.ctxDepth = none ∧ corrected.cfg.ctxDepth = none ∧
    entryOf 1 (base.setSp 3) = some 3 ∧ entryOf 0 (base.setSp 3) = some 0 ∧ (base.setSp 3).sp.toInt = 3 ∧
    corrected.sp.toInt = 1024 ∧ entryOf 1 corrected = some 3 ∧ entryOf 0 corrected = some 0 ∧
    base.cfg.popPolicy = .literal ∧ corrected.cfg.popPolicy = .corrected := by decide

/-- A step that faults, below the ceiling of one step and without a ceiling, and a run that ends Faulted. -/
theorem witness_FaultedStepEndsTheRun :
    base.run = .running ∧ faultOf (step base) = some .noInstruction ∧ base.cfg.maxSteps = none ∧
    bounded.run = .running ∧ bounded.cfg.maxSteps = some 1 ∧ runLoop 1 base = .faulted .noInstruction := by decide

theorem witness_HaltedRunGivesItsResult :
    (base.setRun .halted).run = .halted ∧ (base.setOut [72]).out ≠ [] ∧ base.out = [] := by decide

theorem witness_HltProgramReturnsZero :
    base.cfg.entryIp = 0 ∧ 0 < base.cfg.memSize ∧ base.cfg.maxSteps ≠ some 0 ∧ bounded.cfg.entryIp = 0 ∧
    bounded.cfg.maxSteps = some 1 := by decide

end Sys2Proof.Tests
end

/-!
The instruction fields of main memory (10_state.md R31). A step writes memory in a store only, and there one value
field; a load writes instruction fields in its code part only. The frame `t.mem = s.mem` is shown once for each
operation that instructions share, and `exec` is then split along its instructions.
-/
section
namespace Sys2Proof.Machine

/-! ### Operations that leave memory alone -/

theorem resolve_mem {o : Operand} {s t : State} {v : Word} (h : resolve o s = .ok (v, t)) : t.mem = s.mem := by
  obtain rfl | ⟨a, -, -, rfl⟩ := resolve_ok h
  · rfl
  · rfl

theorem addWith_mem {o : Operand} {s t : State} (h : addWith o s = .ok t) : t.mem = s.mem := by
  obtain ⟨v, u, hu, rfl⟩ := addWith_ok.mp h
  exact (resolve_mem hu : u.mem = s.mem)

theorem subWith_mem {o : Operand} {s t : State} (h : subWith o s = .ok t) : t.mem = s.mem := by
  obtain ⟨v, u, hu, rfl⟩ := subWith_ok.mp h
  exact (resolve_mem hu : u.mem = s.mem)

theorem cmpWith_mem {o : Operand} {s t : State} (h : cmpWith o s = .ok t) : t.mem = s.mem := by
  obtain ⟨v, u, hu, rfl⟩ := cmpWith_ok.mp h
  exact (resolve_mem hu : u.mem = s.mem)

theorem mulWith_mem {o : Operand} {s t : State} (h : mulWith o s = .ok t) : t.mem = s.mem := by
  obtain ⟨v, u, hu, rfl⟩ := mulWith_ok.mp h
  exact (resolve_mem hu : u.mem = s.mem)

theorem divWith_mem {o : Operand} {s t : State} (h : divWith o s = .ok t) : t.mem = s.mem := by
  obtain ⟨v, u, hu, -, rfl⟩ := divWith_ok.mp h
  exact (resolve_mem hu : u.mem = s.mem)

theorem loadWith_mem {o : Operand} {s t : State} (h : loadWith o s = .ok t) : t.mem = s.mem := by
  obtain ⟨v, u, hu, rfl⟩ := loadWith_ok.mp h
  exact (resolve_mem hu : u.mem = s.mem)

theorem outAppend_mem {v : Word} {s t : State} (h : outAppend v s = .ok t) : t.mem = s.mem := by
  obtain ⟨-, rfl⟩ := outAppend_ok.mp h
  rfl

theorem doPush_mem {s t : State} (h : doPush s = .ok t) : t.mem = s.mem := by
  obtain ⟨-, rfl⟩ := doPush_ok.mp h
  rfl

theorem doPop_mem {s t : State} (h : doPop s = .ok t) : t.mem = s.mem := by
  obtain ⟨-, rfl⟩ := doPop_ok.mp h
  rfl

theorem jumpTo_mem {l : Nat} {s t : State} (h : jumpTo l s = .ok t) : t.mem = s.mem := by
  obtain ⟨f, rest, a, -, -, rfl⟩ := jumpTo_ok.mp h
  rfl

theorem jumpIf_mem {b : Bool} {l : Nat} {s t : State} (h : jumpIf b l s = .ok t) : t.mem = s.mem := by
  obtain ⟨-, rfl⟩ | ⟨-, hj⟩ := jumpIf_ok.mp h
  · rfl
  · exact jumpTo_mem hj

theorem callFunc_mem {f : Nat} {s t : State} (h : callFunc f s = .ok t) : t.mem = s.mem := by
  obtain ⟨e, -, -, -, rfl⟩ := callFunc_next.mp h
  rfl

theorem returnFunc_mem {s t : State} (h : returnFunc s = .ok t) : t.mem = s.mem := by
  obtain ⟨f, rest, -, -, rfl⟩ := returnFunc_next.mp h
  rfl

theorem exec_ldInput_mem {s t : State} (h : exec .ldInput s = .next t) : t.mem = s.mem := by
  obtain ⟨-, rfl⟩ := exec_ldInput_next.mp h
  rfl

theorem exec_inv_mem {s t : State} (h : exec .inv s = .next t) : t.mem = s.mem := by
  rw [exec_inv] at h
  cases h
  rfl

theorem exec_hlt_mem {s t : State} (h : exec .hlt s = .next t) : t.mem = s.mem := by
  rw [exec_hlt] at h
  cases h
  rfl

/-! ### What an instruction and a step do to memory -/

/-- Every instruction but the two stores leaves main memory alone (R42, R58). -/
theorem exec_mem_of_not_store {i : Instr} {s t : State} (hi : i.mayWriteMem = false) (h : exec i s = .next t) :
    t.mem = s.mem := by
  cases i with
  | hlt => exact exec_hlt_mem h
  | addAbs | addImm | addVar =>
    simp only [exec_addAbs, exec_addImm, exec_addVar, finish_next] at h
    exact addWith_mem h
  | subAbs | subImm | subVar =>
    simp only [exec_subAbs, exec_subImm, exec_subVar, finish_next] at h
    exact subWith_mem h
  | mulAbs | mulImm | mulVar =>
    simp only [exec_mulAbs, exec_mulImm, exec_mulVar, finish_next] at h
    exact mulWith_mem h
  | divAbs | divImm | divVar =>
    simp only [exec_divAbs, exec_divImm, exec_divVar, finish_next] at h
    exact divWith_mem h
  | cmpAbs | cmpImm | cmpVar =>
    simp only [exec_cmpAbs, exec_cmpImm, exec_cmpVar, finish_next] at h
    exact cmpWith_mem h
  | inv => exact exec_inv_mem h
  | ldAbs | ldImm | ldVar =>
    simp only [exec_ldAbs, exec_ldImm, exec_ldVar, finish_next] at h
    exact loadWith_mem h
  | ldInput => exact exec_ldInput_mem h
  | ldOutput | stImm | stInput => cases h
  | stAbs | stVar => cases hi
  | stOutput => exact outAppend_mem (finish_next.mp h)
  | push => exact doPush_mem (finish_next.mp h)
  | pop => exact doPop_mem (finish_next.mp h)
  | jmp => exact jumpTo_mem (finish_next.mp h)
  | jz | js | jnz => exact jumpIf_mem (finish_next.mp h)
  | call => exact callFunc_mem (finish_next.mp h)
  | ret => exact returnFunc_mem (finish_next.mp h)

/-- A store writes AC to the value field of one cell, and nothing else of memory (R183, R52). -/
theorem storeTo_mem {g : StoreTarget} {s t : State} (h : storeTo g s = .ok t) :
    ∃ a < s.cfg.memSize, t.mem = s.mem.setValue s.cfg.cellDefault a s.ac := by
  obtain ⟨a, -, ha, rfl⟩ := storeTo_ok.mp h
  exact ⟨a, ha, rfl⟩

/-- The two stores are the only instructions that may write memory, and each writes one value field (R42, R183). -/
theorem exec_mem_of_store {i : Instr} {s t : State} (hi : i.mayWriteMem = true) (h : exec i s = .next t) :
    ∃ a < s.cfg.memSize, t.mem = s.mem.setValue s.cfg.cellDefault a s.ac := by
  cases i with
  | stAbs | stVar => exact storeTo_mem (finish_next.mp h)
  | _ => cases hi

/-- No instruction changes an instruction field (R31). -/
theorem exec_instr {i : Instr} {s t : State} (h : exec i s = .next t) (a : Nat) :
    t.mem.instr a = s.mem.instr a := by
  cases hi : i.mayWriteMem with
  | false => rw [exec_mem_of_not_store hi h]
  | true =>
    obtain ⟨b, -, hb⟩ := exec_mem_of_store hi h
    rw [hb, Memory.instr_setValue]

/-- No step changes an instruction field (R31): the fetch leaves memory alone. -/
theorem step_instr {s t : State} (h : step s = .next t) (a : Nat) : t.mem.instr a = s.mem.instr a := by
  obtain ⟨-, i, -, -, hexec⟩ := step_next.mp h
  exact exec_instr (s := fetched i s) hexec a

/-! ### The instruction fields after a load -/

theorem stageText_instr (p : Params) (text : Option (List Char)) (a : Nat) (m : Memory) :
    (stageText p text m).instr a = m.instr a := by
  cases text with
  | none => rfl
  | some cs => exact placeText_instr _ _ _ _ _

/-- After the load, the instruction field of cell `a` is `Code[a]`, and empty beyond the code (R271, R272). -/
theorem loadedMemory_instr (is : List Instr) (r : RunInput) (a : Nat) : (loadedMemory is r).instr a = is[a]? := by
  have hreset : (State.resetWith r.params).mem.instr a = none := rfl
  have hcode := placeCode_instr is 0 a (stageText r.params r.text (State.resetWith r.params).mem)
  rw [Nat.zero_add, stageText_instr, hreset, Option.or_none] at hcode
  rw [loadedMemory, placeVars_instr, hcode]

/-- A load populates no instruction field beyond the code (R31). -/
theorem load_instr_beyond_code {r : RunInput} {s : State} (h : load r = .ok s) {a : Nat} (ha : r.code.length ≤ a) :
    s.mem.instr a = none := by
  obtain ⟨is, his, -, rfl⟩ := load_ok.mp h
  have hlen : is.length ≤ a := by rw [CodeImage.instrs_length his]; exact ha
  calc (loadedState is r).mem.instr a
      _ = is[a]? := loadedMemory_instr is r a
      _ = none := List.getElem?_eq_none hlen

/-- Settles O45: the frame of every step, the instruction fields of the loaded memory, and the independence of the two
fields of a cell. -/
theorem instructionFieldsChangeOnlyAtLoad : Obligations.InstructionFieldsChangeOnlyAtLoad := by
  unfold Obligations.InstructionFieldsChangeOnlyAtLoad
  refine ⟨?step, ?load, ?fields⟩
  case step => exact fun s t h a => step_instr h a
  case load => exact fun r s h a ha => load_instr_beyond_code h ha
  case fields =>
    exact fun m a b d v i => ⟨Memory.instr_setValue m d a b v, Memory.value_setInstr m d a b i⟩

end Sys2Proof.Machine
end

/-!
The flags of add and subtract as PS holds them (40_alu.md R113, R115). R115 gives subtract the structure of R113 with
other overflow triggers, so the structure is stated once, over its two triggers, and its value in PS is found there.
-/
section
namespace Sys2Proof.Machine

/-! ### The flag bytes as numbers -/

@[simp] theorem psOf_noFlags : psOf 0 = 0 := by decide

@[simp] theorem psOf_flagN : psOf flagN = 1 := by decide

@[simp] theorem psOf_flagZ : psOf flagZ = 2 := by decide

/-- PS after a detected positive overflow. -/
@[simp] theorem psOf_flagsNVC : psOf (flagN ||| flagV ||| flagC) = 13 := by decide

/-- PS after a detected negative overflow: Z is added for a zero result. -/
theorem psOf_flagsVC (z : Prop) [Decidable z] :
    psOf (flagV ||| flagC ||| (if z then flagZ else 0)) = if z then 14 else 12 := by
  by_cases hz : z
  · rw [if_pos hz, if_pos hz]; decide
  · rw [if_neg hz, if_neg hz]; decide

theorem psOf_signFlags (res : Word) :
    psOf (signFlags res) = if res.toInt = 0 then 2 else if res.toInt < 0 then 1 else 0 := by
  simp only [signFlags, apply_ite psOf, psOf_flagZ, psOf_flagN, psOf_noFlags]

/-! ### The structure that add and subtract share -/

/-- The structure of R113 and R115: `pos` and `neg` are the triggers of a positive and of a negative overflow. -/
def flagsByTriggers (pos neg : Prop) [Decidable pos] [Decidable neg] (res : Word) : BitVec 4 :=
  if pos then flagN ||| flagV ||| flagC
  else if neg then flagV ||| flagC ||| (if res.toInt = 0 then flagZ else 0)
  else signFlags res

theorem addFlags_eq_flagsByTriggers (l r res : Word) :
    addFlags l r res = flagsByTriggers (l.toInt > 0 ∧ r.toInt > 0 ∧ res.toInt < 0)
      (l.toInt < 0 ∧ r.toInt < 0 ∧ res.toInt ≥ 0) res := rfl

theorem subFlags_eq_flagsByTriggers (l r res : Word) :
    subFlags l r res = flagsByTriggers (l.toInt > 0 ∧ r.toInt < 0 ∧ res.toInt < 0)
      (l.toInt < 0 ∧ r.toInt > 0 ∧ res.toInt ≥ 0) res := rfl

theorem psOf_flagsByTriggers (pos neg : Prop) [Decidable pos] [Decidable neg] (res : Word) :
    psOf (flagsByTriggers pos neg res) =
      if pos then 13
      else if neg then (if res.toInt = 0 then 14 else 12)
      else if res.toInt = 0 then 2
      else if res.toInt < 0 then 1
      else 0 := by
  unfold flagsByTriggers
  by_cases hpos : pos
  · rw [if_pos hpos, if_pos hpos, psOf_flagsNVC]
  · rw [if_neg hpos, if_neg hpos]
    by_cases hneg : neg
    · rw [if_pos hneg, if_pos hneg, psOf_flagsVC]
    · rw [if_neg hneg, if_neg hneg, psOf_signFlags]

/-- Settles O13: R113's triggers in the shared structure. -/
theorem addFlagsBySigns : Obligations.AddFlagsBySigns := by
  unfold Obligations.AddFlagsBySigns
  intro l r res
  rw [addFlags_eq_flagsByTriggers, psOf_flagsByTriggers]

/-- Settles O16: R115's triggers in the shared structure. -/
theorem subFlagsBySigns : Obligations.SubFlagsBySigns := by
  unfold Obligations.SubFlagsBySigns
  intro l r res
  rw [subFlags_eq_flagsByTriggers, psOf_flagsByTriggers]

end Sys2Proof.Machine
end

/-!
The binary instruction word (30_encoding.md R82 to R89, R95). `pack` and the three fields of a word undo each other, so
decoder and encoder are compared on what they do with a mnemonic, a mode and an operand field: `assemble` there.
-/
section
namespace Sys2Proof

/-! ### Words and their fields -/

/-- The number that has a mnemonic is the mnemonic's opcode (R83). -/
theorem opcodeOf_of_mnemonicOf : ∀ {b : BitVec 5} {m : Mnemonic}, mnemonicOf b = some m → opcodeOf m = b := by
  decide

/-- All eight mode numbers are modes (R84). -/
@[simp] theorem modeNumber_modeOf : ∀ b : BitVec 3, modeNumber (modeOf b) = b := by
  decide

/-- Exactly the opcodes 17 to 31 are reserved (R83, R87). -/
theorem mnemonicOf_eq_none_iff : ∀ b : BitVec 5, mnemonicOf b = none ↔ 17 ≤ b.toNat := by
  decide

/-- A word is its three fields (R82). -/
theorem fields_append (w : Word40) : opcodeField w ++ modeField w ++ operandField w = w :=
  calc opcodeField w ++ modeField w ++ operandField w
    _ = w.extractLsb' 32 8 ++ w.extractLsb' 0 32 :=
      congrArg (· ++ w.extractLsb' 0 32) (BitVec.extractLsb'_append_extractLsb'_eq_extractLsb' rfl)
    _ = w.extractLsb' 0 40 := BitVec.extractLsb'_append_extractLsb'_eq_extractLsb' rfl
    _ = w := BitVec.extractLsb'_eq_self

/-- Packing the mnemonic, the mode and the operand field of a word gives the word back. -/
theorem pack_of_fields {w : Word40} {m : Mnemonic} (h : mnemonicOf (opcodeField w) = some m) :
    pack m (modeOf (modeField w)) (operandField w) = w := by
  rw [pack, opcodeOf_of_mnemonicOf h, modeNumber_modeOf, fields_append]

/-! ### What assembles, and to what -/

theorem bare_ok {i j : Instr} {x : BitVec 32} : bare i x = .ok j ↔ x = 0 ∧ i = j := by
  unfold bare
  by_cases hx : x = 0
  · rw [if_pos hx, Except.ok.injEq, and_iff_right hx]
  · rw [if_neg hx]
    exact iff_of_false (by simp) (fun h => hx h.1)

@[simp] theorem bare_zero (i : Instr) : bare i 0 = .ok i := rfl

@[simp] theorem fits32_toNat (x : BitVec 32) : fits32 x.toNat = true := by
  simp only [fits32, decide_eq_true_eq]
  exact x.isLt

/-- A word holds an int32 (R6). -/
theorem inInt32_toInt (x : Word) : InInt32 x.toInt :=
  ⟨x.le_toInt, Int.le_of_lt_add_one x.toInt_lt⟩

@[simp] theorem fitsInt32_toInt (x : Word) : fitsInt32 x.toInt = true :=
  decide_eq_true (inInt32_toInt x)

/-- What has no payload is packed with a zero operand field. -/
theorem encode_of_bare {m : Mnemonic} {mode : Mode} {i j : Instr} {x : BitVec 32} (h : bare j x = .ok i)
    (hpack : encode j = pack m mode 0) (hwf : j.wf = true) : encode i = pack m mode x ∧ i.wf = true := by
  obtain ⟨rfl, rfl⟩ := bare_ok.mp h
  exact ⟨hpack, hwf⟩

/-- What assembles is well-formed, and its word is the one that was packed (R85, R86). -/
theorem encode_of_assemble {m : Mnemonic} {mode : Mode} {x : BitVec 32} {i : Instr}
    (h : assemble m mode x = .ok i) : encode i = pack m mode x ∧ i.wf = true := by
  cases m with
  | hlt | inv | push | pop | ret =>
    cases mode with
    | noArg => exact encode_of_bare h rfl rfl
    | _ => cases h
  | add | sub | mul | div | cmp =>
    cases mode with
    | abs | var => cases h; exact ⟨by simp [encode], fits32_toNat x⟩
    | imm => cases h; exact ⟨by simp [encode], fitsInt32_toInt x⟩
    | _ => cases h
  | ld | st =>
    cases mode with
    | abs | var => cases h; exact ⟨by simp [encode], fits32_toNat x⟩
    | imm => cases h; exact ⟨by simp [encode], fitsInt32_toInt x⟩
    | input | output => exact encode_of_bare h rfl rfl
    | _ => cases h
  | jmp | jz | js | jnz =>
    cases mode with
    | label => cases h; exact ⟨by simp [encode], fits32_toNat x⟩
    | _ => cases h
  | call =>
    cases mode with
    | func => cases h; exact ⟨by simp [encode], fits32_toNat x⟩
    | _ => cases h

/-- The pairs of the table assemble, those without payload on a zero operand field only (R85 to R87). -/
theorem assemble_ok_iff {m : Mnemonic} {mode : Mode} {x : BitVec 32} :
    (∃ i, assemble m mode x = .ok i) ↔ mode ∈ legalModes m ∧ (mode.isBare = true → x = 0) := by
  cases m with
  | hlt | inv | push | pop | ret =>
    cases mode <;> simp [assemble, bare_ok, legalModes, Mode.isBare]
  | add | sub | mul | div | cmp =>
    cases mode <;> simp [assemble, legalModes, Mode.isBare]
  | ld | st =>
    cases mode <;> simp [assemble, bare_ok, legalModes, Mode.isBare]
  | jmp | jz | js | jnz | call =>
    cases mode <;> simp [assemble, legalModes, Mode.isBare]

/-! ### Decoding and encoding -/

/-- A word decodes exactly when its opcode has a mnemonic and its fields assemble (R87, R89). -/
theorem decode_ok_iff {w : Word40} {i : Instr} : decode w = .ok i ↔
    ∃ m, mnemonicOf (opcodeField w) = some m ∧ assemble m (modeOf (modeField w)) (operandField w) = .ok i := by
  unfold decode
  cases mnemonicOf (opcodeField w) with
  | none => simp
  | some m => simp

theorem decode_error_iff {w : Word40} : (∃ e, decode w = .error e) ↔ ¬ ∃ i, decode w = .ok i := by
  cases decode w <;> simp

/-- The decoder undoes the encoder: R85's payload ranges are those that survive the operand field. -/
theorem decode_encode {i : Instr} (h : i.wf = true) : decode (encode i) = .ok i := by
  cases i with
  | hlt | inv | ldInput | ldOutput | stInput | stOutput | push | pop | ret => exact decode_pack _ _ _
  | addImm k | subImm k | mulImm k | divImm k | cmpImm k | ldImm k | stImm k =>
    rw [encode, decode_pack, assemble, toInt_ofInt_fits (of_decide_eq_true h)]
  | _ => rw [encode, decode_pack, assemble, toNat_ofNat_fits h]

/-- Settles O2: each field survives packing. -/
theorem decodeOfEncodeIsIdentity : Obligations.DecodeOfEncodeIsIdentity := by
  unfold Obligations.DecodeOfEncodeIsIdentity
  exact fun i h => decode_encode h

theorem encode_of_decode {w : Word40} {i : Instr} (h : decode w = .ok i) : encode i = w ∧ i.wf = true := by
  obtain ⟨m, hm, ha⟩ := decode_ok_iff.mp h
  obtain ⟨he, hw⟩ := encode_of_assemble ha
  exact ⟨he.trans (pack_of_fields hm), hw⟩

/-- Settles O3: a word that decodes is packed from its fields, and what they assemble to encodes to that pack. -/
theorem encodeOfDecodeIsIdentity : Obligations.EncodeOfDecodeIsIdentity := by
  unfold Obligations.EncodeOfDecodeIsIdentity
  exact fun w i h => encode_of_decode h

/-- Settles O4: a word that has a mnemonic decodes exactly when its fields assemble. -/
theorem rejectedWordsAreTheIllegalOnes : Obligations.RejectedWordsAreTheIllegalOnes := by
  unfold Obligations.RejectedWordsAreTheIllegalOnes
  intro w
  simp only [decode_error_iff, decode_ok_iff, ← mnemonicOf_eq_none_iff]
  cases hm : mnemonicOf (opcodeField w) with
  | none => simp
  | some m =>
    have ha := assemble_ok_iff (m := m) (mode := modeOf (modeField w)) (x := operandField w)
    simp only [Option.some.injEq, exists_eq_left', reduceCtorEq, false_or, ha]
    tauto

/-- Settles O1: the decoder run on the written-out words. -/
theorem writtenWordsDecode : Obligations.WrittenWordsDecode := by
  unfold Obligations.WrittenWordsDecode
  decide

/-! ### The serial form -/

/-- Five bytes, most significant first, are the word they were cut from (R95). -/
theorem wordOfBytes_of_word (w : Word40) :
    wordOfBytes (w.extractLsb' 32 8) (w.extractLsb' 24 8) (w.extractLsb' 16 8) (w.extractLsb' 8 8)
      (w.extractLsb' 0 8) = w := by
  unfold wordOfBytes
  rw [BitVec.extractLsb'_append_extractLsb'_eq_extractLsb', BitVec.extractLsb'_append_extractLsb'_eq_extractLsb',
    BitVec.extractLsb'_append_extractLsb'_eq_extractLsb', BitVec.extractLsb'_append_extractLsb'_eq_extractLsb']
  · exact BitVec.extractLsb'_eq_self
  all_goals rfl

/-- The first word of an image is decoded, then the rest. -/
theorem decodeImage_bytesOfWord_append (w : Word40) (bs : List (BitVec 8)) {i : Instr} {is : List Instr}
    (hi : decode w = .ok i) (his : decodeImage bs = .ok is) : decodeImage (bytesOfWord w ++ bs) = .ok (i :: is) := by
  simp only [bytesOfWord, List.cons_append, List.nil_append, decodeImage, wordOfBytes_of_word, hi, his]

/-- Settles O5, by induction on the list of instructions. -/
theorem serialImageRoundTrip : Obligations.SerialImageRoundTrip := by
  unfold Obligations.SerialImageRoundTrip
  intro is h
  induction is with
  | nil => rfl
  | cons i rest ih =>
    have hi : i.wf = true := h i List.mem_cons_self
    have hrest := ih fun j hj => h j (List.mem_cons_of_mem _ hj)
    exact decodeImage_bytesOfWord_append _ _ (decode_encode hi) hrest

end Sys2Proof
end

/-!
The register access table (10_state.md R42) as a frame. `Frame i s t` says of every component which instructions leave it
alone. Each update of the state keeps a frame that permits it, so the frame of an operation follows the updates it is
made of, and `exec` has the frame of its instruction. The whole-machine rules that only say what does not change are read
off it.
-/
section
namespace Sys2Proof.Machine

/-- From `s` to `t` nothing changes that the table does not let `i` write. Main memory is left to
`exec_mem_of_not_store`. -/
structure Frame (i : Instr) (s t : State) : Prop where
  ac : i.mayWriteAc = false → t.ac = s.ac
  ps : i.mayWritePs = false → t.ps = s.ps
  brCtx : i.isCallOrRet = false → t.br = s.br ∧ t.ctx = s.ctx
  sp : i.mayWriteSp = false → t.sp = s.sp
  stack : i.mayWriteStack = false → t.stack = s.stack
  ip : i.mayWriteIp = false → t.ip = s.ip
  ar : i.mayWriteAr = false → t.ar = s.ar
  inCur : i ≠ .ldInput → t.inCur = s.inCur
  out : i ≠ .stOutput → t.out = s.out
  run : i ≠ .hlt → t.run = s.run
  ir : t.ir = s.ir
  tables : t.tables = s.tables
  cfg : t.cfg = s.cfg
  flags : i.mayWritePs = false ∨ i = .inv → i.mayWriteSp = false → t.aluFlags = s.aluFlags

/-! ### What keeps a frame -/

namespace Frame

variable {i : Instr} {s t : State}

theorem refl (i : Instr) (s : State) : Frame i s s where
  ac _ := rfl
  ps _ := rfl
  brCtx _ := ⟨rfl, rfl⟩
  sp _ := rfl
  stack _ := rfl
  ip _ := rfl
  ar _ := rfl
  inCur _ := rfl
  out _ := rfl
  run _ := rfl
  ir := rfl
  tables := rfl
  cfg := rfl
  flags _ _ := rfl

theorem setAc (h : Frame i s t) (hi : i.mayWriteAc = true) (v : Word) : Frame i s (t.setAc v) :=
  { h with ac := fun hf => by simp [hi] at hf }

theorem setPs (h : Frame i s t) (hi : i.mayWritePs = true) (v : Word) : Frame i s (t.setPs v) :=
  { h with ps := fun hf => by simp [hi] at hf }

theorem setIp (h : Frame i s t) (hi : i.mayWriteIp = true) (v : Word) : Frame i s (t.setIp v) :=
  { h with ip := fun hf => by simp [hi] at hf }

theorem setAr (h : Frame i s t) (hi : i.mayWriteAr = true) (v : Word) : Frame i s (t.setAr v) :=
  { h with ar := fun hf => by simp [hi] at hf }

theorem setSp (h : Frame i s t) (hi : i.mayWriteSp = true) (v : Word) : Frame i s (t.setSp v) :=
  { h with sp := fun hf => by simp [hi] at hf }

theorem setStack (h : Frame i s t) (hi : i.mayWriteStack = true) (v : List (Nat × Word)) :
    Frame i s (t.setStack v) :=
  { h with stack := fun hf => by simp [hi] at hf }

theorem setMem (h : Frame i s t) (v : Memory) : Frame i s (t.setMem v) := { h with }

theorem setAluSlots (h : Frame i s t) (l r : Word) : Frame i s (t.setAluSlots l r) := { h with }

/-- The flag byte is free where add or subtract ran, and where SP moved. -/
theorem setAluFlags (h : Frame i s t) (hi : i.mayWritePs = true ∧ i ≠ .inv ∨ i.mayWriteSp = true) (v : BitVec 4) :
    Frame i s (t.setAluFlags v) :=
  { h with flags := fun hf hs => by simp [hs] at hi; simp [hi] at hf }

end Frame

/-! ### The frame of the operations -/

/-- The operand forms that put an address in AR (R61, R64). -/
def Operand.routes : Operand → Bool
  | .abs _ | .var _ => true
  | .imm _ | .char _ => false

section
variable {i : Instr} {o : Operand} {s t u : State} {v : Word}

theorem resolve_frame (har : o.routes = i.mayWriteAr) (h : resolve o s = .ok (v, u)) : Frame i s u := by
  cases o with
  | imm | char =>
    cases h
    exact .refl i s
  | abs | var =>
    obtain rfl | ⟨a, -, -, rfl⟩ := resolve_ok h
    · exact .refl i _
    · exact (Frame.refl i s).setAr har.symm _

theorem addWith_frame (har : o.routes = i.mayWriteAr) (hac : i.mayWriteAc = true) (hps : i.mayWritePs = true)
    (hi : i ≠ .inv) (h : addWith o s = .ok t) : Frame i s t := by
  obtain ⟨v, u, hu, rfl⟩ := addWith_ok.mp h
  exact ((((resolve_frame har hu).setAluSlots 0 0).setAluFlags (.inl ⟨hps, hi⟩) _).setAc hac _).setPs hps _

theorem subWith_frame (har : o.routes = i.mayWriteAr) (hac : i.mayWriteAc = true) (hps : i.mayWritePs = true)
    (hi : i ≠ .inv) (h : subWith o s = .ok t) : Frame i s t := by
  obtain ⟨v, u, hu, rfl⟩ := subWith_ok.mp h
  exact ((((resolve_frame har hu).setAluSlots 0 0).setAluFlags (.inl ⟨hps, hi⟩) _).setAc hac _).setPs hps _

theorem cmpWith_frame (har : o.routes = i.mayWriteAr) (hps : i.mayWritePs = true) (hi : i ≠ .inv)
    (h : cmpWith o s = .ok t) : Frame i s t := by
  obtain ⟨v, u, hu, rfl⟩ := cmpWith_ok.mp h
  exact (((resolve_frame har hu).setAluSlots 0 0).setAluFlags (.inl ⟨hps, hi⟩) _).setPs hps _

theorem mulWith_frame (har : o.routes = i.mayWriteAr) (hac : i.mayWriteAc = true) (h : mulWith o s = .ok t) :
    Frame i s t := by
  obtain ⟨v, u, hu, rfl⟩ := mulWith_ok.mp h
  exact ((resolve_frame har hu).setAluSlots 0 0).setAc hac _

theorem divWith_frame (har : o.routes = i.mayWriteAr) (hac : i.mayWriteAc = true) (h : divWith o s = .ok t) :
    Frame i s t := by
  obtain ⟨v, u, hu, -, rfl⟩ := divWith_ok.mp h
  exact ((resolve_frame har hu).setAluSlots 0 0).setAc hac _

theorem loadWith_frame (har : o.routes = i.mayWriteAr) (hac : i.mayWriteAc = true) (h : loadWith o s = .ok t) :
    Frame i s t := by
  obtain ⟨v, u, hu, rfl⟩ := loadWith_ok.mp h
  exact (resolve_frame har hu).setAc hac _

theorem storeTo_frame {g : StoreTarget} (har : i.mayWriteAr = true) (h : storeTo g s = .ok t) : Frame i s t := by
  obtain ⟨a, -, -, rfl⟩ := storeTo_ok.mp h
  exact ((Frame.refl i s).setAr har _).setMem _

theorem jumpTo_frame {l : Nat} (hip : i.mayWriteIp = true) (h : jumpTo l s = .ok t) : Frame i s t := by
  obtain ⟨f, rest, a, -, -, rfl⟩ := jumpTo_ok.mp h
  exact (Frame.refl i s).setIp hip a

theorem jumpIf_frame {b : Bool} {l : Nat} (hip : i.mayWriteIp = true) (h : jumpIf b l s = .ok t) : Frame i s t := by
  obtain ⟨-, rfl⟩ | ⟨-, hj⟩ := jumpIf_ok.mp h
  · exact .refl i _
  · exact jumpTo_frame hip hj

end

/-- Every instruction keeps to its row of the table (R42). -/
theorem exec_frame {i : Instr} {s t : State} (h : exec i s = .next t) : Frame i s t := by
  cases i with
  | hlt =>
    cases h
    exact { Frame.refl .hlt s with run := fun hi => absurd rfl hi }
  | addAbs | addImm | addVar =>
    simp only [exec_addAbs, exec_addImm, exec_addVar, finish_next] at h
    exact addWith_frame rfl rfl rfl nofun h
  | subAbs | subImm | subVar =>
    simp only [exec_subAbs, exec_subImm, exec_subVar, finish_next] at h
    exact subWith_frame rfl rfl rfl nofun h
  | mulAbs | mulImm | mulVar =>
    simp only [exec_mulAbs, exec_mulImm, exec_mulVar, finish_next] at h
    exact mulWith_frame rfl rfl h
  | divAbs | divImm | divVar =>
    simp only [exec_divAbs, exec_divImm, exec_divVar, finish_next] at h
    exact divWith_frame rfl rfl h
  | cmpAbs | cmpImm | cmpVar =>
    simp only [exec_cmpAbs, exec_cmpImm, exec_cmpVar, finish_next] at h
    exact cmpWith_frame rfl rfl nofun h
  | inv =>
    rw [exec_inv] at h
    cases h
    exact (((Frame.refl .inv s).setAluSlots 0 0).setAc rfl _).setPs rfl _
  | ldAbs | ldImm | ldVar =>
    simp only [exec_ldAbs, exec_ldImm, exec_ldVar, finish_next] at h
    exact loadWith_frame rfl rfl h
  | ldInput =>
    obtain ⟨-, rfl⟩ := exec_ldInput_next.mp h
    exact { ((Frame.refl .ldInput s).setAr rfl _).setAc rfl _ with inCur := fun hi => absurd rfl hi }
  | ldOutput | stImm | stInput => cases h
  | stAbs | stVar => exact storeTo_frame rfl (finish_next.mp h)
  | stOutput =>
    obtain ⟨-, rfl⟩ := outAppend_ok.mp (finish_next.mp h)
    exact { Frame.refl .stOutput s with out := fun hi => absurd rfl hi }
  | push =>
    obtain ⟨-, rfl⟩ := doPush_ok.mp (finish_next.mp h)
    exact (((Frame.refl .push s).setSp rfl _).setAluFlags (.inr rfl) _).setStack rfl _
  | pop =>
    obtain ⟨-, rfl⟩ := doPop_ok.mp (finish_next.mp h)
    exact (((Frame.refl .pop s).setAc rfl _).setSp rfl _).setAluFlags (.inr rfl) _
  | jmp => exact jumpTo_frame rfl (finish_next.mp h)
  | jz | js | jnz => exact jumpIf_frame rfl (finish_next.mp h)
  | call f =>
    obtain ⟨e, -, -, -, rfl⟩ := callFunc_next.mp (finish_next.mp h)
    exact { Frame.refl (.call f) s with
      brCtx := nofun, sp := nofun, ip := nofun, stack := nofun, flags := fun _ => nofun }
  | ret =>
    obtain ⟨f, rest, -, -, rfl⟩ := returnFunc_next.mp (finish_next.mp h)
    exact { Frame.refl .ret s with
      brCtx := nofun, sp := nofun, ip := nofun, flags := fun _ => nofun }

/-- Settles O47: the frame of each instruction, with the frame of main memory. -/
theorem registerAccessTable : Obligations.RegisterAccessTable := by
  unfold Obligations.RegisterAccessTable
  intro i s t h
  have hf := exec_frame h
  exact ⟨hf.ac, hf.ps, hf.brCtx, hf.sp, hf.stack, hf.ip, hf.ar, fun hi => exec_mem_of_not_store hi h, hf.inCur, hf.out,
    hf.run, hf.ir⟩

/-! ### What a step leaves alone -/

/-- A step that answers runs the fetched instruction, which IR then holds, within its frame. -/
theorem step_frame {s t : State} (h : step s = .next t) :
    ∃ i, exec i (fetched i s) = .next t ∧ Frame i (fetched i s) t ∧ t.ir = some i := by
  obtain ⟨-, i, -, -, hexec⟩ := step_next.mp h
  exact ⟨i, hexec, exec_frame hexec, (exec_frame hexec).ir⟩

/-- Settles O46: the frame of every instruction holds the tables and the parameters. -/
theorem tablesAndParametersAreConstant : Obligations.TablesAndParametersAreConstant := by
  unfold Obligations.TablesAndParametersAreConstant
  intro s t h
  obtain ⟨i, -, hf, -⟩ := step_frame h
  exact ⟨hf.tables, hf.cfg⟩

/-- Settles O49: only HLT may write RUN, and it ends the run. -/
theorem onlyHltEndsTheRun : Obligations.OnlyHltEndsTheRun := by
  unfold Obligations.OnlyHltEndsTheRun
  intro s t hrun h
  obtain ⟨i, hexec, hf, hir⟩ := step_frame h
  rw [hir, Option.some.injEq]
  by_cases hi : i = .hlt
  · subst hi
    cases hexec
    exact iff_of_true (by simp) rfl
  · exact iff_of_false (not_not.mpr ((hf.run hi).trans hrun)) hi

/-- Settles O51: the output is in the frame of every instruction but ST OUTPUT, the cursor of every one but LD INPUT. -/
theorem buffersOnlyAdvance : Obligations.BuffersOnlyAdvance := by
  unfold Obligations.BuffersOnlyAdvance
  intro s t h
  obtain ⟨i, hexec, hf, -⟩ := step_frame h
  constructor
  · by_cases hi : i = .stOutput
    · subst hi
      obtain ⟨-, rfl⟩ := outAppend_ok.mp (finish_next.mp hexec)
      exact .inr rfl
    · exact .inl (hf.out hi)
  · by_cases hi : i = .ldInput
    · subst hi
      obtain ⟨-, rfl⟩ := exec_ldInput_next.mp hexec
      exact .inr rfl
    · exact .inl (hf.inCur hi)

/-! ### What the writers of the flag byte and of SP write -/

/-- ADD, SUB and CMP leave in the hidden byte the flags that they copy to PS (R38, R123). -/
theorem exec_ps_eq_flags {i : Instr} {s t : State} (hi : i.mayWritePs = true) (hinv : i ≠ .inv)
    (h : exec i s = .next t) : t.ps = psOf t.aluFlags := by
  cases i with
  | addAbs | addImm | addVar =>
    simp only [exec_addAbs, exec_addImm, exec_addVar, finish_next] at h
    obtain ⟨v, u, -, rfl⟩ := addWith_ok.mp h
    rfl
  | subAbs | subImm | subVar =>
    simp only [exec_subAbs, exec_subImm, exec_subVar, finish_next] at h
    obtain ⟨v, u, -, rfl⟩ := subWith_ok.mp h
    rfl
  | cmpAbs | cmpImm | cmpVar =>
    simp only [exec_cmpAbs, exec_cmpImm, exec_cmpVar, finish_next] at h
    obtain ⟨v, u, -, rfl⟩ := cmpWith_ok.mp h
    rfl
  | inv => exact absurd rfl hinv
  | _ => cases hi

/-- Settles O48: the writers of PS beside INV copy the byte, and the frame of the others holds it. -/
theorem flagByteIsAddAndSubtractOnly : Obligations.FlagByteIsAddAndSubtractOnly := by
  unfold Obligations.FlagByteIsAddAndSubtractOnly
  exact fun i s t h => ⟨fun hps hi => exec_ps_eq_flags hps hi h, (exec_frame h).flags⟩

/-- The four instructions that move SP: PUSH and CALL to an index one lower, POP and RET from an index by the pop
policy (R200, R202). -/
theorem exec_sp {i : Instr} {s t : State} (hi : i.mayWriteSp = true) (h : exec i s = .next t) :
    (inStack s.cfg (s.sp - 1).toInt = true ∧ t.sp = s.sp - 1) ∨
      (inStack s.cfg s.sp.toInt = true ∧ t.sp = poppedSp s.cfg.popPolicy s.sp) := by
  cases i with
  | push =>
    obtain ⟨hs, rfl⟩ := doPush_ok.mp (finish_next.mp h)
    exact .inl ⟨hs, rfl⟩
  | call =>
    obtain ⟨e, -, hs, -, rfl⟩ := callFunc_next.mp (finish_next.mp h)
    exact .inl ⟨hs, rfl⟩
  | pop =>
    obtain ⟨hs, rfl⟩ := doPop_ok.mp (finish_next.mp h)
    exact .inr ⟨hs, rfl⟩
  | ret =>
    obtain ⟨f, rest, -, hs, rfl⟩ := returnFunc_next.mp (finish_next.mp h)
    exact .inr ⟨hs, rfl⟩
  | _ => cases hi

/-- One below an index, SP does not wrap. -/
theorem toInt_pred_of_inStack {p : Params} {w : Word} (h : inStack p w.toInt = true) : (w - 1).toInt = w.toInt - 1 :=
  toInt_pred (lt_of_lt_of_le (by decide) ((inStack_iff p _).mp h).1)

/-- Settles O50: in literal mode each of the four lowers SP by one, and it is in the frame of the others. -/
theorem literalModeSpNeverRises : Obligations.LiteralModeSpNeverRises := by
  unfold Obligations.LiteralModeSpNeverRises
  intro i s t hwf hlit h
  by_cases hi : i.mayWriteSp = true
  · rw [if_pos hi]
    obtain ⟨hs, ht⟩ | ⟨hs, ht⟩ := exec_sp hi h
    · obtain ⟨h1, -⟩ := (inStack_pred_iff hwf s.sp).mp hs
      rw [ht]
      exact toInt_pred (lt_of_lt_of_le (by decide) h1)
    · rw [ht, hlit]
      exact toInt_pred_of_inStack hs
  · rw [if_neg hi, (exec_frame h).sp (Bool.eq_false_iff.mpr hi)]

end Sys2Proof.Machine
end

/-!
The load (70_reset_and_hazards.md R271 to R274). First the checks, each as the condition it tests; then what a load that
passes them leaves in the cells of the code, of the variables and of the input text, whose ranges the checks keep apart.
-/
section
namespace Sys2Proof.Machine

/-! ### The code -/

theorem decodeWords_cons_ok {w : Word40} {ws : List Word40} {is : List Instr} :
    decodeWords (w :: ws) = .ok is ↔ ∃ i js, decode w = .ok i ∧ decodeWords ws = .ok js ∧ is = i :: js := by
  rw [decodeWords]
  cases decode w with
  | error e => simp
  | ok i =>
    cases decodeWords ws with
    | error e => simp
    | ok js => simp [eq_comm]

/-- A binary image decodes exactly when each of its words does (R272, R273 (d)). -/
theorem decodeWords_ok_iff (ws : List Word40) :
    (∃ is, decodeWords ws = .ok is) ↔ ∀ w ∈ ws, ∃ i, decode w = .ok i := by
  induction ws with
  | nil => exact iff_of_true ⟨[], rfl⟩ nofun
  | cons w rest ih =>
    rw [List.forall_mem_cons, ← ih]
    constructor
    · rintro ⟨is, h⟩
      obtain ⟨i, js, hi, hjs, -⟩ := decodeWords_cons_ok.mp h
      exact ⟨⟨i, hi⟩, ⟨js, hjs⟩⟩
    · rintro ⟨⟨i, hi⟩, ⟨js, hjs⟩⟩
      exact ⟨_, decodeWords_cons_ok.mpr ⟨i, js, hi, hjs, rfl⟩⟩

theorem decodeWords_wf {ws : List Word40} {is : List Instr} (h : decodeWords ws = .ok is) :
    ∀ i ∈ is, i.wf = true := by
  induction ws generalizing is with
  | nil =>
    cases h
    exact nofun
  | cons w rest ih =>
    obtain ⟨i, js, hi, hjs, rfl⟩ := decodeWords_cons_ok.mp h
    exact List.forall_mem_cons.mpr ⟨(encode_of_decode hi).2, ih hjs⟩

theorem CodeImage.instrs_decoded {is js : List Instr} :
    (CodeImage.decoded is).instrs = .ok js ↔ (∀ i ∈ is, i.wf = true) ∧ js = is := by
  rw [CodeImage.instrs, ← List.all_eq_true]
  cases is.all Instr.wf <;> simp [eq_comm]

theorem CodeImage.instrs_binary {ws : List Word40} {is : List Instr} :
    (CodeImage.binary ws).instrs = .ok is ↔ decodeWords ws = .ok is := by
  rw [CodeImage.instrs]
  cases decodeWords ws <;> simp

/-- The code is legal exactly when a decoded program is well-formed and a binary image decodes (R273 (d), (e)). -/
theorem CodeImage.instrs_ok_iff (c : CodeImage) : (∃ is, c.instrs = .ok is) ↔
    (∀ is, c = .decoded is → ∀ i ∈ is, i.wf = true) ∧
    (∀ ws, c = .binary ws → ∀ w ∈ ws, ∃ i, decode w = .ok i) := by
  cases c with
  | decoded is => simp [CodeImage.instrs_decoded]
  | binary ws => simp [CodeImage.instrs_binary, decodeWords_ok_iff]

/-- Legal code is well-formed throughout. -/
theorem CodeImage.instrs_wf {c : CodeImage} {is : List Instr} (h : c.instrs = .ok is) : ∀ i ∈ is, i.wf = true := by
  cases c with
  | decoded js =>
    obtain ⟨hwf, rfl⟩ := CodeImage.instrs_decoded.mp h
    exact hwf
  | binary ws => exact decodeWords_wf (CodeImage.instrs_binary.mp h)

/-! ### The checks on the data -/

theorem VarDecl.outOfRange_eq_false (d : VarDecl) : d.outOfRange = false ↔ ∀ k, d.init = .int k → InInt32 k := by
  unfold VarDecl.outOfRange
  cases d.init <;> simp

/-- A text initializer fits its declared length exactly when it is not too long for it and it is not negative. -/
theorem VarDecl.fits_iff (d : VarDecl) : d.fits ↔ d.tooLong = false ∧ d.negative = false := by
  unfold VarDecl.fits VarDecl.tooLong VarDecl.negative
  cases d.init with
  | int k => simp
  | chars cs len =>
    simp only [decide_eq_false_iff_not]
    omega

theorem VarDecl.fits_iff_chars (d : VarDecl) :
    d.fits ↔ ∀ cs len, d.init = .chars cs len → (cs.length : Int) ≤ len := by
  unfold VarDecl.fits
  cases d.init <;> simp

theorem duplicateNames_eq_false (ds : List VarDecl) :
    duplicateNames ds = false ↔ (ds.map VarDecl.name).Nodup := by
  induction ds with
  | nil => simp [duplicateNames]
  | cons d rest ih => simp [duplicateNames, ih]

theorem textTooLong_eq_false (p : Params) (text : Option (List Char)) :
    textTooLong p text = false ↔ ∀ cs, text = some cs → p.inputBase + cs.length ≤ p.memSize := by
  unfold textTooLong
  cases text <;> simp

theorem imageTooLong_eq_false (p : Params) (n : Nat) (text : Option (List Char)) :
    imageTooLong p n text = false ↔ n ≤ p.memSize ∧ ∀ cs, text = some cs → n ≤ p.inputBase := by
  unfold imageTooLong
  cases text <;> simp

/-- The data of a program pass every check of R273 (a), (b), (c), (e). -/
structure DataChecks (r : RunInput) : Prop where
  literals : ∀ d ∈ r.vars, ∀ k, d.init = .int k → InInt32 k
  fits : ∀ d ∈ r.vars, d.fits
  text : ∀ cs, r.text = some cs → r.params.inputBase + cs.length ≤ r.params.memSize
  image : r.code.length + varCells r.vars ≤ r.params.memSize
  imageBelowText : ∀ cs, r.text = some cs → r.code.length + varCells r.vars ≤ r.params.inputBase
  names : (r.vars.map VarDecl.name).Nodup

theorem dataErrors_eq_nil_iff (r : RunInput) : dataErrors r = [] ↔ DataChecks r := by
  simp only [dataErrors, List.append_eq_nil_iff, errorIf_eq_nil, List.any_eq_false, Bool.not_eq_true,
    VarDecl.outOfRange_eq_false, textTooLong_eq_false, imageTooLong_eq_false, duplicateNames_eq_false]
  constructor
  · rintro ⟨⟨⟨⟨⟨hlit, htext⟩, himage, hbelow⟩, hlong⟩, hneg⟩, hnames⟩
    exact ⟨hlit, fun d hd => (VarDecl.fits_iff d).mpr ⟨hlong d hd, hneg d hd⟩, htext, himage, hbelow, hnames⟩
  · rintro ⟨hlit, hfits, htext, himage, hbelow, hnames⟩
    exact ⟨⟨⟨⟨⟨hlit, htext⟩, himage, hbelow⟩, fun d hd => ((VarDecl.fits_iff d).mp (hfits d hd)).1⟩,
      fun d hd => ((VarDecl.fits_iff d).mp (hfits d hd)).2⟩, hnames⟩

/-- A load that answers: the code is legal, the data pass the checks, and the state is the loaded one. -/
theorem load_ok_iff {r : RunInput} {s : State} :
    load r = .ok s ↔ ∃ is, r.code.instrs = .ok is ∧ DataChecks r ∧ s = loadedState is r := by
  simp only [load_ok, dataErrors_eq_nil_iff]

/-- Settles O56: each check is the condition it tests. -/
theorem loadSucceedsExactlyWhenChecksPass : Obligations.LoadSucceedsExactlyWhenChecksPass := by
  unfold Obligations.LoadSucceedsExactlyWhenChecksPass
  intro r
  have hload : (∃ s, load r = .ok s) ↔ (∃ is, r.code.instrs = .ok is) ∧ DataChecks r := by
    simp only [load_ok_iff]
    exact ⟨fun ⟨s, is, his, hd, _⟩ => ⟨⟨is, his⟩, hd⟩, fun ⟨⟨is, his⟩, hd⟩ => ⟨_, is, his, hd, rfl⟩⟩
  rw [hload, CodeImage.instrs_ok_iff, and_assoc]
  refine and_congr_right' (and_congr_right' ?_)
  constructor
  · rintro ⟨hlit, hfits, htext, himage, hbelow, hnames⟩
    exact ⟨hlit, fun d hd => (VarDecl.fits_iff_chars d).mp (hfits d hd), fun cs hcs => ⟨htext cs hcs, hbelow cs hcs⟩,
      himage, hnames⟩
  · rintro ⟨hlit, hfits, htext, himage, hnames⟩
    exact ⟨hlit, fun d hd => (VarDecl.fits_iff_chars d).mpr (hfits d hd), fun cs hcs => (htext cs hcs).1, himage,
      fun cs hcs => (htext cs hcs).2, hnames⟩

/-! ### The cells after a load -/

/-- Outside the input text every cell keeps `CELL_DEFAULT` until the program is placed. -/
theorem stageText_value_outside {p : Params} {text : Option (List Char)} {b : Nat}
    (h : ∀ cs, text = some cs → b < p.inputBase ∨ p.inputBase + cs.length ≤ b) :
    (stageText p text (State.resetWith p).mem).value p.cellDefault b = p.cellDefault := by
  cases text with
  | none => rfl
  | some cs => exact placeText_outside cs (h cs rfl) p.cellDefault _

/-- Beside the variables, a cell of a loaded memory has the value that staging left. -/
theorem loadedMemory_value_outside {is : List Instr} {r : RunInput} (hd : DataChecks r) {b : Nat}
    (h : b < is.length ∨ is.length + varCells r.vars ≤ b) :
    (loadedMemory is r).value r.params.cellDefault b =
      (stageText r.params r.text (State.resetWith r.params).mem).value r.params.cellDefault b := by
  rw [loadedMemory, placeVars_outside hd.fits h, placeCode_value]

theorem varCells_take_add_size_le {ds : List VarDecl} {k : Nat} {d : VarDecl} (hk : ds[k]? = some d) :
    varCells (ds.take k) + d.init.size ≤ varCells ds := by
  induction ds generalizing k with
  | nil => simp at hk
  | cons e rest ih =>
    cases k with
    | zero =>
      simp only [List.getElem?_cons_zero, Option.some.injEq] at hk
      subst hk
      simp [varCells]
    | succ k =>
      rw [List.getElem?_cons_succ] at hk
      have hrest := ih hk
      simp only [List.take_succ_cons, varCells]
      omega

/-- The cells of variable `k` are what `placeVar` makes of cells that hold `CELL_DEFAULT`. -/
theorem loadedMemory_variable {is : List Instr} {r : RunInput} (hlen : is.length = r.code.length)
    (hd : DataChecks r) {k j : Nat} {d : VarDecl} (hk : r.vars[k]? = some d) (hj : j < d.init.size) :
    ∃ m : Memory,
      m.value r.params.cellDefault (is.length + varCells (r.vars.take k) + j) = r.params.cellDefault ∧
      (loadedMemory is r).value r.params.cellDefault (is.length + varCells (r.vars.take k) + j) =
        (placeVar r.params.cellDefault (is.length + varCells (r.vars.take k)) d m).value r.params.cellDefault
          (is.length + varCells (r.vars.take k) + j) := by
  obtain ⟨m, hm, hv⟩ := placeVars_value hd.fits (a := is.length) hk hj r.params.cellDefault
    (placeCode 0 is (stageText r.params r.text (State.resetWith r.params).mem))
  refine ⟨m, ?_, hv⟩
  have hin := varCells_take_add_size_le hk
  rw [hm _ (Nat.le_add_right _ _), placeCode_value]
  refine stageText_value_outside fun cs hcs => .inl ?_
  have hbelow := hd.imageBelowText cs hcs
  omega

/-- An integer variable holds its literal, a text variable its characters and then `CELL_DEFAULT` (R75, R272). -/
theorem loadedState_variable {is : List Instr} {r : RunInput} (hlen : is.length = r.code.length)
    (hd : DataChecks r) {k : Nat} {d : VarDecl} (hk : r.vars[k]? = some d) :
    (∀ x, d.init = .int x →
      cellValue (is.length + varCells (r.vars.take k)) (loadedState is r) = Word.ofInt x) ∧
    (∀ cs len j, d.init = .chars cs len → j < len.toNat →
      cellValue (is.length + varCells (r.vars.take k) + j) (loadedState is r) =
        (cs[j]?).elim r.params.cellDefault (fun c => charCode (some c))) := by
  constructor
  · intro x hx
    obtain ⟨m, -, hv⟩ := loadedMemory_variable hlen hd (j := 0) hk (by rw [hx]; exact Nat.one_pos)
    have hplace : placeVar r.params.cellDefault (is.length + varCells (r.vars.take k)) d m =
        m.setValue r.params.cellDefault (is.length + varCells (r.vars.take k)) (Word.ofInt x) := by
      rw [placeVar, hx]
    rw [hplace, Nat.add_zero, Memory.value_setValue, if_pos rfl] at hv
    exact hv
  · intro cs len j hi hj
    obtain ⟨m, hm, hv⟩ := loadedMemory_variable hlen hd (j := j) hk (by rw [hi]; exact hj)
    have hplace : placeVar r.params.cellDefault (is.length + varCells (r.vars.take k)) d m =
        placeText r.params.cellDefault (is.length + varCells (r.vars.take k)) cs m := by
      rw [placeVar, hi]
    rw [hplace] at hv
    refine Eq.trans hv ?_
    cases hc : cs[j]? with
    | none =>
      have hlen := List.getElem?_eq_none_iff.mp hc
      exact (placeText_outside cs (.inr (by omega)) _ _).trans hm
    | some c => exact placeText_value cs hc _ _

theorem layoutVars_length (ds : List VarDecl) (a : Nat) : (layoutVars a ds).length = ds.length := by
  induction ds generalizing a with
  | nil => rfl
  | cons d rest ih => rw [layoutVars, List.length_cons, List.length_cons, ih]

/-- Settles O57: code, variables, staged text and the untouched cells, each in its own range. -/
theorem loadedProgramLayout : Obligations.LoadedProgramLayout := by
  unfold Obligations.LoadedProgramLayout
  intro r s h
  obtain ⟨is, his, hd, rfl⟩ := load_ok_iff.mp h
  have hlen := CodeImage.instrs_length his
  refine ⟨⟨is, his, loadedMemory_instr is r⟩, ?declared, ?undeclared, ?text, ?rest, rfl, rfl⟩
  case declared =>
    intro k d hk
    refine ⟨_, layoutVars_getElem _ _ _ hk, by rw [hlen], loadedState_variable hlen hd hk⟩
  case undeclared =>
    exact fun k hk => List.getElem?_eq_none ((layoutVars_length r.vars is.length).trans_le hk)
  case text =>
    intro cs j c hcs hc
    have hbelow := hd.imageBelowText cs hcs
    refine (loadedMemory_value_outside hd (.inr (by omega))).trans ?_
    rw [hcs]
    exact placeText_value cs hc _ _
  case rest =>
    intro b hb htext
    rw [← hlen] at hb
    exact (loadedMemory_value_outside hd hb).trans (stageText_value_outside htext)

end Sys2Proof.Machine
end

/-!
The invariant (`Inv`): each update of the state keeps it where the value written is in range, a fetch and every operation
are made of such updates, and so every instruction and every step keeps it. A load starts a machine in it.
-/
section
namespace Sys2Proof.Machine

/-! ### What keeps the invariant -/

namespace Inv

variable {s : State}

theorem setAc (h : Inv s) (v : Word) : Inv (s.setAc v) := { h with }

theorem setIp (h : Inv s) (v : Word) : Inv (s.setIp v) := { h with }

theorem setRun (h : Inv s) (v : RunStatus) : Inv (s.setRun v) := { h with }

theorem setTick (h : Inv s) (v : Nat) : Inv (s.setTick v) := { h with }

theorem setAluFlags (h : Inv s) (v : BitVec 4) : Inv (s.setAluFlags v) := { h with }

theorem clearAluSlots (h : Inv s) : Inv (s.setAluSlots 0 0) := { h with slots := ⟨rfl, rfl⟩ }

theorem setPs (h : Inv s) {v : Word} (hv : legalPs v = true) : Inv (s.setPs v) := { h with status := hv }

theorem setAr (h : Inv s) {v : Word} (hv : inMem s.cfg v.toInt = true) : Inv (s.setAr v) := { h with address := hv }

theorem setIr (h : Inv s) {i : Instr} (hi : i.wf = true) : Inv (s.setIr (some i)) :=
  { h with instruction := by rintro j ⟨⟩; exact hi }

theorem setSp (h : Inv s) {v : Word} (hv : -1 ≤ v.toInt ∧ v.toInt ≤ s.cfg.stackDepth) : Inv (s.setSp v) :=
  { h with stackPointer := hv }

theorem setInCur (h : Inv s) {v : Nat} (hv : s.cfg.inputBase ≤ v ∧ v ≤ s.cfg.memSize) : Inv (s.setInCur v) :=
  { h with input := hv }

/-- The address of a cell is an int32, so AR may hold it (R26). -/
theorem setAr_cell (h : Inv s) {a : Nat} (ha : a < s.cfg.memSize) : Inv (s.setAr (Word.ofNat a)) := by
  obtain ⟨-, hsize, -⟩ := (params_wf_iff s.cfg).mp h.parameters
  refine h.setAr ?_
  rw [toInt_ofNat_cell (ha.trans_le hsize), inMem_natCast]
  exact ha

/-- A store to a cell keeps memory canonical (R30). -/
theorem setMem_value (h : Inv s) {a : Nat} (ha : a < s.cfg.memSize) (v : Word) :
    Inv (s.setMem (s.mem.setValue s.cfg.cellDefault a v)) :=
  { h with memory := Memory.wf_setValue h.memory ha v }

/-- A write of a slot keeps the value stack canonical (R32). -/
theorem setStack_slot (h : Inv s) {j : Int} (hj : inStack s.cfg j = true) (v : Word) :
    Inv (s.setStack (sparseWrite s.cfg.stackDefault j.toNat v s.stack)) := by
  obtain ⟨hj0, hj1⟩ := (inStack_iff s.cfg j).mp hj
  exact { h with stack := sparseWf_sparseWrite ((Int.toNat_lt hj0).mpr hj1) v h.stack }

end Inv

/-! ### The values of PS -/

/-- The flags that add and subtract leave are legal in PS (R24). -/
theorem legalPs_flagsByTriggers (pos neg : Prop) [Decidable pos] [Decidable neg] (res : Word) :
    legalPs (psOf (flagsByTriggers pos neg res)) = true := by
  rw [psOf_flagsByTriggers]
  split_ifs <;> decide

theorem legalPs_addFlags (l r res : Word) : legalPs (psOf (addFlags l r res)) = true := by
  rw [addFlags_eq_flagsByTriggers]
  exact legalPs_flagsByTriggers _ _ res

theorem legalPs_subFlags (l r res : Word) : legalPs (psOf (subFlags l r res)) = true := by
  rw [subFlags_eq_flagsByTriggers]
  exact legalPs_flagsByTriggers _ _ res

/-! ### The operations -/

section
variable {o : Operand} {s t u : State} {v : Word}

theorem resolve_inv (hs : Inv s) (h : resolve o s = .ok (v, u)) : Inv u := by
  obtain rfl | ⟨a, ha, -, rfl⟩ := resolve_ok h
  · exact hs
  · exact hs.setAr_cell ha

theorem addWith_inv (hs : Inv s) (h : addWith o s = .ok t) : Inv t := by
  obtain ⟨v, u, hu, rfl⟩ := addWith_ok.mp h
  exact (((resolve_inv hs hu).clearAluSlots.setAluFlags _).setAc _).setPs (legalPs_addFlags _ _ _)

theorem subWith_inv (hs : Inv s) (h : subWith o s = .ok t) : Inv t := by
  obtain ⟨v, u, hu, rfl⟩ := subWith_ok.mp h
  exact (((resolve_inv hs hu).clearAluSlots.setAluFlags _).setAc _).setPs (legalPs_subFlags _ _ _)

theorem cmpWith_inv (hs : Inv s) (h : cmpWith o s = .ok t) : Inv t := by
  obtain ⟨v, u, hu, rfl⟩ := cmpWith_ok.mp h
  exact ((resolve_inv hs hu).clearAluSlots.setAluFlags _).setPs (legalPs_subFlags _ _ _)

theorem mulWith_inv (hs : Inv s) (h : mulWith o s = .ok t) : Inv t := by
  obtain ⟨v, u, hu, rfl⟩ := mulWith_ok.mp h
  exact (resolve_inv hs hu).clearAluSlots.setAc _

theorem divWith_inv (hs : Inv s) (h : divWith o s = .ok t) : Inv t := by
  obtain ⟨v, u, hu, -, rfl⟩ := divWith_ok.mp h
  exact (resolve_inv hs hu).clearAluSlots.setAc _

theorem loadWith_inv (hs : Inv s) (h : loadWith o s = .ok t) : Inv t := by
  obtain ⟨v, u, hu, rfl⟩ := loadWith_ok.mp h
  exact (resolve_inv hs hu).setAc _

theorem storeTo_inv {g : StoreTarget} (hs : Inv s) (h : storeTo g s = .ok t) : Inv t := by
  obtain ⟨a, -, ha, rfl⟩ := storeTo_ok.mp h
  exact (hs.setAr_cell ha).setMem_value ha s.ac

/-- LD INPUT reads a cell, so the cursor ends past the last one at most (R34, R74). -/
theorem exec_ldInput_inv (hs : Inv s) (h : exec .ldInput s = .next t) : Inv t := by
  obtain ⟨hc, rfl⟩ := exec_ldInput_next.mp h
  exact ((hs.setAr_cell hc).setInCur ⟨hs.input.1.trans (Nat.le_succ _), hc⟩).setAc _

/-- ST OUTPUT appends while there is room (R33, R55). -/
theorem outAppend_inv (hs : Inv s) (h : outAppend v s = .ok t) : Inv t := by
  obtain ⟨hroom, rfl⟩ := outAppend_ok.mp h
  exact { hs with output := by simpa [State.outCur] using hroom }

/-- A stack index is in the range of SP (R23). -/
theorem spRange_of_inStack {p : Params} {w : Word} (h : inStack p w.toInt = true) :
    -1 ≤ w.toInt ∧ w.toInt ≤ p.stackDepth := by
  have := (inStack_iff p _).mp h
  omega

/-- POP and RET leave an index by one in either direction, so SP stays in its range (R202). -/
theorem spRange_poppedSp {p : Params} (hp : p.wf = true) (pol : Config.PopPolicy) {w : Word}
    (h : inStack p w.toInt = true) : -1 ≤ (poppedSp pol w).toInt ∧ (poppedSp pol w).toInt ≤ p.stackDepth := by
  obtain ⟨-, -, hdepth, -⟩ := (params_wf_iff p).mp hp
  obtain ⟨h0, h1⟩ := (inStack_iff p _).mp h
  cases pol with
  | literal =>
    rw [poppedSp, toInt_pred_of_inStack h]
    omega
  | corrected =>
    rw [poppedSp, toInt_succ (by unfold intMax; omega)]
    omega

theorem doPush_inv (hs : Inv s) (h : doPush s = .ok t) : Inv t := by
  obtain ⟨hsp, rfl⟩ := doPush_ok.mp h
  exact ((hs.setSp (spRange_of_inStack hsp)).setAluFlags _).setStack_slot hsp s.ac

theorem doPop_inv (hs : Inv s) (h : doPop s = .ok t) : Inv t := by
  obtain ⟨hsp, rfl⟩ := doPop_ok.mp h
  exact ((hs.setAc (stackSlot s.sp.toInt.toNat s)).setSp (spRange_poppedSp hs.parameters _ hsp)).setAluFlags _

theorem jumpTo_inv {l : Nat} (hs : Inv s) (h : jumpTo l s = .ok t) : Inv t := by
  obtain ⟨f, rest, a, -, -, rfl⟩ := jumpTo_ok.mp h
  exact hs.setIp a

theorem jumpIf_inv {b : Bool} {l : Nat} (hs : Inv s) (h : jumpIf b l s = .ok t) : Inv t := by
  obtain ⟨-, rfl⟩ | ⟨-, hj⟩ := jumpIf_ok.mp h
  · exact hs
  · exact jumpTo_inv hs hj

/-- CALL writes the slot below SP as PUSH does, and CTX has room for the callee (R35, R212). -/
theorem callFunc_inv {f : Nat} (hs : Inv s) (h : callFunc f s = .ok t) : Inv t := by
  obtain ⟨e, -, hsp, hroom, rfl⟩ := callFunc_next.mp h
  exact { hs with
    stack := ((hs.setSp (spRange_of_inStack hsp)).setStack_slot hsp s.ip).stack
    stackPointer := spRange_of_inStack hsp
    context := (ctxHasRoom_iff s).mp hroom
    slots := ⟨rfl, rfl⟩ }

/-- RET moves SP as POP does and takes the top off CTX (R213). -/
theorem returnFunc_inv (hs : Inv s) (h : returnFunc s = .ok t) : Inv t := by
  obtain ⟨f, rest, hc, hsp, rfl⟩ := returnFunc_next.mp h
  have hctx := hs.context
  rw [hc] at hctx
  exact { hs with
    stackPointer := spRange_poppedSp hs.parameters _ hsp
    context := fun d hd => (Nat.le_succ _).trans (hctx d hd)
    slots := ⟨rfl, rfl⟩ }

end

/-! ### The step -/

/-- Every instruction keeps the invariant. -/
theorem exec_keeps_inv {i : Instr} {s t : State} (hs : Inv s) (h : exec i s = .next t) : Inv t := by
  cases i with
  | hlt =>
    cases h
    exact hs.setRun _
  | addAbs | addImm | addVar =>
    simp only [exec_addAbs, exec_addImm, exec_addVar, finish_next] at h
    exact addWith_inv hs h
  | subAbs | subImm | subVar =>
    simp only [exec_subAbs, exec_subImm, exec_subVar, finish_next] at h
    exact subWith_inv hs h
  | mulAbs | mulImm | mulVar =>
    simp only [exec_mulAbs, exec_mulImm, exec_mulVar, finish_next] at h
    exact mulWith_inv hs h
  | divAbs | divImm | divVar =>
    simp only [exec_divAbs, exec_divImm, exec_divVar, finish_next] at h
    exact divWith_inv hs h
  | cmpAbs | cmpImm | cmpVar =>
    simp only [exec_cmpAbs, exec_cmpImm, exec_cmpVar, finish_next] at h
    exact cmpWith_inv hs h
  | inv =>
    rw [exec_inv] at h
    cases h
    exact (hs.clearAluSlots.setAc _).setPs (by decide)
  | ldAbs | ldImm | ldVar =>
    simp only [exec_ldAbs, exec_ldImm, exec_ldVar, finish_next] at h
    exact loadWith_inv hs h
  | ldInput => exact exec_ldInput_inv hs h
  | ldOutput | stImm | stInput => cases h
  | stAbs | stVar => exact storeTo_inv hs (finish_next.mp h)
  | stOutput => exact outAppend_inv hs (finish_next.mp h)
  | push => exact doPush_inv hs (finish_next.mp h)
  | pop => exact doPop_inv hs (finish_next.mp h)
  | jmp => exact jumpTo_inv hs (finish_next.mp h)
  | jz | js | jnz => exact jumpIf_inv hs (finish_next.mp h)
  | call => exact callFunc_inv hs (finish_next.mp h)
  | ret => exact returnFunc_inv hs (finish_next.mp h)

/-- A fetch of a well-formed instruction from a cell keeps the invariant: AR is the cell's address (R141). -/
theorem fetched_inv {i : Instr} {s : State} (hs : Inv s) (hip : inMem s.cfg s.ip.toInt = true) (hi : i.wf = true) :
    Inv (fetched i s) :=
  ((((hs.setAr hip).setIp _).setAluFlags _).setIr hi).setTick _

/-- Settles O44: memory holds well-formed instructions only, so the fetch keeps the invariant, and so does what it
fetched. -/
theorem stepKeepsInv : Obligations.StepKeepsInv := by
  unfold Obligations.StepKeepsInv
  intro s t hs h
  obtain ⟨-, i, hip, hi, hexec⟩ := step_next.mp h
  exact exec_keeps_inv (fetched_inv hs hip (Memory.wf_instr hs.memory hi)) hexec

/-! ### Reset and load -/

/-- The reset state of a machine with sound parameters (log 31) meets the invariant. -/
theorem inv_resetWith {p : Params} (hp : p.wf = true) : Inv (State.resetWith p) := by
  obtain ⟨hpos, -, -, hlo, hhi, hbase, hctx⟩ := (params_wf_iff p).mp hp
  exact {
    parameters := hp
    memory := rfl
    stack := rfl
    output := Nat.zero_le _
    input := ⟨le_rfl, hbase⟩
    status := rfl
    stackPointer := ⟨hlo, hhi⟩
    context := fun d hd => Nat.one_le_iff_ne_zero.mpr fun h0 => hctx (h0 ▸ hd)
    address := (inMem_natCast p 0).mpr hpos
    instruction := nofun
    slots := ⟨rfl, rfl⟩ }

/-- Settles O42: the parameters of this hardware are sound. -/
theorem resetMeetsInv : Obligations.ResetMeetsInv := by
  unfold Obligations.ResetMeetsInv
  exact inv_resetWith (by decide)

/-- Staging, code and variables keep memory canonical: the checks of the load bound their cells. -/
theorem loadedMemory_wf {is : List Instr} {r : RunInput} (his : r.code.instrs = .ok is) (hd : DataChecks r) :
    (loadedMemory is r).wf r.params.cellDefault r.params.memSize = true := by
  have hlen := CodeImage.instrs_length his
  have himage := hd.image
  have hstage : (stageText r.params r.text (State.resetWith r.params).mem).wf r.params.cellDefault
      r.params.memSize = true := by
    cases htext : r.text with
    | none => rfl
    | some cs => exact placeText_wf cs rfl (hd.text cs htext)
  exact placeVars_wf hd.fits (placeCode_wf is hstage (CodeImage.instrs_wf his) (by omega)) (by omega)

/-- Settles O43: a load changes memory and the tables of the reset state only. -/
theorem loadMeetsInv : Obligations.LoadMeetsInv := by
  unfold Obligations.LoadMeetsInv
  intro r s hp h
  obtain ⟨is, his, hd, rfl⟩ := load_ok_iff.mp h
  exact { inv_resetWith hp with memory := loadedMemory_wf his hd }

end Sys2Proof.Machine
end

/-!
The step (41_fetch_dispatch_hlt.md R140, R141) and the faults an instruction can raise (60_exceptions.md R241, R252).
-/
section
namespace Sys2Proof.Machine

/-! ### Fetch, then execute -/

/-- A step of a running machine whose cell at IP holds an instruction (R140, R141). -/
theorem step_eq_exec {s : State} {i : Instr} (hrun : s.run = .running) (hip : inMem s.cfg s.ip.toInt = true)
    (hi : s.mem.instr s.ip.toInt.toNat = some i) : step s = exec i (fetched i s) := by
  rw [step, hrun, fetch_ok.mpr ⟨hip, hi, rfl⟩]

theorem step_eq_fault {s : State} {k : Fault} (hrun : s.run = .running) (h : instrAt s.ip.toInt s = .error k) :
    step s = .fault k := by
  rw [step, hrun, fetch, h]

/-- What a fetch leaves, hidden state aside (R141). -/
theorem fetched_visible (i : Instr) (s : State) :
    (fetched i s).visible = State.visible { s with ar := s.ip, ip := s.ip + 1, ir := some i } := by
  cases s
  rfl

/-- Settles O8: the state that the fetch leaves is `fetched i s`. -/
theorem stepRunsTheFetchedInstruction : Obligations.StepRunsTheFetchedInstruction := by
  unfold Obligations.StepRunsTheFetchedInstruction
  intro s i hrun h0 h1 hi
  exact ⟨fetched i s, fetched_visible i s, step_eq_exec hrun ((inMem_iff _ _).mpr ⟨h0, h1⟩) hi⟩

/-- The number of a 40-bit word is read as the word (log 21). -/
theorem decodeTableWord_toNat {w : Word40} {i : Instr} (h : decode w = .ok i) :
    decodeTableWord 40 w.toNat = some i := by
  have hlt : w.toNat < 2 ^ 40 := w.isLt
  rw [decodeTableWord, decodeNumbered, Nat.mod_eq_of_lt hlt, if_pos hlt, BitVec.ofNat_toNat, BitVec.setWidth_eq, h]

/-- Settles O9: the placed instruction is the one at IP, which placing it does not move. -/
theorem placedWordIsExecutedNext : Obligations.PlacedWordIsExecutedNext := by
  unfold Obligations.PlacedWordIsExecutedNext
  intro s w i hw hrun h0 h1
  have hip : inMem s.cfg s.ip.toInt = true := (inMem_iff _ _).mpr ⟨h0, h1⟩
  have hplace : s.withFetchWord 40 w.toNat = s.setMem (s.mem.setInstr s.ip.toInt.toNat (some i)) := by
    rw [State.withFetchWord, decodeTableWord_toNat hw, placeAtIp, if_pos hip]
  have hi : (s.mem.setInstr s.ip.toInt.toNat (some i)).instr s.ip.toInt.toNat = some i := by
    rw [Memory.instr_setInstr, if_pos rfl]
  rw [hplace]
  exact ⟨_, fetched_visible i (s.setMem _), step_eq_exec hrun hip hi⟩

/-- Settles O10: `InstrAt` answers neither outside memory nor on a cell without an instruction. -/
theorem fetchFaults : Obligations.FetchFaults := by
  unfold Obligations.FetchFaults
  intro s hrun
  refine ⟨fun hout => step_eq_fault hrun ?_, fun h0 h1 hnone => step_eq_fault hrun ?_⟩
  · exact if_neg fun hin => by have := (inMem_iff _ _).mp hin; omega
  · rw [instrAt, if_pos ((inMem_iff _ _).mpr ⟨h0, h1⟩), hnone]
    rfl

/-! ### Where operands, data and math raise -/

section
variable {a : Nat} {o : Operand} {s u : State} {v : Word} {k : Fault}

theorem readAt_error (h : readAt a s = .error k) : k = .addressOutOfRange := by
  by_cases ha : a < s.cfg.memSize
  · rw [readAt_ok.mpr ⟨ha, rfl, rfl⟩] at h
    cases h
  · rw [readAt_out (Nat.le_of_not_lt ha)] at h
    cases h
    rfl

theorem resolve_error (h : resolve o s = .error k) : k = .addressOutOfRange ∨ k = .undefinedVariable := by
  cases o with
  | abs n => exact .inl (readAt_error h)
  | imm | char => cases h
  | var x =>
    cases hx : varAddrOf x s with
    | none =>
      rw [resolve_var_undeclared hx] at h
      cases h
      exact .inr rfl
    | some a =>
      rw [resolve_var, hx] at h
      exact .inl (readAt_error h)

/-- Operand resolution comes first (R252), and ADD raises nothing more. -/
theorem addWith_error : addWith o s = .error k ↔ resolve o s = .error k := by
  unfold addWith
  cases resolve o s with
  | error j => simp
  | ok p => exact ⟨nofun, nofun⟩

theorem subWith_error : subWith o s = .error k ↔ resolve o s = .error k := by
  unfold subWith
  cases resolve o s with
  | error j => simp
  | ok p => exact ⟨nofun, nofun⟩

theorem mulWith_error : mulWith o s = .error k ↔ resolve o s = .error k := by
  unfold mulWith
  cases resolve o s with
  | error j => simp
  | ok p => exact ⟨nofun, nofun⟩

theorem cmpWith_error : cmpWith o s = .error k ↔ resolve o s = .error k := by
  unfold cmpWith
  cases resolve o s with
  | error j => simp
  | ok p => exact ⟨nofun, nofun⟩

theorem loadWith_error : loadWith o s = .error k ↔ resolve o s = .error k := by
  unfold loadWith
  cases resolve o s with
  | error j => simp
  | ok p => exact ⟨nofun, nofun⟩

/-- DIV raises beside that on an operand that is zero (R164, R247). -/
theorem divWith_error : divWith o s = .error k ↔
    resolve o s = .error k ∨ k = .divisionByZero ∧ ∃ u, resolve o s = .ok (0, u) := by
  cases hr : resolve o s with
  | error j => simp [divWith, hr]
  | ok p =>
    obtain ⟨v, u⟩ := p
    by_cases hv : v = 0
    · subst hv
      have hdiv : divWith o s = .error .divisionByZero := by
        rw [divWith, hr]
        rfl
      simp [hdiv, eq_comm]
    · simp only [divWith_ok.mpr ⟨v, u, hr, hv, rfl⟩, reduceCtorEq, Except.ok.injEq, Prod.mk.injEq, hv, false_and,
        exists_false, and_false, or_false]

theorem targetAddr_error {g : StoreTarget} (h : targetAddr g s = .error k) : k = .undefinedVariable := by
  cases g with
  | abs n => cases h
  | var x =>
    rw [targetAddr_var] at h
    cases hx : varAddrOf x s with
    | none =>
      rw [hx] at h
      cases h
      rfl
    | some a =>
      rw [hx] at h
      cases h

theorem storeTo_undeclared {g : StoreTarget} (h : targetAddr g s = .error k) : storeTo g s = .error k := by
  rw [storeTo, h]

theorem storeTo_error {g : StoreTarget} (h : storeTo g s = .error k) :
    k = .addressOutOfRange ∨ k = .undefinedVariable := by
  cases hg : targetAddr g s with
  | error j =>
    rw [storeTo_undeclared hg] at h
    cases h
    exact .inr (targetAddr_error hg)
  | ok a =>
    by_cases ha : a < s.cfg.memSize
    · rw [storeTo_ok.mpr ⟨a, hg, ha, rfl⟩] at h
      cases h
    · rw [storeTo_out hg (Nat.le_of_not_lt ha)] at h
      cases h
      exact .inl rfl

theorem outAppend_error (h : outAppend v s = .error k) : k = .addressOutOfRange := by
  by_cases hc : s.out.length < s.cfg.outCapacity
  · rw [outAppend_ok.mpr ⟨hc, rfl⟩] at h
    cases h
  · rw [outAppend_full (Nat.le_of_not_lt hc)] at h
    cases h
    rfl

theorem exec_ldInput_fault (h : exec .ldInput s = .fault k) : k = .addressOutOfRange := by
  by_cases hc : s.inCur < s.cfg.memSize
  · rw [exec_ldInput_next.mpr ⟨hc, rfl⟩] at h
    cases h
  · rw [exec_ldInput_out (Nat.le_of_not_lt hc)] at h
    cases h
    rfl

end

/-! ### Where stack and control raise -/

section
variable {f l : Nat} {rest : List Nat} {s : State} {k : Fault}

theorem doPush_of_not_inStack (h : ¬ inStack s.cfg (s.sp - 1).toInt = true) : doPush s = .error .addressOutOfRange :=
  if_neg h

theorem doPush_error (h : doPush s = .error k) : k = .addressOutOfRange := by
  by_cases hs : inStack s.cfg (s.sp - 1).toInt = true
  · rw [doPush_ok.mpr ⟨hs, rfl⟩] at h
    cases h
  · rw [doPush_of_not_inStack hs] at h
    cases h
    rfl

theorem doPop_of_not_inStack (h : ¬ inStack s.cfg s.sp.toInt = true) : doPop s = .error .addressOutOfRange := by
  have hread : stackRead s.sp.toInt s = .error .addressOutOfRange := if_neg h
  rw [doPop, hread]

theorem doPop_error (h : doPop s = .error k) : k = .addressOutOfRange := by
  by_cases hs : inStack s.cfg s.sp.toInt = true
  · rw [doPop_ok.mpr ⟨hs, rfl⟩] at h
    cases h
  · rw [doPop_of_not_inStack hs] at h
    cases h
    rfl

theorem ctxPush_error (h : ctxPush f s = .error k) : k = .addressOutOfRange := by
  by_cases hc : ctxHasRoom s = true
  · rw [ctxPush_ok.mpr ⟨hc, rfl⟩] at h
    cases h
  · rw [ctxPush, if_neg hc] at h
    cases h
    rfl

theorem jumpTo_underflow (h : s.ctx = []) : jumpTo l s = .error .contextUnderflow := by
  rw [jumpTo, h]
  rfl

theorem jumpTo_undefined (hc : s.ctx = f :: rest) (h : labelAddrOf f l s = none) :
    jumpTo l s = .error .undefinedLabel := by
  simp only [jumpTo, hc, h, raise_eq]

theorem jumpTo_error (h : jumpTo l s = .error k) : k = .contextUnderflow ∨ k = .undefinedLabel := by
  cases hc : s.ctx with
  | nil =>
    rw [jumpTo_underflow hc] at h
    cases h
    exact .inl rfl
  | cons f rest =>
    cases hl : labelAddrOf f l s with
    | none =>
      rw [jumpTo_undefined hc hl] at h
      cases h
      exact .inr rfl
    | some a =>
      rw [jumpTo_ok.mpr ⟨f, rest, a, hc, hl, rfl⟩] at h
      cases h

theorem jumpIf_error {b : Bool} (h : jumpIf b l s = .error k) : k = .contextUnderflow ∨ k = .undefinedLabel := by
  cases b with
  | false => cases h
  | true => exact jumpTo_error h

theorem callFunc_undeclared (h : entryOf f s = none) : callFunc f s = .error .undefinedFunction := by
  rw [callFunc, h]
  rfl

/-- A CALL of a declared function raises one kind, whether the stack index or CTX stops it (R212, log 19). -/
theorem callFunc_error_of_declared {e : Word} (he : entryOf f s = some e) (h : callFunc f s = .error k) :
    k = .addressOutOfRange := by
  simp only [callFunc, he] at h
  cases hp : doPush (moveIpToAc (moveAcToBr s)) with
  | error j =>
    rw [hp] at h
    cases h
    exact doPush_error hp
  | ok u =>
    cases hc : ctxPush f (u.setIp e) with
    | error j =>
      simp only [hp, hc] at h
      cases h
      exact ctxPush_error hc
    | ok v =>
      simp only [hp, hc] at h
      cases h

theorem callFunc_out {e : Word} (he : entryOf f s = some e)
    (h : ¬ (inStack s.cfg (s.sp - 1).toInt = true ∧ ctxHasRoom s = true)) :
    callFunc f s = .error .addressOutOfRange := by
  cases hc : callFunc f s with
  | error k => rw [callFunc_error_of_declared he hc]
  | ok t =>
    obtain ⟨e', -, hs, hroom, -⟩ := callFunc_next.mp hc
    exact absurd ⟨hs, hroom⟩ h

theorem callFunc_error (h : callFunc f s = .error k) : k = .undefinedFunction ∨ k = .addressOutOfRange := by
  cases he : entryOf f s with
  | none =>
    rw [callFunc_undeclared he] at h
    cases h
    exact .inl rfl
  | some e => exact .inr (callFunc_error_of_declared he h)

theorem returnFunc_underflow (h : s.ctx = []) : returnFunc s = .error .contextUnderflow := by
  rw [returnFunc, h]
  rfl

theorem returnFunc_out (hc : s.ctx = f :: rest) (h : ¬ inStack s.cfg s.sp.toInt = true) :
    returnFunc s = .error .addressOutOfRange := by
  have hpop : doPop (moveAcToBr s) = .error .addressOutOfRange :=
    doPop_of_not_inStack (by simpa [moveAcToBr_eq] using h)
  simp only [returnFunc, hc, hpop]

theorem returnFunc_error (h : returnFunc s = .error k) : k = .contextUnderflow ∨ k = .addressOutOfRange := by
  cases hc : s.ctx with
  | nil =>
    rw [returnFunc_underflow hc] at h
    cases h
    exact .inl rfl
  | cons f rest =>
    by_cases hs : inStack s.cfg s.sp.toInt = true
    · rw [returnFunc_next.mpr ⟨f, rest, hc, hs, rfl⟩] at h
      cases h
    · rw [returnFunc_out hc hs] at h
      cases h
      exact .inr rfl

end

/-! ### Faults of an instruction and of a step -/

/-- The kinds that a step may raise: all but the two that only a load raises (R241). -/
def Fault.isRunTime (k : Fault) : Prop := k ≠ .variableRangeError ∧ k ≠ .illegalEncoding

theorem isRunTime_of_or {k j j' : Fault} (h : k = j ∨ k = j') (hj : j.isRunTime) (hj' : j'.isRunTime) :
    k.isRunTime := by
  obtain rfl | rfl := h
  · exact hj
  · exact hj'

theorem resolve_error_isRunTime {o : Operand} {s : State} {k : Fault} (h : resolve o s = .error k) : k.isRunTime :=
  isRunTime_of_or (resolve_error h) ⟨nofun, nofun⟩ ⟨nofun, nofun⟩

theorem exec_fault_isRunTime {i : Instr} {s : State} {k : Fault} (h : exec i s = .fault k) : k.isRunTime := by
  cases i with
  | hlt | inv => cases h
  | addAbs | addImm | addVar =>
    simp only [exec_addAbs, exec_addImm, exec_addVar, finish_fault, addWith_error] at h
    exact resolve_error_isRunTime h
  | subAbs | subImm | subVar =>
    simp only [exec_subAbs, exec_subImm, exec_subVar, finish_fault, subWith_error] at h
    exact resolve_error_isRunTime h
  | mulAbs | mulImm | mulVar =>
    simp only [exec_mulAbs, exec_mulImm, exec_mulVar, finish_fault, mulWith_error] at h
    exact resolve_error_isRunTime h
  | divAbs | divImm | divVar =>
    simp only [exec_divAbs, exec_divImm, exec_divVar, finish_fault, divWith_error] at h
    obtain hr | ⟨rfl, -⟩ := h
    · exact resolve_error_isRunTime hr
    · exact ⟨nofun, nofun⟩
  | cmpAbs | cmpImm | cmpVar =>
    simp only [exec_cmpAbs, exec_cmpImm, exec_cmpVar, finish_fault, cmpWith_error] at h
    exact resolve_error_isRunTime h
  | ldAbs | ldImm | ldVar =>
    simp only [exec_ldAbs, exec_ldImm, exec_ldVar, finish_fault, loadWith_error] at h
    exact resolve_error_isRunTime h
  | ldInput =>
    rw [exec_ldInput_fault h]
    exact ⟨nofun, nofun⟩
  | ldOutput | stImm | stInput =>
    cases h
    exact ⟨nofun, nofun⟩
  | stAbs | stVar => exact isRunTime_of_or (storeTo_error (finish_fault.mp h)) ⟨nofun, nofun⟩ ⟨nofun, nofun⟩
  | stOutput =>
    rw [outAppend_error (finish_fault.mp h)]
    exact ⟨nofun, nofun⟩
  | push =>
    rw [doPush_error (finish_fault.mp h)]
    exact ⟨nofun, nofun⟩
  | pop =>
    rw [doPop_error (finish_fault.mp h)]
    exact ⟨nofun, nofun⟩
  | jmp => exact isRunTime_of_or (jumpTo_error (finish_fault.mp h)) ⟨nofun, nofun⟩ ⟨nofun, nofun⟩
  | jz | js | jnz => exact isRunTime_of_or (jumpIf_error (finish_fault.mp h)) ⟨nofun, nofun⟩ ⟨nofun, nofun⟩
  | call => exact isRunTime_of_or (callFunc_error (finish_fault.mp h)) ⟨nofun, nofun⟩ ⟨nofun, nofun⟩
  | ret => exact isRunTime_of_or (returnFunc_error (finish_fault.mp h)) ⟨nofun, nofun⟩ ⟨nofun, nofun⟩

/-- Every instruction has a meaning on every state. -/
theorem exec_not_refused (i : Instr) (s : State) (q : Refusal) : exec i s ≠ .refused q := by
  cases i with
  | ldInput =>
    rw [exec_ldInput, execLdInput]
    cases inputRead s with
    | error k => exact finish_not_refused
    | ok p => exact finish_not_refused
  | hlt | inv | addImm | subImm | mulImm | cmpImm | ldImm | ldOutput | stImm | stInput => exact nofun
  | _ => exact finish_not_refused

theorem instrAt_error {a : Int} {s : State} {k : Fault} (h : instrAt a s = .error k) :
    k = .addressOutOfRange ∨ k = .noInstruction := by
  unfold instrAt at h
  split at h
  · cases hi : s.mem.instr a.toNat with
    | none =>
      rw [hi] at h
      cases h
      exact .inr rfl
    | some i =>
      rw [hi] at h
      cases h
  · cases h
    exact .inl rfl

/-- A running machine either cannot fetch or runs what it fetched. -/
theorem step_cases {s : State} (hrun : s.run = .running) :
    (∃ k, instrAt s.ip.toInt s = .error k ∧ step s = .fault k) ∨ ∃ i, step s = exec i (fetched i s) := by
  cases hi : instrAt s.ip.toInt s with
  | error k => exact .inl ⟨k, rfl, step_eq_fault hrun hi⟩
  | ok i =>
    obtain ⟨hip, hmem⟩ := instrAt_ok.mp hi
    exact .inr ⟨i, step_eq_exec hrun hip hmem⟩

theorem exec_run {i : Instr} {s t : State} (hrun : s.run = .running) (h : exec i s = .next t) :
    t.run = .running ∨ t.run = .halted := by
  by_cases hi : i = .hlt
  · subst hi
    cases h
    exact .inr rfl
  · exact .inl (((exec_frame h).run hi).trans hrun)

/-- Settles O11: the fetch faults, or the instruction answers or faults, always with a run-time kind. -/
theorem stepIsTotalFromRunningOnly : Obligations.StepIsTotalFromRunningOnly := by
  unfold Obligations.StepIsTotalFromRunningOnly
  refine fun s => ⟨fun hrun => ?_, step_ended⟩
  obtain ⟨k, hk, hs⟩ | ⟨i, hs⟩ := step_cases hrun
  · exact .inr ⟨k, hs, isRunTime_of_or (instrAt_error hk) ⟨nofun, nofun⟩ ⟨nofun, nofun⟩⟩
  · rw [hs]
    cases he : exec i (fetched i s) with
    | next t => exact .inl ⟨t, rfl, exec_run (s := fetched i s) hrun he⟩
    | fault k => exact .inr ⟨k, rfl, exec_fault_isRunTime he⟩
    | refused q => exact absurd he (exec_not_refused i _ q)

end Sys2Proof.Machine
end

/-!
Hidden components and the diagnostic registers (10_state.md R26, R27, R37 to R39). An operation is blind when it answers
alike from a state and from that state with them set aside. Every operation is: what it reads is architectural, and both
answers differ in what is set aside only.
-/
section
namespace Sys2Proof.Machine

/-! ### Setting hidden and diagnostic state aside -/

namespace State

@[simp] theorem undiagnosed_ac (s : State) : s.undiagnosed.ac = s.ac := rfl
@[simp] theorem undiagnosed_br (s : State) : s.undiagnosed.br = s.br := rfl
@[simp] theorem undiagnosed_sp (s : State) : s.undiagnosed.sp = s.sp := rfl
@[simp] theorem undiagnosed_ps (s : State) : s.undiagnosed.ps = s.ps := rfl
@[simp] theorem undiagnosed_ip (s : State) : s.undiagnosed.ip = s.ip := rfl
@[simp] theorem undiagnosed_mem (s : State) : s.undiagnosed.mem = s.mem := rfl
@[simp] theorem undiagnosed_stack (s : State) : s.undiagnosed.stack = s.stack := rfl
@[simp] theorem undiagnosed_out (s : State) : s.undiagnosed.out = s.out := rfl
@[simp] theorem undiagnosed_inCur (s : State) : s.undiagnosed.inCur = s.inCur := rfl
@[simp] theorem undiagnosed_ctx (s : State) : s.undiagnosed.ctx = s.ctx := rfl
@[simp] theorem undiagnosed_run (s : State) : s.undiagnosed.run = s.run := rfl
@[simp] theorem undiagnosed_tables (s : State) : s.undiagnosed.tables = s.tables := rfl
@[simp] theorem undiagnosed_cfg (s : State) : s.undiagnosed.cfg = s.cfg := rfl

@[simp] theorem undiagnosed_setAc (s : State) (v : Word) : (s.setAc v).undiagnosed = s.undiagnosed.setAc v := rfl
@[simp] theorem undiagnosed_setBr (s : State) (v : Word) : (s.setBr v).undiagnosed = s.undiagnosed.setBr v := rfl
@[simp] theorem undiagnosed_setSp (s : State) (v : Word) : (s.setSp v).undiagnosed = s.undiagnosed.setSp v := rfl
@[simp] theorem undiagnosed_setPs (s : State) (v : Word) : (s.setPs v).undiagnosed = s.undiagnosed.setPs v := rfl
@[simp] theorem undiagnosed_setIp (s : State) (v : Word) : (s.setIp v).undiagnosed = s.undiagnosed.setIp v := rfl
@[simp] theorem undiagnosed_setMem (s : State) (v : Memory) : (s.setMem v).undiagnosed = s.undiagnosed.setMem v := rfl
@[simp] theorem undiagnosed_setStack (s : State) (v : List (Nat × Word)) :
    (s.setStack v).undiagnosed = s.undiagnosed.setStack v := rfl
@[simp] theorem undiagnosed_setOut (s : State) (v : List Word) : (s.setOut v).undiagnosed = s.undiagnosed.setOut v := rfl
@[simp] theorem undiagnosed_setInCur (s : State) (v : Nat) : (s.setInCur v).undiagnosed = s.undiagnosed.setInCur v := rfl
@[simp] theorem undiagnosed_setCtx (s : State) (v : List Nat) : (s.setCtx v).undiagnosed = s.undiagnosed.setCtx v := rfl
@[simp] theorem undiagnosed_setRun (s : State) (v : RunStatus) : (s.setRun v).undiagnosed = s.undiagnosed.setRun v := rfl

@[simp] theorem undiagnosed_setAr (s : State) (v : Word) : (s.setAr v).undiagnosed = s.undiagnosed := rfl
@[simp] theorem undiagnosed_setIr (s : State) (v : Option Instr) : (s.setIr v).undiagnosed = s.undiagnosed := rfl
@[simp] theorem undiagnosed_setAluFlags (s : State) (v : BitVec 4) : (s.setAluFlags v).undiagnosed = s.undiagnosed := rfl
@[simp] theorem undiagnosed_setTick (s : State) (v : Nat) : (s.setTick v).undiagnosed = s.undiagnosed := rfl
@[simp] theorem undiagnosed_setAluSlots (s : State) (l r : Word) : (s.setAluSlots l r).undiagnosed = s.undiagnosed := rfl
@[simp] theorem undiagnosed_undiagnosed (s : State) : s.undiagnosed.undiagnosed = s.undiagnosed := rfl

end State

/-- An operation that does the same, hidden and diagnostic state aside, where that state is set aside before. -/
def Blind (f : State → Except Fault State) : Prop :=
  ∀ s, (f s.undiagnosed).map State.undiagnosed = (f s).map State.undiagnosed

theorem undiagnosedOutcome_finish (r : Except Fault State) :
    undiagnosedOutcome (finish r) = finish (r.map State.undiagnosed) := by
  cases r <;> rfl

/-! ### Operands -/

theorem readAt_undiagnosed (a : Nat) (s : State) :
    readAt a s = .ok (cellValue a s, s.setAr (Word.ofNat a)) ∧
        readAt a s.undiagnosed = .ok (cellValue a s, s.undiagnosed.setAr (Word.ofNat a)) ∨
      readAt a s = .error .addressOutOfRange ∧ readAt a s.undiagnosed = .error .addressOutOfRange := by
  by_cases ha : a < s.cfg.memSize
  · exact .inl ⟨readAt_ok.mpr ⟨ha, rfl, rfl⟩, readAt_ok.mpr ⟨ha, rfl, rfl⟩⟩
  · exact .inr ⟨readAt_out (Nat.le_of_not_lt ha), readAt_out (s := s.undiagnosed) (Nat.le_of_not_lt ha)⟩

/-- An operand resolves to one value from both states, and to one address for AR or none; or it raises one fault. -/
theorem resolve_undiagnosed (o : Operand) (s : State) :
    (∃ k, resolve o s = .error k ∧ resolve o s.undiagnosed = .error k) ∨
    (∃ v, resolve o s = .ok (v, s) ∧ resolve o s.undiagnosed = .ok (v, s.undiagnosed)) ∨
    (∃ v w, resolve o s = .ok (v, s.setAr w) ∧ resolve o s.undiagnosed = .ok (v, s.undiagnosed.setAr w)) := by
  cases o with
  | imm | char => exact .inr (.inl ⟨_, rfl, rfl⟩)
  | abs n =>
    obtain h | h := readAt_undiagnosed n s
    · exact .inr (.inr ⟨_, _, h⟩)
    · exact .inl ⟨_, h⟩
  | var x =>
    cases hx : varAddrOf x s with
    | none => exact .inl ⟨_, resolve_var_undeclared hx, resolve_var_undeclared (s := s.undiagnosed) hx⟩
    | some a =>
      have hx' : varAddrOf x s.undiagnosed = some a := hx
      rw [resolve_var, resolve_var, hx, hx']
      obtain h | h := readAt_undiagnosed a s
      · exact .inr (.inr ⟨_, _, h⟩)
      · exact .inl ⟨_, h⟩

section
variable (o : Operand)

theorem addWith_blind : Blind (addWith o) := by
  intro s
  unfold addWith
  obtain ⟨k, h, h'⟩ | ⟨v, h, h'⟩ | ⟨v, w, h, h'⟩ := resolve_undiagnosed o s <;>
    simp [h, h', aluAdd_eq, copyFlags, Except.map]

theorem subWith_blind : Blind (subWith o) := by
  intro s
  unfold subWith
  obtain ⟨k, h, h'⟩ | ⟨v, h, h'⟩ | ⟨v, w, h, h'⟩ := resolve_undiagnosed o s <;>
    simp [h, h', aluSub_eq, copyFlags, Except.map]

theorem mulWith_blind : Blind (mulWith o) := by
  intro s
  unfold mulWith
  obtain ⟨k, h, h'⟩ | ⟨v, h, h'⟩ | ⟨v, w, h, h'⟩ := resolve_undiagnosed o s <;>
    simp [h, h', aluMul_eq, Except.map]

theorem cmpWith_blind : Blind (cmpWith o) := by
  intro s
  unfold cmpWith
  obtain ⟨k, h, h'⟩ | ⟨v, h, h'⟩ | ⟨v, w, h, h'⟩ := resolve_undiagnosed o s <;>
    simp [h, h', aluSub_eq, copyFlags, Except.map]

theorem loadWith_blind : Blind (loadWith o) := by
  intro s
  unfold loadWith
  obtain ⟨k, h, h'⟩ | ⟨v, h, h'⟩ | ⟨v, w, h, h'⟩ := resolve_undiagnosed o s <;>
    simp [h, h', Except.map]

variable {o} in
/-- DIV of an operand that resolves. -/
theorem divWith_of_resolve {s u : State} {v : Word} (h : resolve o s = .ok (v, u)) :
    divWith o s = if v = 0 then .error .divisionByZero
      else .ok ((u.setAluSlots 0 0).setAc (divResult u.cfg.narrowPolicy u.ac v)) := by
  split
  case isTrue hv => exact divWith_error.mpr (.inr ⟨rfl, u, by rw [h, hv]⟩)
  case isFalse hv => exact divWith_ok.mpr ⟨v, u, h, hv, rfl⟩

theorem divWith_blind : Blind (divWith o) := by
  intro s
  obtain ⟨k, h, h'⟩ | ⟨v, h, h'⟩ | ⟨v, w, h, h'⟩ := resolve_undiagnosed o s
  · rw [divWith_error.mpr (.inl h), divWith_error.mpr (.inl h')]
  all_goals
    rw [divWith_of_resolve h, divWith_of_resolve h']
    split <;> simp [Except.map]

end

/-! ### Memory, stack and control -/

theorem targetAddr_undiagnosed (g : StoreTarget) (s : State) : targetAddr g s.undiagnosed = targetAddr g s := by
  cases g with
  | abs n => rfl
  | var x => rw [targetAddr_var, targetAddr_var]; rfl

theorem storeTo_blind (g : StoreTarget) : Blind (storeTo g) := by
  intro s
  cases hg : targetAddr g s with
  | error k =>
    rw [storeTo_undeclared hg, storeTo_undeclared ((targetAddr_undiagnosed g s).trans hg)]
  | ok a =>
    have hg' := (targetAddr_undiagnosed g s).trans hg
    by_cases ha : a < s.cfg.memSize
    · rw [storeTo_ok.mpr ⟨a, hg, ha, rfl⟩, storeTo_ok.mpr ⟨a, hg', ha, rfl⟩]
      simp [Except.map]
    · rw [storeTo_out hg (Nat.le_of_not_lt ha), storeTo_out hg' (Nat.le_of_not_lt ha)]

theorem outAppend_blind : Blind (fun s => outAppend s.ac s) := by
  intro s
  beta_reduce
  by_cases hc : s.out.length < s.cfg.outCapacity
  · rw [outAppend_ok.mpr ⟨hc, rfl⟩, (outAppend_ok (s := s.undiagnosed)).mpr ⟨hc, rfl⟩]
    simp [Except.map]
  · rw [outAppend_full (Nat.le_of_not_lt hc), outAppend_full (s := s.undiagnosed) (Nat.le_of_not_lt hc)]

theorem doPush_blind : Blind doPush := by
  intro s
  by_cases hs : inStack s.cfg (s.sp - 1).toInt = true
  · rw [doPush_ok.mpr ⟨hs, rfl⟩, (doPush_ok (s := s.undiagnosed)).mpr ⟨hs, rfl⟩]
    simp [Except.map, internalUse]
  · rw [doPush_of_not_inStack hs, doPush_of_not_inStack (s := s.undiagnosed) hs]

theorem doPop_blind : Blind doPop := by
  intro s
  by_cases hs : inStack s.cfg s.sp.toInt = true
  · rw [doPop_ok.mpr ⟨hs, rfl⟩, (doPop_ok (s := s.undiagnosed)).mpr ⟨hs, rfl⟩]
    simp [Except.map, internalUse, stackSlot]
  · rw [doPop_of_not_inStack hs, doPop_of_not_inStack (s := s.undiagnosed) hs]

theorem jumpTo_blind (l : Nat) : Blind (jumpTo l) := by
  intro s
  cases hc : s.ctx with
  | nil =>
    rw [jumpTo_underflow hc, jumpTo_underflow (s := s.undiagnosed) hc]
  | cons f rest =>
    cases hl : labelAddrOf f l s with
    | none =>
      rw [jumpTo_undefined hc hl, jumpTo_undefined (s := s.undiagnosed) hc hl]
    | some a =>
      rw [jumpTo_ok.mpr ⟨f, rest, a, hc, hl, rfl⟩, (jumpTo_ok (s := s.undiagnosed)).mpr ⟨f, rest, a, hc, hl, rfl⟩]
      simp [Except.map]

/-- The tests of the conditional jumps read PS, which is architectural. -/
theorem jumpIf_blind (test : Word → Bool) (l : Nat) : Blind (fun s => jumpIf (test s.ps) l s) := by
  intro s
  cases ht : test s.ps with
  | false => simp [jumpIf, ht, Except.map]
  | true => simpa [jumpIf, ht] using jumpTo_blind l s

theorem callFunc_blind (f : Nat) : Blind (callFunc f) := by
  intro s
  cases he : entryOf f s with
  | none =>
    rw [callFunc_undeclared he, callFunc_undeclared (s := s.undiagnosed) he]
  | some e =>
    by_cases h : inStack s.cfg (s.sp - 1).toInt = true ∧ ctxHasRoom s = true
    · rw [callFunc_next.mpr ⟨e, he, h.1, h.2, rfl⟩,
        (callFunc_next (s := s.undiagnosed)).mpr ⟨e, he, h.1, h.2, rfl⟩]
      rfl
    · rw [callFunc_out he h, callFunc_out (s := s.undiagnosed) he h]

theorem returnFunc_blind : Blind returnFunc := by
  intro s
  cases hc : s.ctx with
  | nil =>
    rw [returnFunc_underflow hc, returnFunc_underflow (s := s.undiagnosed) hc]
  | cons f rest =>
    by_cases hs : inStack s.cfg s.sp.toInt = true
    · rw [returnFunc_next.mpr ⟨f, rest, hc, hs, rfl⟩,
        (returnFunc_next (s := s.undiagnosed)).mpr ⟨f, rest, hc, hs, rfl⟩]
      rfl
    · rw [returnFunc_out hc hs, returnFunc_out (s := s.undiagnosed) hc hs]

/-! ### Instructions and steps -/

theorem Blind.exec {f : State → Except Fault State} (hf : Blind f) (s : State) :
    undiagnosedOutcome (finish (f s.undiagnosed)) = undiagnosedOutcome (finish (f s)) := by
  rw [undiagnosedOutcome_finish, undiagnosedOutcome_finish, hf s]

theorem exec_ldInput_undiagnosed (s : State) :
    undiagnosedOutcome (exec .ldInput s.undiagnosed) = undiagnosedOutcome (exec .ldInput s) := by
  by_cases hc : s.inCur < s.cfg.memSize
  · rw [exec_ldInput_next.mpr ⟨hc, rfl⟩, (exec_ldInput_next (s := s.undiagnosed)).mpr ⟨hc, rfl⟩]
    simp [undiagnosedOutcome, cellValue]
  · rw [exec_ldInput_out (Nat.le_of_not_lt hc), exec_ldInput_out (s := s.undiagnosed) (Nat.le_of_not_lt hc)]

/-- No instruction reads what is set aside. -/
theorem exec_undiagnosed (i : Instr) (s : State) :
    undiagnosedOutcome (exec i s.undiagnosed) = undiagnosedOutcome (exec i s) := by
  cases i with
  | hlt | ldOutput | stImm | stInput => rfl
  | addAbs | addImm | addVar =>
    simp only [exec_addAbs, exec_addImm, exec_addVar]
    exact (addWith_blind _).exec s
  | subAbs | subImm | subVar =>
    simp only [exec_subAbs, exec_subImm, exec_subVar]
    exact (subWith_blind _).exec s
  | mulAbs | mulImm | mulVar =>
    simp only [exec_mulAbs, exec_mulImm, exec_mulVar]
    exact (mulWith_blind _).exec s
  | divAbs | divImm | divVar => exact (divWith_blind _).exec s
  | cmpAbs | cmpImm | cmpVar =>
    simp only [exec_cmpAbs, exec_cmpImm, exec_cmpVar]
    exact (cmpWith_blind _).exec s
  | inv => simp [exec_inv, undiagnosedOutcome]
  | ldAbs | ldImm | ldVar =>
    simp only [exec_ldAbs, exec_ldImm, exec_ldVar]
    exact (loadWith_blind _).exec s
  | ldInput => exact exec_ldInput_undiagnosed s
  | stAbs | stVar => exact (storeTo_blind _).exec s
  | stOutput => exact outAppend_blind.exec s
  | push => exact doPush_blind.exec s
  | pop => exact doPop_blind.exec s
  | jmp l => exact (jumpTo_blind l).exec s
  | call f => exact (callFunc_blind f).exec s
  | ret => exact returnFunc_blind.exec s
  | jz l => exact (jumpIf_blind takenJz l).exec s
  | js l => exact (jumpIf_blind takenJs l).exec s
  | jnz l => exact (jumpIf_blind takenJnz l).exec s

theorem fetched_undiagnosed (i : Instr) (s : State) :
    (fetched i s.undiagnosed).undiagnosed = (fetched i s).undiagnosed := by
  simp [fetched, advanceTick, internalUse]

/-- No step reads what is set aside: the fetch uses IP and memory. -/
theorem step_undiagnosed (s : State) : undiagnosedOutcome (step s.undiagnosed) = undiagnosedOutcome (step s) := by
  by_cases hrun : s.run = .running
  · cases hi : instrAt s.ip.toInt s with
    | error k => rw [step_eq_fault hrun hi, step_eq_fault (s := s.undiagnosed) hrun hi]
    | ok i =>
      obtain ⟨hip, hmem⟩ := instrAt_ok.mp hi
      rw [step_eq_exec hrun hip hmem, step_eq_exec (s := s.undiagnosed) hrun hip hmem, ← exec_undiagnosed,
        fetched_undiagnosed, exec_undiagnosed]
  · rw [step_ended hrun, step_ended (s := s.undiagnosed) hrun]

/-- Settles O52: both steps are that of the state with everything set aside. -/
theorem hiddenAndDiagnosticStateIsInvisible : Obligations.HiddenAndDiagnosticStateIsInvisible := by
  unfold Obligations.HiddenAndDiagnosticStateIsInvisible
  intro s t h
  rw [← step_undiagnosed s, h, step_undiagnosed t]

end Sys2Proof.Machine
end

/-!
The results of the ALU (40_alu.md R112 to R122) as integers. Add and subtract fold one exact result in the same way and
read their flags off two triggers, so both are stated once; the other operations deliver one exact result.
-/
section
namespace Sys2Proof.Machine

/-! ### The fold that add and subtract share -/

/-- An exact result `x`, folded above int32 as R112 and R114 say, and below it to `neg`. -/
def foldResult (x neg : Int) : Word :=
  if x > intMax then Word.ofInt (intMin + low31 x)
  else if x < intMin then Word.ofInt neg
  else Word.ofInt x

theorem addResult_eq_foldResult (p : Config.FoldPolicy) (l r : Word) :
    addResult p l r = foldResult (l.toInt + r.toInt) (foldAddNeg p l.toInt r.toInt) := rfl

theorem subResult_eq_foldResult (p : Config.FoldPolicy) (l r : Word) :
    subResult p l r = foldResult (l.toInt - r.toInt) (foldSubNeg p l.toInt r.toInt) := rfl

theorem inInt32_iff (x : Int) : InInt32 x ↔ -2147483648 ≤ x ∧ x ≤ 2147483647 := Iff.rfl

/-- A positive overflow loses 2^32: the exact result is below 2^32. -/
theorem toInt_foldResult {x neg : Int} (hx : x < 4294967296) (hneg : x < -2147483648 → InInt32 neg) :
    (foldResult x neg).toInt =
      if x > 2147483647 then x - 4294967296 else if x < -2147483648 then neg else x := by
  unfold foldResult intMin intMax
  split_ifs with hmax hmin
  · have hlow : -2147483648 + low31 x = x - 4294967296 := by
      unfold low31
      omega
    rw [hlow]
    exact toInt_ofInt_fits ((inInt32_iff _).mpr (by omega))
  · exact toInt_ofInt_fits (hneg hmin)
  · exact toInt_ofInt_fits ((inInt32_iff _).mpr (by omega))

/-- Settles O12: the mirrored value of R112 is an int32. -/
theorem addResultIsExactOrFolded : Obligations.AddResultIsExactOrFolded := by
  unfold Obligations.AddResultIsExactOrFolded
  intro l r
  have hl := (inInt32_iff _).mp (inInt32_toInt l)
  have hr := (inInt32_iff _).mp (inInt32_toInt r)
  have hneg : foldAddNeg .literal l.toInt r.toInt = (-l.toInt + -r.toInt) % 2147483648 - 1 := rfl
  rw [addResult_eq_foldResult, toInt_foldResult (by omega) fun _ => (inInt32_iff _).mpr (by omega), hneg]
  dsimp only [intMin, intMax]
  split_ifs <;> omega

/-- Settles O15: the mirrored value of R114 is an int32. -/
theorem subResultIsExactOrFolded : Obligations.SubResultIsExactOrFolded := by
  unfold Obligations.SubResultIsExactOrFolded
  intro l r
  have hl := (inInt32_iff _).mp (inInt32_toInt l)
  have hr := (inInt32_iff _).mp (inInt32_toInt r)
  have hneg : foldSubNeg .literal l.toInt r.toInt = (-l.toInt + r.toInt) % 2147483648 := rfl
  rw [subResult_eq_foldResult, toInt_foldResult (by omega) fun _ => (inInt32_iff _).mpr (by omega), hneg]
  dsimp only [intMin, intMax]
  split_ifs <;> omega

/-! ### The flags -/

/-- Where the triggers agree with the sign of the result, the flags say what R121 and R122 ask: Z and N the result,
C and V the triggers. -/
theorem flagsByTriggers_laws {pos neg : Prop} [Decidable pos] [Decidable neg] {res : Word}
    (hpos : pos → res.toInt < 0) (hneg : neg → 0 ≤ res.toInt) :
    ((flagsByTriggers pos neg res).getLsbD 1 = true ↔ res.toInt = 0) ∧
    ((flagsByTriggers pos neg res).getLsbD 0 = true ↔ res.toInt < 0) ∧
    (flagsByTriggers pos neg res).getLsbD 3 = (flagsByTriggers pos neg res).getLsbD 2 ∧
    ((flagsByTriggers pos neg res).getLsbD 2 = true ↔ pos ∨ neg) := by
  unfold flagsByTriggers signFlags
  split_ifs with h1 h2 hz hz hn
  · have hres := hpos h1
    exact ⟨iff_of_false (by decide) (by omega), iff_of_true (by decide) hres, by decide, iff_of_true (by decide) (.inl h1)⟩
  · have hres := hneg h2
    exact ⟨iff_of_true (by decide) hz, iff_of_false (by decide) (by omega), by decide, iff_of_true (by decide) (.inr h2)⟩
  · have hres := hneg h2
    exact ⟨iff_of_false (by decide) hz, iff_of_false (by decide) (by omega), by decide,
      iff_of_true (by decide) (.inr h2)⟩
  · exact ⟨iff_of_true (by decide) hz, iff_of_false (by decide) (by omega), by decide,
      iff_of_false (by decide) (by tauto)⟩
  · exact ⟨iff_of_false (by decide) hz, iff_of_true (by decide) hn, by decide, iff_of_false (by decide) (by tauto)⟩
  · exact ⟨iff_of_false (by decide) hz, iff_of_false (by decide) hn, by decide, iff_of_false (by decide) (by tauto)⟩

/-- Settles O14: a positive overflow folds below zero, a negative one to zero or above except for MIN + MIN. -/
theorem addFlagLaws : Obligations.AddFlagLaws := by
  unfold Obligations.AddFlagLaws
  intro l r
  have hl := (inInt32_iff _).mp (inInt32_toInt l)
  have hr := (inInt32_iff _).mp (inInt32_toInt r)
  have hres := addResultIsExactOrFolded l r
  dsimp only [InInt32, intMin, intMax] at hres ⊢
  rw [addFlags_eq_flagsByTriggers]
  obtain ⟨hz, hn, hc, hv⟩ := flagsByTriggers_laws (res := addResult .literal l r)
    (pos := l.toInt > 0 ∧ r.toInt > 0 ∧ (addResult .literal l r).toInt < 0)
    (neg := l.toInt < 0 ∧ r.toInt < 0 ∧ (addResult .literal l r).toInt ≥ 0) (fun h => h.2.2) (fun h => h.2.2)
  refine ⟨hz, hn, hc, hv.trans ?_⟩
  rw [hres]
  split_ifs <;> omega

/-- Settles O17: a positive overflow folds below zero, a negative one above it; the triggers miss the left operand
zero. -/
theorem subFlagLaws : Obligations.SubFlagLaws := by
  unfold Obligations.SubFlagLaws
  intro l r
  have hl := (inInt32_iff _).mp (inInt32_toInt l)
  have hr := (inInt32_iff _).mp (inInt32_toInt r)
  have hres := subResultIsExactOrFolded l r
  dsimp only [InInt32, intMin, intMax] at hres ⊢
  rw [subFlags_eq_flagsByTriggers]
  obtain ⟨hz, hn, hc, hv⟩ := flagsByTriggers_laws (res := subResult .literal l r)
    (pos := l.toInt > 0 ∧ r.toInt < 0 ∧ (subResult .literal l r).toInt < 0)
    (neg := l.toInt < 0 ∧ r.toInt > 0 ∧ (subResult .literal l r).toInt ≥ 0) (fun h => h.2.2) (fun h => h.2.2)
  refine ⟨hz, hn, hc, hv.trans ?_, ?_⟩
  · rw [hres]
    split_ifs <;> omega
  · rw [hz, hv, hres]
    split_ifs <;> omega

/-! ### The four unflagged operations -/

/-- A result in int32 is delivered as it is, whatever NARROW is (R120). -/
theorem toInt_deliver {x : Int} (h : InInt32 x) (p : Config.NarrowPolicy) : (deliver p x).toInt = x := by
  rw [deliver, if_pos h, toInt_ofInt_fits h]

/-- The one quotient outside int32 is MIN / -1: every other one is the value of a word. -/
theorem inInt32_tdiv {l r : Word} (h : ¬ (l.toInt = intMin ∧ r.toInt = -1)) : InInt32 (l.toInt.tdiv r.toInt) := by
  have hne : l ≠ BitVec.intMin 32 ∨ r ≠ -1#32 := by
    by_contra hc
    obtain ⟨rfl, rfl⟩ := not_or.mp hc |>.imp not_not.mp not_not.mp
    exact h (by decide)
  rw [← BitVec.toInt_sdiv_of_ne_or_ne l r hne]
  exact inInt32_toInt _

/-- Settles O18: each exact result is in int32. -/
theorem inRangeResultsAreExact : Obligations.InRangeResultsAreExact := by
  unfold Obligations.InRangeResultsAreExact
  intro p l r
  refine ⟨fun h => toInt_deliver h p, fun _ h => toInt_deliver (inInt32_tdiv h) p, fun h => ?_⟩
  have hl := (inInt32_iff _).mp (inInt32_toInt l)
  have hmin : l.toInt ≠ -2147483648 := h
  rw [negResult, show (0 : Word).toInt = 0 from rfl, add_zero]
  exact toInt_deliver ((inInt32_iff _).mpr (by omega)) p

/-! ### Two's complement -/

/-- Multiples of 2^32 do not show in a word. -/
theorem ofInt_add_mul (x k : Int) : Word.ofInt (x + 4294967296 * k) = Word.ofInt x := by
  have h : BitVec.ofInt 32 4294967296 = 0#32 := by decide
  rw [Word.ofInt, BitVec.ofInt_add, BitVec.ofInt_mul, h, BitVec.zero_mul, BitVec.add_zero]

theorem deliver_wrap32 (x : Int) : deliver .wrap32 x = Word.ofInt x := by
  have hwrap : wrap32 x = x + 4294967296 * -((x + 2147483648) / 4294967296) := by
    unfold wrap32
    omega
  rw [deliver, narrow, hwrap, ofInt_add_mul, ite_self]

/-- Folding by 2^32 on either side is wrapping around. -/
theorem foldResult_wrap {x : Int} (hx : x < 4294967296) : foldResult x (x + 4294967296) = Word.ofInt x := by
  unfold foldResult
  split_ifs with hmax
  · have hlow : intMin + low31 x = x + 4294967296 * -1 := by
      dsimp only [low31, intMin, intMax] at hmax ⊢
      omega
    rw [hlow, ofInt_add_mul]
  · exact ofInt_add_mul x 1
  · rfl

/-- Settles O19: each operation is the exact one on the words' values, less a multiple of 2^32. -/
theorem wrapInstancesAreTwosComplement : Obligations.WrapInstancesAreTwosComplement := by
  unfold Obligations.WrapInstancesAreTwosComplement
  intro l r
  have hl := (inInt32_iff _).mp (inInt32_toInt l)
  have hr := (inInt32_iff _).mp (inInt32_toInt r)
  refine ⟨?add, ?sub, ?mul, fun _ => ?div, ?neg⟩
  case add =>
    rw [addResult_eq_foldResult, foldAddNeg, foldResult_wrap (by omega), Word.ofInt, BitVec.ofInt_add,
      BitVec.ofInt_toInt, BitVec.ofInt_toInt]
  case sub =>
    rw [subResult_eq_foldResult, foldSubNeg, foldResult_wrap (by omega), Word.ofInt, Int.sub_eq_add_neg, BitVec.ofInt_add,
      BitVec.ofInt_neg, BitVec.ofInt_toInt, BitVec.ofInt_toInt, BitVec.sub_eq_add_neg]
  case mul =>
    rw [mulResult, deliver_wrap32, Word.ofInt, BitVec.ofInt_mul, BitVec.ofInt_toInt, BitVec.ofInt_toInt]
  case div =>
    rw [divResult, deliver_wrap32]
    apply BitVec.eq_of_toInt_eq
    rw [BitVec.toInt_ofInt, BitVec.toInt_sdiv]
  case neg =>
    rw [negResult, show (0 : Word).toInt = 0 from rfl, add_zero, deliver_wrap32, Word.ofInt, BitVec.ofInt_neg,
      BitVec.ofInt_toInt]

end Sys2Proof.Machine
end

/-!
What each instruction does where it completes (42_math.md, 43_data.md, 44_stack.md, 45_control.md): its effect and its
frame. The instructions of a family share an operation, whose effect is stated once for every operand that resolves.
-/
section
namespace Sys2Proof.Machine

/-! ### Math and LD on an operand that resolves -/

section
variable {o : Operand} {s u : State} {v : Word}

theorem addWith_effect (h : resolve o s = .ok (v, u)) : ∃ t, finish (addWith o s) = .next t ∧
    t.visible = State.visible { u with
      ac := addResult u.cfg.foldPolicy u.ac v
      ps := psOf (addFlags u.ac v (addResult u.cfg.foldPolicy u.ac v)) } :=
  ⟨_, finish_next.mpr (addWith_ok.mpr ⟨v, u, h, rfl⟩), rfl⟩

theorem subWith_effect (h : resolve o s = .ok (v, u)) : ∃ t, finish (subWith o s) = .next t ∧
    t.visible = State.visible { u with
      ac := subResult u.cfg.foldPolicy u.ac v
      ps := psOf (subFlags u.ac v (subResult u.cfg.foldPolicy u.ac v)) } :=
  ⟨_, finish_next.mpr (subWith_ok.mpr ⟨v, u, h, rfl⟩), rfl⟩

theorem mulWith_effect (h : resolve o s = .ok (v, u)) : ∃ t, finish (mulWith o s) = .next t ∧
    t.visible = State.visible { u with ac := mulResult u.cfg.narrowPolicy u.ac v } :=
  ⟨_, finish_next.mpr (mulWith_ok.mpr ⟨v, u, h, rfl⟩), rfl⟩

theorem divWith_effect (h : resolve o s = .ok (v, u)) (hv : v ≠ 0) : ∃ t, finish (divWith o s) = .next t ∧
    t.visible = State.visible { u with ac := divResult u.cfg.narrowPolicy u.ac v } :=
  ⟨_, finish_next.mpr (divWith_ok.mpr ⟨v, u, h, hv, rfl⟩), rfl⟩

theorem cmpWith_effect (h : resolve o s = .ok (v, u)) : ∃ t, finish (cmpWith o s) = .next t ∧
    t.visible = State.visible { u with
      ps := psOf (subFlags u.ac v (subResult u.cfg.foldPolicy u.ac v)) } :=
  ⟨_, finish_next.mpr (cmpWith_ok.mpr ⟨v, u, h, rfl⟩), rfl⟩

theorem loadWith_effect (h : resolve o s = .ok (v, u)) : ∃ t, finish (loadWith o s) = .next t ∧
    t.visible = State.visible { u with ac := v } :=
  ⟨_, finish_next.mpr (loadWith_ok.mpr ⟨v, u, h, rfl⟩), rfl⟩

end

/-- Settles O20: the three operand forms resolve. -/
theorem addEffect : Obligations.AddEffect := by
  unfold Obligations.AddEffect
  exact fun s => ⟨fun n hn => addWith_effect (resolve_abs_in hn), fun k _ => addWith_effect (resolve_imm k s),
    fun x a hx ha => addWith_effect (resolve_var_in hx ha)⟩

/-- Settles O21: the three operand forms resolve. -/
theorem subEffect : Obligations.SubEffect := by
  unfold Obligations.SubEffect
  exact fun s => ⟨fun n hn => subWith_effect (resolve_abs_in hn), fun k _ => subWith_effect (resolve_imm k s),
    fun x a hx ha => subWith_effect (resolve_var_in hx ha)⟩

/-- Settles O22: the three operand forms resolve. -/
theorem mulEffect : Obligations.MulEffect := by
  unfold Obligations.MulEffect
  exact fun s => ⟨fun n hn => mulWith_effect (resolve_abs_in hn), fun k _ => mulWith_effect (resolve_imm k s),
    fun x a hx ha => mulWith_effect (resolve_var_in hx ha)⟩

/-- The word of a non-zero int32 is not zero. -/
theorem ofInt_ne_zero {k : Int} (hk : InInt32 k) (h0 : k ≠ 0) : Word.ofInt k ≠ 0 := by
  intro h
  have hk' := toInt_ofInt_fits hk
  rw [h] at hk'
  exact h0 hk'.symm

/-- Settles O23: the three operand forms resolve, the immediate to a word that is not zero. -/
theorem divEffect : Obligations.DivEffect := by
  unfold Obligations.DivEffect
  exact fun s => ⟨fun n hn h0 => divWith_effect (resolve_abs_in hn) h0,
    fun k hk h0 => divWith_effect (resolve_imm k s) (ofInt_ne_zero hk h0),
    fun x a hx ha h0 => divWith_effect (resolve_var_in hx ha) h0⟩

/-- Settles O24: the three operand forms resolve. -/
theorem cmpEffect : Obligations.CmpEffect := by
  unfold Obligations.CmpEffect
  exact fun s => ⟨fun n hn => cmpWith_effect (resolve_abs_in hn), fun k _ => cmpWith_effect (resolve_imm k s),
    fun x a hx ha => cmpWith_effect (resolve_var_in hx ha)⟩

/-- Settles O25: INV answers on every state, and PS becomes the byte Z. -/
theorem invEffect : Obligations.InvEffect := by
  unfold Obligations.InvEffect
  intro s
  refine ⟨_, exec_inv s, ?_⟩
  rw [psOf_flagZ]
  rfl

/-! ### Data -/

/-- Settles O6: a character resolves to its code, and a word is the word of its value. -/
theorem characterArgumentIsItsCode : Obligations.CharacterArgumentIsItsCode := by
  unfold Obligations.CharacterArgumentIsItsCode
  refine ⟨fun c => rfl, rfl, fun c s => ⟨rfl, ?_, fun ν m => rfl⟩⟩
  rw [resolve_imm, Word.ofInt, BitVec.ofInt_toInt]
  rfl

/-- Settles O26: the three operand forms resolve. -/
theorem ldEffect : Obligations.LdEffect := by
  unfold Obligations.LdEffect
  exact fun s => ⟨fun n hn => loadWith_effect (resolve_abs_in hn), fun k _ => loadWith_effect (resolve_imm k s),
    fun x a hx ha => loadWith_effect (resolve_var_in hx ha)⟩

/-- Settles O27: the cursor is a cell. -/
theorem ldInputEffect : Obligations.LdInputEffect := by
  unfold Obligations.LdInputEffect
  exact fun s hc => ⟨_, exec_ldInput_next.mpr ⟨hc, rfl⟩, rfl⟩

/-- A store whose target is a cell writes that cell (R183). -/
theorem storeTo_effect {g : StoreTarget} {s : State} {a : Nat} (hg : targetAddr g s = .ok a) (ha : a < s.cfg.memSize) :
    ∃ t, finish (storeTo g s) = .next t ∧
      t.visible = State.visible { s with ar := Word.ofNat a, mem := t.mem } ∧
      (∀ b, cellValue b t = if b = a then s.ac else cellValue b s) ∧ (∀ b, t.mem.instr b = s.mem.instr b) :=
  ⟨_, finish_next.mpr (storeTo_ok.mpr ⟨a, hg, ha, rfl⟩), rfl,
    fun b => cellValue_setMem (s.setAr (Word.ofNat a)) a b s.ac, fun _ => Memory.instr_setValue _ _ _ _ _⟩

/-- Settles O28: both targets are cells. -/
theorem stEffect : Obligations.StEffect := by
  unfold Obligations.StEffect
  exact fun s => ⟨fun n hn => storeTo_effect (targetAddr_ok.mpr (.inl rfl)) hn,
    fun x a hx ha => storeTo_effect (targetAddr_ok.mpr (.inr ⟨x, rfl, hx⟩)) ha⟩

/-- Settles O29: the buffer has room. -/
theorem stOutputEffect : Obligations.StOutputEffect := by
  unfold Obligations.StOutputEffect
  exact fun s hroom => ⟨_, finish_next.mpr (outAppend_ok.mpr ⟨hroom, rfl⟩), rfl⟩

/-- Settles O30: the pseudocode of the three forms is the raise. -/
theorem misusedDataFormsStop : Obligations.MisusedDataFormsStop := by
  unfold Obligations.MisusedDataFormsStop
  exact fun s => ⟨exec_ldOutput s, exec_stInput s, fun k => exec_stImm k s⟩

/-! ### Stack -/

/-- Settles O31: the decremented SP is a stack index. -/
theorem pushEffect : Obligations.PushEffect := by
  unfold Obligations.PushEffect
  intro s h1 h2
  refine ⟨_, finish_next.mpr (doPush_ok.mpr ⟨inStack_pred h1 h2, rfl⟩), rfl, ?sp, ?slots⟩
  case sp => exact toInt_pred (lt_of_lt_of_le (by decide) h1)
  case slots => exact fun i => stackSlot_setStack (internalUse .spMove (s.setSp (s.sp - 1))) _ i s.ac

/-- SP as the pop policy moves it from a stack index (R202). -/
theorem poppedSp_toInt {p : Params} {w : Word} (h : inStack p w.toInt = true) :
    (p.popPolicy = .literal → (poppedSp p.popPolicy w).toInt = w.toInt - 1) ∧
    (p.popPolicy = .corrected → poppedSp p.popPolicy w = w + 1) := by
  refine ⟨fun hp => ?_, fun hp => ?_⟩
  · rw [hp]
    exact toInt_pred_of_inStack h
  · rw [hp]
    rfl

/-- Settles O32: SP is a stack index. -/
theorem popEffect : Obligations.PopEffect := by
  unfold Obligations.PopEffect
  intro s h0 h1
  have hs : inStack s.cfg s.sp.toInt = true := (inStack_iff _ _).mpr ⟨h0, h1⟩
  exact ⟨_, finish_next.mpr (doPop_ok.mpr ⟨hs, rfl⟩), rfl, poppedSp_toInt hs⟩

/-! ### Control -/

theorem labelAddrOf_eq_some {f l : Nat} {s : State} {a : Word} : labelAddrOf f l s = some a ↔
    ∃ labels, lookupKey f s.tables.funcs = some labels ∧ lookupKey l labels = some a := by
  unfold labelAddrOf
  cases lookupKey f s.tables.funcs <;> simp

/-- Settles O33: in a list without a key twice a lookup finds what stands there. -/
theorem tableLookup : Obligations.TableLookup := by
  unfold Obligations.TableLookup
  intro s hfuncs hlabels
  have hlabel : ∀ f l a, labelAddrOf f l s = some a ↔ ∃ labels, (f, labels) ∈ s.tables.funcs ∧ (l, a) ∈ labels := by
    intro f l a
    simp only [labelAddrOf_eq_some, lookupKey_iff_mem hfuncs]
    exact exists_congr fun labels => and_congr_right fun hf => lookupKey_iff_mem (hlabels _ hf)
  exact ⟨hlabel, fun f a => hlabel f selfLabel a, fun v => rfl⟩

/-- Settles O34: the label is looked up and found. -/
theorem jmpEffect : Obligations.JmpEffect := by
  unfold Obligations.JmpEffect
  exact fun s l f rest a hc hl => ⟨_, finish_next.mpr (jumpTo_ok.mpr ⟨f, rest, a, hc, hl, rfl⟩), rfl⟩

theorem jumpIf_notTaken {b : Bool} (hb : b = false) (l : Nat) (s : State) :
    ∃ t, finish (jumpIf b l s) = .next t ∧ t.visible = s.visible :=
  ⟨s, finish_next.mpr (jumpIf_ok.mpr (.inl ⟨hb, rfl⟩)), rfl⟩

theorem jumpIf_taken {b : Bool} (hb : b = true) {f l : Nat} {rest : List Nat} {a : Word} {s : State}
    (hc : s.ctx = f :: rest) (hl : labelAddrOf f l s = some a) :
    ∃ t, finish (jumpIf b l s) = .next t ∧ t.visible = State.visible { s with ip := a } :=
  ⟨_, finish_next.mpr (jumpIf_ok.mpr (.inr ⟨hb, jumpTo_ok.mpr ⟨f, rest, a, hc, hl, rfl⟩⟩)), rfl⟩

/-- Settles O35: each test is the condition named. -/
theorem conditionalJumpEffect : Obligations.ConditionalJumpEffect := by
  unfold Obligations.ConditionalJumpEffect
  intro s l
  refine ⟨fun h => jumpIf_notTaken ((takenJz_eq _).trans h) l s, fun h => jumpIf_notTaken ((takenJs_eq _).trans h) l s,
    fun h => jumpIf_notTaken ((takenJnz_eq _).trans (by simpa using h)) l s, fun f rest a hc hl => ⟨?jz, ?js, ?jnz⟩,
    by decide⟩
  case jz => exact fun h => jumpIf_taken ((takenJz_eq _).trans h) hc hl
  case js => exact fun h => jumpIf_taken ((takenJs_eq _).trans h) hc hl
  case jnz => exact fun h => jumpIf_taken ((takenJnz_eq _).trans (decide_eq_true h)) hc hl

/-- Settles O36: the decremented SP is a stack index and CTX has room. -/
theorem callEffect : Obligations.CallEffect := by
  unfold Obligations.CallEffect
  intro s f e he h1 h2 hroom
  refine ⟨_, finish_next.mpr (callFunc_next.mpr ⟨e, he, inStack_pred h1 h2, (ctxHasRoom_iff s).mpr hroom, rfl⟩), rfl,
    ?sp, ?slots⟩
  case sp => exact toInt_pred (lt_of_lt_of_le (by decide) h1)
  case slots => exact fun i => stackSlot_setStack s _ i s.ip

/-- Settles O37: CTX has a top and SP is a stack index. -/
theorem retEffect : Obligations.RetEffect := by
  unfold Obligations.RetEffect
  intro s f rest hc h0 h1
  have hs : inStack s.cfg s.sp.toInt = true := (inStack_iff _ _).mpr ⟨h0, h1⟩
  exact ⟨_, finish_next.mpr (returnFunc_next.mpr ⟨f, rest, hc, hs, rfl⟩), rfl, poppedSp_toInt hs⟩

/-- Settles O38: RUN is no longer Running. -/
theorem hltEffect : Obligations.HltEffect := by
  unfold Obligations.HltEffect
  exact fun s => ⟨s.setRun .halted, exec_hlt s, rfl, step_ended nofun⟩

/-! ### Faults -/

/-- An operand that does not resolve stops the six operations over it, with its own fault (R252). -/
theorem operand_fault {o : Operand} {s : State} {k : Fault} (h : resolve o s = .error k) :
    finish (addWith o s) = .fault k ∧ finish (subWith o s) = .fault k ∧ finish (mulWith o s) = .fault k ∧
    finish (divWith o s) = .fault k ∧ finish (cmpWith o s) = .fault k ∧ finish (loadWith o s) = .fault k := by
  simp only [finish_fault, addWith_error, subWith_error, mulWith_error, divWith_error, cmpWith_error, loadWith_error, h,
    true_or, and_self]

/-- DIV faults on an operand that resolves to zero (R247). -/
theorem divWith_fault {o : Operand} {s u : State} {v : Word} (h : resolve o s = .ok (v, u)) (hv : v = 0) :
    finish (divWith o s) = .fault .divisionByZero :=
  finish_fault.mpr (divWith_error.mpr (.inr ⟨rfl, u, hv ▸ h⟩))

/-- Settles O39: the fault of the operand, of its value, or of the target. -/
theorem operandStoreAndBufferFaults : Obligations.OperandStoreAndBufferFaults := by
  unfold Obligations.OperandStoreAndBufferFaults
  intro s
  simp only [List.forall_mem_cons, List.not_mem_nil, false_implies, implies_true, and_true]
  refine ⟨fun n hn => operand_fault (resolve_abs_out hn), fun x hx => operand_fault (resolve_var_undeclared hx),
    fun x a hx ha => operand_fault (resolve_var_out hx ha), fun n hn h0 => divWith_fault (resolve_abs_in hn) h0,
    divWith_fault (resolve_imm 0 s) rfl, fun x a hx ha h0 => divWith_fault (resolve_var_in hx ha) h0, ?stAbs,
    ?stUndeclared, ?stVar, exec_ldInput_out, fun hfull => finish_fault.mpr (outAppend_full hfull s.ac)⟩
  case stAbs => exact fun n hn => finish_fault.mpr (storeTo_out (targetAddr_ok.mpr (.inl rfl)) hn)
  case stUndeclared =>
    intro x hx
    refine finish_fault.mpr (storeTo_undeclared ?_)
    rw [targetAddr_var, hx]
    rfl
  case stVar => exact fun x a hx ha => finish_fault.mpr (storeTo_out (targetAddr_ok.mpr (.inr ⟨x, rfl, hx⟩)) ha)

/-- What stops JMP stops the conditional jumps where they are taken, with the same fault. -/
theorem jump_faults {l : Nat} {s : State} {k : Fault} (h : jumpTo l s = .error k) :
    exec (.jmp l) s = .fault k ∧ (s.ps.getLsbD 1 = true → exec (.jz l) s = .fault k) ∧
    (s.ps.getLsbD 0 = true → exec (.js l) s = .fault k) ∧ (s.ps ≠ 2 → exec (.jnz l) s = .fault k) := by
  have hif : ∀ {b}, b = true → finish (jumpIf b l s) = .fault k := by
    rintro _ rfl
    exact finish_fault.mpr h
  exact ⟨finish_fault.mpr h, fun hz => hif ((takenJz_eq _).trans hz), fun hn => hif ((takenJs_eq _).trans hn),
    fun hnz => hif ((takenJnz_eq _).trans (decide_eq_true hnz))⟩

/-- Settles O40: the stack index, CTX, the label and the callee, in the order of R252. -/
theorem stackAndControlFaults : Obligations.StackAndControlFaults := by
  unfold Obligations.StackAndControlFaults
  intro s hp
  refine ⟨fun h => finish_fault.mpr (doPush_out hp h), fun h => finish_fault.mpr (doPop_out h), ?full, ?empty,
    fun f rest l hc hl => jump_faults (jumpTo_undefined hc hl), fun f he => finish_fault.mpr (callFunc_undeclared he),
    ?callIndex, ?retIndex⟩
  case full =>
    intro f d hd hlen hne
    obtain ⟨e, he⟩ := Option.ne_none_iff_exists'.mp hne
    refine finish_fault.mpr (callFunc_out he fun h => ?_)
    have hroom := (ctxHasRoom_iff s).mp h.2 d hd
    omega
  case empty =>
    exact fun hc => ⟨finish_fault.mpr (returnFunc_underflow hc), fun l => jump_faults (jumpTo_underflow hc)⟩
  case callIndex =>
    intro f e he hsp
    refine finish_fault.mpr (callFunc_out he fun h => ?_)
    have hindex := (inStack_pred_iff hp s.sp).mp h.1
    omega
  case retIndex =>
    intro f rest hc hsp
    refine finish_fault.mpr (returnFunc_out hc fun h => ?_)
    have hindex := (inStack_iff _ _).mp h
    omega

/-! ### Reset -/

/-- Settles O41: the reset state and the parameters of this hardware, component by component. -/
theorem resetState : Obligations.ResetState := by
  unfold Obligations.ResetState
  exact ⟨rfl, fun p => ⟨rfl, rfl, rfl, rfl, rfl, rfl, rfl, fun a => ⟨rfl, rfl, rfl⟩, rfl, rfl, rfl, rfl, rfl, rfl, rfl, rfl,
    rfl, rfl⟩⟩

end Sys2Proof.Machine
end

/-!
Sequences over the stack (44_stack.md, 45_control.md R218, R219), composed from the effects of the single instructions.
-/
section
namespace Sys2Proof.Machine

/-- The entry of a function depends on the tables only. -/
theorem entryOf_congr {s t : State} (h : t.tables = s.tables) (f : Nat) : entryOf f t = entryOf f s := by
  unfold entryOf labelAddrOf
  rw [h]

/-- SP after a decrement and the pop policy's move (R200, R202). -/
theorem sp_push_pop {s t u : State} (ht : t.sp = s.sp - 1) (htInt : t.sp.toInt = s.sp.toInt - 1)
    (hcfg : t.cfg = s.cfg) (hlit : t.cfg.popPolicy = .literal → u.sp.toInt = t.sp.toInt - 1)
    (hcor : t.cfg.popPolicy = .corrected → u.sp = t.sp + 1) :
    (s.cfg.popPolicy = .literal → u.sp.toInt = s.sp.toInt - 2) ∧ (s.cfg.popPolicy = .corrected → u.sp = s.sp) := by
  rw [hcfg] at hlit hcor
  constructor
  · intro hp
    rw [hlit hp, htInt]
    omega
  · intro hp
    rw [hcor hp, ht, BitVec.sub_add_cancel]

/-- Settles O53: POP reads the slot that PUSH wrote. -/
theorem pushThenPopRestoresAc : Obligations.PushThenPopRestoresAc := by
  unfold Obligations.PushThenPopRestoresAc
  intro s x h1 h2
  obtain ⟨t, hpush, hvis, hsp, hslot⟩ := pushEffect s h1 h2
  have hcfg : t.cfg = s.cfg := (congrArg State.cfg hvis :)
  obtain ⟨u, hpop, huvis, hlit, hcor⟩ := popEffect { t with ac := x } (by show 0 ≤ t.sp.toInt; omega)
    (by show t.sp.toInt < t.cfg.stackDepth; rw [hcfg]; omega)
  have hac : u.ac = stackSlot t.sp.toInt.toNat t := (congrArg State.ac huvis :)
  exact ⟨t, u, hpush, hpop, by rw [hac, hslot, if_pos rfl],
    sp_push_pop (congrArg State.sp hvis :) hsp hcfg hlit hcor⟩

/-- Settles O54: RET reads the slot that CALL wrote, and takes the callee off CTX. -/
theorem callThenRetReturns : Obligations.CallThenRetReturns := by
  unfold Obligations.CallThenRetReturns
  intro s f e x he h1 h2 hroom
  obtain ⟨t, hcall, hvis, hsp, hslot⟩ := callEffect s f e he h1 h2 hroom
  have hcfg : t.cfg = s.cfg := (congrArg State.cfg hvis :)
  obtain ⟨u, hret, huvis, hlit, hcor⟩ := retEffect { t with ac := x } f s.ctx (congrArg State.ctx hvis :)
    (by show 0 ≤ t.sp.toInt; omega) (by show t.sp.toInt < t.cfg.stackDepth; rw [hcfg]; omega)
  have hip : u.ip = stackSlot t.sp.toInt.toNat t := (congrArg State.ip huvis :)
  exact ⟨t, u, hcall, (congrArg State.ac hvis :), (congrArg State.ip hvis :), hret, (congrArg State.ac huvis :),
    by rw [hip, hslot, if_pos rfl], (congrArg State.ctx huvis :), sp_push_pop (congrArg State.sp hvis :) hsp hcfg hlit hcor⟩

/-- What two nested calls leave: the return address of the inner one on top of that of the outer one. -/
theorem call_call {s : State} {f g : Nat} {e e' : Word} (he : entryOf f s = some e) (he' : entryOf g s = some e')
    (h2 : 2 ≤ s.sp.toInt) (hdepth : s.sp.toInt ≤ s.cfg.stackDepth)
    (hroom : ∀ n, s.cfg.ctxDepth = some n → s.ctx.length + 1 < n) :
    ∃ a b, exec (.call f) s = .next a ∧ exec (.call g) a = .next b ∧ b.cfg = s.cfg ∧ b.ac = s.ac ∧
      b.ctx = g :: f :: s.ctx ∧ a.sp = s.sp - 1 ∧ b.sp = a.sp - 1 ∧ a.sp.toInt = s.sp.toInt - 1 ∧
      b.sp.toInt = s.sp.toInt - 2 ∧
      ∀ i : Nat, stackSlot i b = if (i : Int) = s.sp.toInt - 2 then a.ip
        else if (i : Int) = s.sp.toInt - 1 then s.ip else stackSlot i s := by
  obtain ⟨a, hcall, hvis, hsp, hslot⟩ := callEffect s f e he (by omega) hdepth fun n hn => by
    have := hroom n hn
    omega
  have hcfg : a.cfg = s.cfg := (congrArg State.cfg hvis :)
  have hctx : a.ctx = f :: s.ctx := (congrArg State.ctx hvis :)
  have hentry : entryOf g a = some e' := (entryOf_congr (congrArg State.tables hvis :) g).trans he'
  obtain ⟨b, hcall', hvisB, hsp', hslot'⟩ := callEffect a g e' hentry (by omega) (by rw [hcfg]; omega) fun n hn => by
    rw [hcfg] at hn
    rw [hctx]
    exact hroom n hn
  have hctx' : b.ctx = g :: a.ctx := (congrArg State.ctx hvisB :)
  refine ⟨a, b, hcall, hcall', (congrArg State.cfg hvisB).trans hcfg,
    (congrArg State.ac hvisB).trans (congrArg State.ac hvis :), by rw [hctx', hctx], (congrArg State.sp hvis :),
    (congrArg State.sp hvisB :), hsp, by omega, fun i => ?_⟩
  rw [hslot', hslot]
  have hi' : i = b.sp.toInt.toNat ↔ (i : Int) = s.sp.toInt - 2 := by omega
  have hi : i = a.sp.toInt.toNat ↔ (i : Int) = s.sp.toInt - 1 := by omega
  simp only [hi, hi']

/-- Settles O55: the inner RET reads the inner return address in both modes; the outer one starts from the slot above
it in corrected mode and from the slot below it in literal mode. -/
theorem nestedCallsByPopPolicy : Obligations.NestedCallsByPopPolicy := by
  unfold Obligations.NestedCallsByPopPolicy
  intro s f g e e' he he' h3 hdepth hroom
  obtain ⟨a, b, hcall, hcall', hcfg, hac, hctx, haSp, hbSp, ha, hb, hslot⟩ := call_call he he' (by omega) hdepth hroom
  obtain ⟨c, hret, hcvis, hclit, hccor⟩ := retEffect b g (f :: s.ctx) hctx (by omega) (by rw [hcfg]; omega)
  rw [hcfg] at hclit hccor
  have hccfg : c.cfg = s.cfg := (congrArg State.cfg hcvis :).trans hcfg
  have hcip : c.ip = stackSlot b.sp.toInt.toNat b := (congrArg State.ip hcvis :)
  have hcac : c.ac = s.ac := (congrArg State.ac hcvis :).trans hac
  have hcslot : ∀ i, stackSlot i c = stackSlot i b :=
    stackSlot_congr (congrArg State.stack hcvis :) (congrArg State.cfg hcvis :)
  have hcSp : 0 ≤ c.sp.toInt ∧ c.sp.toInt < c.cfg.stackDepth := by
    rw [hccfg]
    cases hp : s.cfg.popPolicy with
    | literal =>
      have := hclit hp
      omega
    | corrected =>
      rw [hccor hp, hbSp, BitVec.sub_add_cancel]
      omega
  obtain ⟨d, hret', hdvis, hdlit, hdcor⟩ := retEffect c f s.ctx (congrArg State.ctx hcvis :) hcSp.1 hcSp.2
  rw [hccfg] at hdlit hdcor
  have hdip : d.ip = stackSlot c.sp.toInt.toNat c := (congrArg State.ip hdvis :)
  refine ⟨a, b, c, d, hcall, hcall', hret, hret', ?inner, (congrArg State.ac hdvis :).trans hcac,
    (congrArg State.ctx hdvis :), ?literalMode, ?correctedMode⟩
  case inner => rw [hcip, hslot, if_pos (by omega)]
  case literalMode =>
    intro hp
    have hc := hclit hp
    have hd := hdlit hp
    refine ⟨?_, by omega⟩
    rw [hdip, hcslot, hslot, if_neg (by omega), if_neg (by omega), show c.sp.toInt = s.sp.toInt - 3 by omega]
  case correctedMode =>
    intro hp
    have hc : c.sp = a.sp := by rw [hccor hp, hbSp, BitVec.sub_add_cancel]
    refine ⟨?_, by rw [hdcor hp, hc, haSp, BitVec.sub_add_cancel]⟩
    rw [hdip, hcslot, hslot, hc, if_neg (by omega), if_pos (by omega)]

end Sys2Proof.Machine
end

/-!
The run loop (41_fetch_dispatch_hlt.md R144 to R147; 00_scope.md R9, R12): what a run that faults, a run that halts and
the run of HLT alone come to.
-/
section
namespace Sys2Proof.Machine

/-! ### A run that faults -/

/-- A step that faults ends the run at once, and there it stays. -/
theorem runFor_fault {s : State} {k : Fault} (hrun : s.run = .running) (h : step s = .fault k) (n : Nat) :
    runFor (n + 1) s = s.setRun (.faulted k) := by
  rw [runFor_succ hrun, advance_fault h]
  exact runFor_ended (by simp) n

/-- Below the ceiling the loop answers (c) for it. -/
theorem runLoop_fault {s : State} {k : Fault} (hrun : s.run = .running) (h : step s = .fault k)
    (hmax : s.cfg.maxSteps ≠ some 0) (n : Nat) : runLoop (n + 1) s = .faulted k := by
  unfold runLoop
  cases hm : s.cfg.maxSteps with
  | none => simp only [runFor_fault hrun h]; rfl
  | some m =>
    cases m with
    | zero => exact absurd hm hmax
    | succ m =>
      simp only [runFor_fault hrun h]
      split <;> rfl

/-- A state shows (c) only where RUN is Faulted(K). -/
theorem outcomeOf_eq_faulted {g : State → RunOutcome} {s : State} {k : Fault} (hg : ∀ t, g t ≠ .faulted k)
    (h : outcomeOf g s = .faulted k) : s.run = .faulted k := by
  unfold outcomeOf at h
  cases hr : s.run with
  | running => rw [hr] at h; exact absurd h (hg s)
  | halted => rw [hr] at h; cases h
  | faulted j => rw [hr] at h; cases h; rfl

/-- The loop answers (c) only where the run, followed as far or less far, has ended so. -/
theorem runLoop_eq_faulted {n : Nat} {s : State} {k : Fault} (h : runLoop n s = .faulted k) :
    ∃ j, j ≤ n ∧ (runFor j s).run = .faulted k := by
  unfold runLoop at h
  cases hm : s.cfg.maxSteps with
  | none =>
    simp only [hm] at h
    exact ⟨n, le_rfl, outcomeOf_eq_faulted (g := .unfinished) (fun _ => nofun) h⟩
  | some m =>
    simp only [hm] at h
    split at h
    · rename_i hle
      exact ⟨m, hle, outcomeOf_eq_faulted (g := .ceiling) (fun _ => nofun) h⟩
    · exact ⟨n, le_rfl, outcomeOf_eq_faulted (g := .unfinished) (fun _ => nofun) h⟩

/-- One turn of the loop reaches Faulted(K) by a step that faults with K only. -/
theorem step_of_advance_faulted {s : State} {k : Fault} (hrun : s.run = .running)
    (h : (advance s).run = .faulted k) : step s = .fault k := by
  cases hs : step s with
  | next t =>
    rw [advance_next hs] at h
    obtain ⟨i, hexec, -⟩ := step_frame hs
    obtain ht | ht := exec_run (s := fetched i s) hrun hexec
    · rw [ht] at h; cases h
    · rw [ht] at h; cases h
  | fault j =>
    rw [advance_fault hs] at h
    cases h
    rfl
  | refused q =>
    rw [advance, hs] at h
    rw [hrun] at h
    cases h

/-- A run that has ended Faulted(K) took some steps to a running state whose step faults with K. -/
theorem exists_faulting_step {n : Nat} {s : State} {k : Fault} (hrun : s.run = .running)
    (h : (runFor n s).run = .faulted k) :
    ∃ m, m < n ∧ (runFor m s).run = .running ∧ step (runFor m s) = .fault k := by
  induction n generalizing s with
  | zero =>
    rw [runFor_zero, hrun] at h
    cases h
  | succ n ih =>
    rw [runFor_succ hrun] at h
    by_cases hadv : (advance s).run = .running
    · obtain ⟨m, hm, hmrun, hmstep⟩ := ih hadv h
      exact ⟨m + 1, Nat.succ_lt_succ hm, by rw [runFor_succ hrun]; exact hmrun, by rw [runFor_succ hrun]; exact hmstep⟩
    · rw [runFor_ended hadv] at h
      exact ⟨0, Nat.succ_pos n, hrun, step_of_advance_faulted hrun h⟩

/-- Settles O58: a fault ends the run, and a run that ended so had it. -/
theorem faultedStepEndsTheRun : Obligations.FaultedStepEndsTheRun := by
  unfold Obligations.FaultedStepEndsTheRun
  constructor
  · intro s k hrun h
    have hadv := advance_fault h
    have hended : (advance s).run ≠ .running := by rw [hadv]; exact nofun
    exact ⟨by rw [hadv]; rfl, step_ended hended, runFor_ended hended, fun hmax n => runLoop_fault hrun h hmax n⟩
  · intro s k n hrun h
    obtain ⟨j, hj, hfaulted⟩ := runLoop_eq_faulted h
    obtain ⟨m, hm, hstep⟩ := exists_faulting_step hrun hfaulted
    exact ⟨m, hm.trans_le hj, hstep⟩

/-! ### A run that halts -/

/-- The text of the codes, character by character (R145). -/
theorem decodeText_eq_some {ws : List Word} {cs : List Char} :
    decodeText ws = some cs ↔ List.Forall₂ (fun w c => Config.dec w = some c) ws cs := by
  induction ws generalizing cs with
  | nil => simp [decodeText, eq_comm]
  | cons w rest ih =>
    rw [List.forall₂_cons_left_iff, decodeText]
    cases hw : Config.dec w with
    | none => simp
    | some c =>
      cases hr : decodeText rest with
      | none =>
        simp only [← ih, hr]
        simp
      | some ds =>
        simp only [← ih, hr]
        simp [eq_comm]

theorem decodeText_eq_none {ws : List Word} : decodeText ws = none ↔ ∃ w ∈ ws, Config.dec w = none := by
  induction ws with
  | nil => simp [decodeText]
  | cons w rest ih =>
    rw [List.exists_mem_cons_iff, ← ih, decodeText]
    cases Config.dec w with
    | none => simp
    | some c => cases decodeText rest <;> simp

theorem result_of_output {s : State} (h : s.out ≠ []) : result s = decodeText s.out :=
  if_pos (List.length_pos_iff.mpr h)

theorem result_of_no_output {s : State} (h : s.out = []) : result s = some (decimal s.ac.toInt) := by
  have hcur : ¬ s.outCur > 0 := by rw [State.outCur, h]; exact Nat.lt_irrefl 0
  exact if_neg hcur

/-- Settles O59: the loop stops at the halted state, whose output is decoded code by code. -/
theorem haltedRunGivesItsResult : Obligations.HaltedRunGivesItsResult := by
  unfold Obligations.HaltedRunGivesItsResult
  refine ⟨fun s n h => ?_, fun s h => ⟨fun cs => ?_, ?_⟩, fun s h => result_of_no_output h⟩
  · rw [runLoop_ended (by rw [h]; exact nofun) n .unfinished, outcomeOf, h]
  · rw [result_of_output h, decodeText_eq_some]
  · rw [result_of_output h, decodeText_eq_none]

/-! ### HLT alone -/

/-- A run whose first step halts has that state's result, whatever the fuel and the ceiling. -/
theorem runLoop_halt {s t : State} (hrun : s.run = .running) (h : step s = .next t) (ht : t.run = .halted)
    (hmax : s.cfg.maxSteps ≠ some 0) (n : Nat) : runLoop (n + 1) s = .halted (result t) := by
  have hfor : ∀ m, runFor (m + 1) s = t := fun m => by
    rw [runFor_succ hrun, advance_next h, runFor_ended (by rw [ht]; exact nofun)]
  have hout : ∀ g, outcomeOf g t = .halted (result t) := fun g => by rw [outcomeOf, ht]
  unfold runLoop
  cases hm : s.cfg.maxSteps with
  | none => simp only [hfor, hout]
  | some m =>
    cases m with
    | zero => exact absurd hm hmax
    | succ m => simp only [hfor, hout, ite_self]

/-- The binary program whose one word is HLT (T-S8-5). -/
def hltProgram (p : Params) : RunInput where
  code := .binary [0x0000000000]
  funcs := []
  vars := []
  text := none
  params := p

theorem load_hltProgram {p : Params} (hmem : 0 < p.memSize) :
    load (hltProgram p) = .ok (loadedState [.hlt] (hltProgram p)) := by
  have hcode : (hltProgram p).code.instrs = .ok [.hlt] := CodeImage.instrs_binary.mpr (by decide)
  have hchecks : DataChecks (hltProgram p) :=
    { literals := nofun, fits := nofun, text := nofun, image := hmem, imageBelowText := nofun, names := List.nodup_nil }
  exact load_ok_iff.mpr ⟨_, hcode, hchecks, rfl⟩

/-- The first fetch of the program is that of HLT from cell 0, where the machine starts. -/
theorem step_hltProgram {p : Params} (hip : p.entryIp = 0) (hmem : 0 < p.memSize) :
    step (loadedState [.hlt] (hltProgram p)) =
      .next ((fetched .hlt (loadedState [.hlt] (hltProgram p))).setRun .halted) := by
  have hip0 : (loadedState [.hlt] (hltProgram p)).ip.toInt = 0 := congrArg BitVec.toInt hip
  refine (step_eq_exec rfl ?_ ?_).trans (exec_hlt _)
  · rw [hip0]
    exact (inMem_natCast p 0).mpr hmem
  · rw [hip0]
    exact loadedMemory_instr [.hlt] (hltProgram p) 0

/-- Settles O60: the program loads, its one step halts, and AC is 0 with no output. -/
theorem hltProgramReturnsZero : Obligations.HltProgramReturnsZero := by
  unfold Obligations.HltProgramReturnsZero
  intro p n hip hmem hmax
  have hresult : result ((fetched .hlt (loadedState [.hlt] (hltProgram p))).setRun .halted) = some ['0'] :=
    (result_of_no_output rfl).trans (congrArg some (by decide : decimal (0 : Word).toInt = ['0']))
  calc runProgram (n + 1) (hltProgram p)
    _ = runLoop (n + 1) (loadedState [.hlt] (hltProgram p)) := by rw [runProgram, load_hltProgram hmem]
    _ = .halted (some ['0']) := by rw [runLoop_halt rfl (step_hltProgram hip hmem) rfl hmax, hresult]

end Sys2Proof.Machine
end

/-!
Argument strings (30_encoding.md R91, R92, R96): the value of a digit string, the four operand forms one by one and what
is of none of them, the decimal numerals, and the mnemonics by the arguments they take.
-/
section
namespace Sys2Proof.Machine

/-! ### Digit strings -/

theorem digitsValue_nil (a : Nat) : digitsValue a [] = a := rfl

theorem digitsValue_cons (a : Nat) (c : Char) (cs : List Char) :
    digitsValue a (c :: cs) = digitsValue (10 * a + (c.toNat - 48)) cs := by
  delta digitsValue
  rfl

theorem digitsValue_append (a : Nat) (xs ys : List Char) :
    digitsValue a (xs ++ ys) = digitsValue (digitsValue a xs) ys := by
  induction xs generalizing a with
  | nil => rfl
  | cons c cs ih => rw [List.cons_append, digitsValue_cons, digitsValue_cons, ih]

/-- The digits' value is the numeral they write in base ten, after the digits before. -/
theorem digitsValue_eq_ofDigits (a : Nat) (ds : List Char) : digitsValue a ds =
    10 ^ ds.length * a + Nat.ofDigits 10 (ds.map fun c => c.toNat - 48).reverse := by
  induction ds generalizing a with
  | nil => simp [digitsValue_nil]
  | cons c cs ih =>
    rw [digitsValue_cons, ih, List.map_cons, List.reverse_cons, Nat.ofDigits_append, Nat.ofDigits_singleton,
      List.length_reverse, List.length_map, List.length_cons]
    ring

/-- One or more decimal digits. -/
def IsNumeral (s : List Char) : Prop := s ≠ [] ∧ s.all Char.isDigit = true

theorem natLiteral_of_numeral {s : List Char} (h : IsNumeral s) : natLiteral s = some (digitsValue 0 s) := if_pos h

theorem natLiteral_of_not_numeral {s : List Char} (h : ¬ IsNumeral s) : natLiteral s = none := if_neg h

/-- No numeral starts with a character that is no digit. -/
theorem not_isNumeral_cons {c : Char} (hc : c.isDigit = false) (s : List Char) : ¬ IsNumeral (c :: s) := by
  simp [IsNumeral, hc]

/-! ### The operand forms -/

theorem immLiteral_hash {ds : List Char} (h : IsNumeral ds) : immLiteral ('#' :: ds) = some (digitsValue 0 ds : Int) := by
  cases ds with
  | nil => exact absurd rfl h.1
  | cons c cs =>
    have hc : c ≠ '-' := by
      rintro rfl
      exact not_isNumeral_cons rfl cs h
    have hlit := natLiteral_of_numeral h
    unfold immLiteral
    split
    · rename_i heq
      cases heq
      exact absurd rfl hc
    · rename_i heq
      cases heq
      rw [hlit]
      rfl
    · rename_i hne
      exact absurd rfl (hne _)

theorem immLiteral_hash_minus {ds : List Char} (h : IsNumeral ds) :
    immLiteral ('#' :: '-' :: ds) = some (-(digitsValue 0 ds : Int)) := by
  simp only [immLiteral, natLiteral_of_numeral h]
  rfl

theorem immLiteral_eq_none {s : List Char}
    (h : ∀ ds, IsNumeral ds → s ≠ '#' :: ds ∧ s ≠ '#' :: '-' :: ds) : immLiteral s = none := by
  unfold immLiteral
  split
  · rename_i ds
    rw [natLiteral_of_not_numeral fun hds => (h ds hds).2 rfl]
    rfl
  · rename_i ds _
    rw [natLiteral_of_not_numeral fun hds => (h ds hds).1 rfl]
    rfl
  · rfl

theorem charLiteral_eq_none {s : List Char} (h1 : ∀ c, s ≠ [quoteChar, c, quoteChar]) (h2 : s ≠ [quoteChar, quoteChar]) :
    charLiteral s = none := by
  unfold charLiteral
  split
  · rename_i a c b
    exact if_neg fun ⟨ha, hb⟩ => h1 c (by rw [ha, hb])
  · rename_i a b
    exact if_neg fun ⟨ha, hb⟩ => h2 (by rw [ha, hb])
  · rfl

theorem charLiteral_quoted (c : Char) : charLiteral [quoteChar, c, quoteChar] = some (some c) := by
  rw [charLiteral]
  exact if_pos ⟨rfl, rfl⟩

theorem charLiteral_empty : charLiteral [quoteChar, quoteChar] = some none := by
  decide

/-- Form 1 (R91). -/
theorem classifyOperand_numeral {ds : List Char} (h : IsNumeral ds) :
    classifyOperand ds = .abs (digitsValue 0 ds) := by
  simp only [classifyOperand, natLiteral_of_numeral h]

/-- A string that does not start with a digit is of form 2, 3 or 4. -/
theorem classifyOperand_imm {c : Char} (hc : c.isDigit = false) {s : List Char} {k : Int}
    (h : immLiteral (c :: s) = some k) : classifyOperand (c :: s) = .imm k := by
  simp only [classifyOperand, natLiteral_of_not_numeral (not_isNumeral_cons hc s), h]

/-- Form 2 (R91). -/
theorem classifyOperand_hash {ds : List Char} (h : IsNumeral ds) :
    classifyOperand ('#' :: ds) = .imm (digitsValue 0 ds) :=
  classifyOperand_imm rfl (immLiteral_hash h)

theorem classifyOperand_hash_minus {ds : List Char} (h : IsNumeral ds) :
    classifyOperand ('#' :: '-' :: ds) = .imm (-(digitsValue 0 ds)) :=
  classifyOperand_imm rfl (immLiteral_hash_minus h)

/-- Form 3 (R91). -/
theorem classifyOperand_quoted {s : List Char} {c : Option Char} (h : charLiteral (quoteChar :: s) = some c) :
    classifyOperand (quoteChar :: s) = .char c := by
  have hdigit : quoteChar.isDigit = false := by decide
  have hhash : quoteChar ≠ '#' := by decide
  have himm : immLiteral (quoteChar :: s) = none := immLiteral_eq_none (by simp [hhash])
  simp only [classifyOperand, natLiteral_of_not_numeral (not_isNumeral_cons hdigit s), himm, h]

/-- Form 4 (R91): anything else. -/
theorem classifyOperand_name {s : List Char} (hnum : ¬ IsNumeral s)
    (himm : ∀ ds, IsNumeral ds → s ≠ '#' :: ds ∧ s ≠ '#' :: '-' :: ds)
    (hchar : ∀ c, s ≠ [quoteChar, c, quoteChar]) (hempty : s ≠ [quoteChar, quoteChar]) : classifyOperand s = .var s := by
  simp only [classifyOperand, natLiteral_of_not_numeral hnum, immLiteral_eq_none himm, charLiteral_eq_none hchar hempty]

/-! ### Decimal numerals -/

/-- The ten digits. -/
theorem digitChar : ∀ r < 10, (Char.ofNat (48 + r)).isDigit = true ∧ (Char.ofNat (48 + r)).toNat = 48 + r := by
  decide

/-- A digit after a digit string. -/
theorem numeral_snoc {ds : List Char} (hds : ds.all Char.isDigit = true) {r : Nat} (hr : r < 10) :
    IsNumeral (ds ++ [Char.ofNat (48 + r)]) ∧
      digitsValue 0 (ds ++ [Char.ofNat (48 + r)]) = 10 * digitsValue 0 ds + r := by
  obtain ⟨hdigit, hvalue⟩ := digitChar r hr
  refine ⟨⟨by simp, by rw [List.all_append, hds, List.all_cons, hdigit]; rfl⟩, ?_⟩
  rw [digitsValue_append, digitsValue_cons, digitsValue_nil, hvalue]
  omega

/-- With enough fuel the digits written before `acc` are a numeral of the number. -/
theorem digitsWithFuel_spec (fuel : Nat) {n : Nat} (hn : n < 10 ^ (fuel + 1)) (acc : List Char) :
    ∃ ds, digitsWithFuel (fuel + 1) n acc = ds ++ acc ∧ IsNumeral ds ∧ digitsValue 0 ds = n := by
  induction fuel generalizing n acc with
  | zero =>
    have h0 : n / 10 = 0 := by omega
    obtain ⟨hnum, hval⟩ := numeral_snoc (ds := []) rfl (Nat.mod_lt n (by decide : 10 > 0))
    exact ⟨_, by rw [digitsWithFuel, if_pos h0]; rfl, hnum, by rw [hval, digitsValue_nil]; omega⟩
  | succ fuel ih =>
    by_cases h0 : n / 10 = 0
    · obtain ⟨hnum, hval⟩ := numeral_snoc (ds := []) rfl (Nat.mod_lt n (by decide : 10 > 0))
      exact ⟨_, by rw [digitsWithFuel, if_pos h0]; rfl, hnum, by rw [hval, digitsValue_nil]; omega⟩
    · have hn' : n / 10 < 10 ^ (fuel + 1) := by
        rw [pow_succ] at hn
        omega
      obtain ⟨ds, hds, hnum, hval⟩ := ih hn' (Char.ofNat (48 + n % 10) :: acc)
      obtain ⟨hnum', hval'⟩ := numeral_snoc hnum.2 (Nat.mod_lt n (by decide : 10 > 0))
      refine ⟨_, ?_, hnum', by rw [hval', hval]; omega⟩
      rw [digitsWithFuel, if_neg h0, hds, List.append_assoc]
      rfl

/-- The numeral of an int32 (R145) has ten digits at most. -/
theorem decimal_spec {k : Int} (hk : InInt32 k) : ∃ ds, IsNumeral ds ∧ digitsValue 0 ds = k.natAbs ∧
    decimal k = if k < 0 then '-' :: ds else ds := by
  have hlt : k.natAbs < 10 ^ (9 + 1) := by
    have := (inInt32_iff k).mp hk
    omega
  obtain ⟨ds, hds, hnum, hval⟩ := digitsWithFuel_spec 9 hlt []
  refine ⟨ds, hnum, hval, ?_⟩
  rw [decimal, hds, List.append_nil]

/-! ### The mnemonics -/

theorem classify_twoOperand {m : Mnemonic} (hm : m ∈ [Mnemonic.add, .sub, .mul, .div, .cmp]) (arg : Option (List Char)) :
    classify m arg = arg.map classifyOperand := by
  fin_cases hm <;> rfl

theorem classify_jump {m : Mnemonic} (hm : m ∈ [Mnemonic.jmp, .jz, .js, .jnz]) (arg : Option (List Char)) :
    classify m arg = arg.map .label := by
  fin_cases hm <;> rfl

theorem classify_data {m : Mnemonic} (hm : m ∈ [Mnemonic.ld, .st]) : classify m none = none ∧
    ∀ s, classify m (some s) =
      some (if s = inputWord then .input else if s = outputWord then .output else classifyOperand s) := by
  fin_cases hm <;> exact ⟨rfl, fun _ => rfl⟩

/-! ### The obligation -/

/-- The reserved words are names where they are not tested for. -/
theorem classifyOperand_reserved :
    classifyOperand inputWord = .var inputWord ∧ classifyOperand outputWord = .var outputWord := by
  decide

/-- What R91 makes of the numerals that R145 writes. -/
theorem classifyOperand_decimal {k : Int} (hk : InInt32 k) :
    (0 ≤ k → classifyOperand (decimal k) = .abs k.toNat) ∧ classifyOperand ('#' :: decimal k) = .imm k ∧
    (k < 0 → classifyOperand (decimal k) = .var (decimal k)) := by
  obtain ⟨ds, hnum, hval, hdec⟩ := decimal_spec hk
  by_cases hneg : k < 0
  · rw [hdec, if_pos hneg, classifyOperand_hash_minus hnum, hval]
    have hname : classifyOperand ('-' :: ds) = .var ('-' :: ds) := by
      have hquote : '-' ≠ quoteChar := by decide
      exact classifyOperand_name (not_isNumeral_cons rfl ds) (by simp) (by simp [hquote]) (by simp [hquote])
    exact ⟨fun h => absurd hneg (not_lt.mpr h), by congr 1; omega, fun _ => hname⟩
  · rw [hdec, if_neg hneg, classifyOperand_hash hnum, classifyOperand_numeral hnum, hval]
    exact ⟨fun _ => by congr 1; omega, by congr 1; omega, fun h => absurd h hneg⟩

/-- Settles O7: the forms one by one, the numerals, and the mnemonics by their arguments. -/
theorem argumentStringsClassify : Obligations.ArgumentStringsClassify := by
  unfold Obligations.ArgumentStringsClassify
  refine ⟨?digits, fun c => classifyOperand_quoted (charLiteral_quoted c), classifyOperand_quoted charLiteral_empty,
    ?name, by decide, fun k hk => classifyOperand_decimal hk, ?data, ?twoOperand, ?jump, ⟨rfl, fun s => rfl⟩, ?bare⟩
  case digits =>
    intro ds hne hall
    have hval : digitsValue 0 ds = Nat.ofDigits 10 (ds.map fun c => c.toNat - 48).reverse := by
      rw [digitsValue_eq_ofDigits, Nat.mul_zero, Nat.zero_add]
    dsimp only
    rw [← hval]
    exact ⟨classifyOperand_numeral ⟨hne, hall⟩, classifyOperand_hash ⟨hne, hall⟩,
      classifyOperand_hash_minus ⟨hne, hall⟩⟩
  case name =>
    intro s hforms hchar hempty
    exact classifyOperand_name (fun h => (hforms s h.1 h.2).1 rfl) (fun ds h => (hforms ds h.1 h.2).2) hchar hempty
  case data =>
    intro m hm
    obtain ⟨hnone, hsome⟩ := classify_data hm
    refine ⟨hnone, by rw [hsome, if_pos rfl], ?_, fun s hin hout => by rw [hsome, if_neg hin, if_neg hout]⟩
    rw [hsome, if_neg (by decide), if_pos rfl]
  case twoOperand =>
    intro m hm
    simp only [classify_twoOperand hm, Option.map_none, Option.map_some, classifyOperand_reserved, implies_true, and_self]
  case jump =>
    intro m hm
    simp only [classify_jump hm, Option.map_none, Option.map_some, implies_true, and_self]
  case bare =>
    intro m hm a
    fin_cases hm <;> rfl

end Sys2Proof.Machine
end
